-- ==== Sys2Proof/Word.lean ====
section
/-! DEFINITION. The byte, the unit of every transfer (20_memory R60, R63), and a group of six like things
(the six MAC bytes of 10_state R28, the six MAC registers of 00_scope R8). -/

namespace Sys2Proof

/-- `u8` of 00_scope R9. -/
abbrev Byte := BitVec 8

/-- Exactly six values, in index order 0 to 5. -/
structure Six (α : Type) where
  x0 : α
  x1 : α
  x2 : α
  x3 : α
  x4 : α
  x5 : α
deriving DecidableEq, Repr

/-- The six values in index order. -/
def Six.toList {α : Type} (s : Six α) : List α := [s.x0, s.x1, s.x2, s.x3, s.x4, s.x5]

end Sys2Proof
end

