-- ==== Sys2Proof/Config.lean ====
section
/-! DEFINITION. What is fixed for one machine: the parameter set of 00_scope R8, its reference value P0, its
constraints, and the free values (log 9, log 20). The parameters are a field of State that no step changes, so that a
statement about every state holds for every parameter set (log 4). -/

namespace Sys2Proof

/-- 10_state R30: a register of the controller. The distinction "must be encoded in the address type". -/
inductive RegisterAddress where
  /-- bank-sensitive -/
  | banked (b : BitVec 2) (o : Byte)
  /-- bank-independent: "it has no bank component" -/
  | common (o : Byte)
deriving DecidableEq, Repr

/-- `off(a)` of 10_state R30. -/
def RegisterAddress.off : RegisterAddress → Byte
  | .banked _ o => o
  | .common o => o

/-- "bank-independent" of 10_state R30. -/
def RegisterAddress.isCommon : RegisterAddress → Bool
  | .banked _ _ => false
  | .common _ => true

/-- The parameters of 00_scope R8, each under its own name; READY_DELAY is held by the peer, since ENV may change it
(95_test_vectors P5). -/
structure Params where
  opcRcr : Byte
  opcRbm : Byte
  opcWcr : Byte
  opcWbm : Byte
  opcBfs : Byte
  opcBfc : Byte
  opcSrc : Byte
  addrBits : Nat
  dummy : Byte
  aEcon1 : RegisterAddress
  mBsel : Byte
  mRxen : Byte
  mTxrts : Byte
  aEstat : RegisterAddress
  mClkrdy : Byte
  aEpktcnt : RegisterAddress
  aMaadr : Six RegisterAddress
  rxcfg : List (RegisterAddress × Byte)
  aPhystat : RegisterAddress
  mLink : Byte
  resetPollMax : Nat
  maxFrame : Nat
  hdrBytes : Nat
  hdrLenOff : Nat
  lenBits : Nat
  commonLo : Nat
  bufSize : Nat
  txBase : Nat
deriving DecidableEq, Repr

/-- P0, the reference parameter set of 00_scope R8 (PRESUMED: "from general knowledge" by the spec's own word, log 5). -/
def Params.p0 : Params where
  opcRcr := 0x00#8
  opcRbm := 0x3A#8
  opcWcr := 0x40#8
  opcWbm := 0x7A#8
  opcBfs := 0x80#8
  opcBfc := 0xA0#8
  opcSrc := 0xFF#8
  addrBits := 5
  dummy := 0x00#8
  aEcon1 := .common 0x1F#8
  mBsel := 0x03#8
  mRxen := 0x04#8
  mTxrts := 0x08#8
  aEstat := .common 0x1D#8
  mClkrdy := 0x01#8
  aEpktcnt := .banked 1#2 0x19#8
  aMaadr := { x0 := .banked 3#2 0x04#8, x1 := .banked 3#2 0x05#8, x2 := .banked 3#2 0x02#8,
              x3 := .banked 3#2 0x03#8, x4 := .banked 3#2 0x00#8, x5 := .banked 3#2 0x01#8 }
  rxcfg := [(.banked 0#2 0x08#8, 0x00#8), (.banked 0#2 0x09#8, 0x00#8),
            (.banked 0#2 0x0A#8, 0xFF#8), (.banked 0#2 0x0B#8, 0x19#8)]
  aPhystat := .banked 2#2 0x19#8
  mLink := 0x04#8
  resetPollMax := 1000
  maxFrame := 1518
  hdrBytes := 2
  hdrLenOff := 0
  lenBits := 16
  commonLo := 0x1B
  bufSize := 8192
  txBase := 0x1A00

/-- READY_DELAY of 00_scope R8 under P0; `none` is `inf`. -/
def Params.readyDelay0 : Option Nat := some 0

/-- The low ADDR_BITS bits of a byte: the `arg` field of 30_encoding R91. -/
def Params.offMask (p : Params) : Byte := BitVec.ofNat 8 (2 ^ p.addrBits - 1)

/-- The other bits: the `op` field of 30_encoding R91 (`0xE0` under P0, log 27). -/
def Params.opMask (p : Params) : Byte := ~~~ p.offMask

/-- An offset is "any value below 2^ADDR_BITS" (20_memory R65). -/
def Params.offsetOk (p : Params) (o : Byte) : Bool := decide (o.toNat < 2 ^ p.addrBits)

/-- The four masked opcode bases of 30_encoding R93. -/
def Params.bases (p : Params) : List Byte := [p.opcRcr, p.opcWcr, p.opcBfs, p.opcBfc]

/-- The three full command bytes of 30_encoding R93. -/
def Params.fullBytes (p : Params) : List Byte := [p.opcSrc, p.opcRbm, p.opcWbm]

/-- Every register address the parameters name. -/
def Params.addresses (p : Params) : List RegisterAddress :=
  [p.aEcon1, p.aEstat, p.aEpktcnt, p.aPhystat] ++ p.aMaadr.toList ++ p.rxcfg.map (·.1)

/-- A number is a power of two (the constraint on BUF_SIZE). -/
def isPowerOfTwo (n : Nat) : Bool := decide (n = 2 ^ n.log2)

/-- The constraint column of 00_scope R8: the full command bytes are distinct from each other and from every base; the
bases need only their low ADDR_BITS bits zero. -/
def Params.ok (p : Params) : Bool :=
  decide (1 ≤ p.addrBits) && decide (p.addrBits ≤ 7)
  && p.bases.all (fun b => b &&& p.offMask == 0#8)
  && decide p.fullBytes.Nodup && p.fullBytes.all (fun c => !p.bases.contains c)
  && p.aEcon1.isCommon && p.aEstat.isCommon
  && p.mBsel == 0x03#8
  && p.mRxen &&& p.mBsel == 0#8 && p.mTxrts &&& p.mBsel == 0#8
  && isPowerOfTwo p.mClkrdy.toNat
  && p.mLink != 0#8
  && p.addresses.all (fun a => p.offsetOk a.off)
  && decide (1 ≤ p.resetPollMax) && decide (1 ≤ p.maxFrame)
  && decide (p.hdrLenOff + 2 ≤ p.hdrBytes)
  && decide (16 ≤ p.lenBits)
  && decide (p.commonLo ≤ 2 ^ p.addrBits - 1)
  && isPowerOfTwo p.bufSize
  && decide (p.txBase < p.bufSize)

/-- 30_encoding R98: no two of the seven commands share a command byte: the bases differ, and no full command byte also
fits a masked pattern ("under P0 none do"). -/
def Params.noOverlap (p : Params) : Bool :=
  decide p.bases.Nodup && p.fullBytes.all (fun c => p.bases.all (fun b => c &&& p.opMask != b))

/-- FREE VALUE: a byte nothing constrains, one for each value of the counter `draws` (log 9): a byte fetched from a
buffer that is no longer valid (20_memory R61), the answer of an arbitrary peer (20_memory R80). -/
opaque Config.freeByte : Nat → Byte

/-- FREE VALUE: a byte sequence nothing constrains (log 20): what `sent` gains when the write pointer of the reference
peer has wrapped below TX_BASE (44_controller_peer R196 does not say). -/
opaque Config.freeBytes : Nat → List Byte

end Sys2Proof
end

