-- ==== Sys2Proof/Syntax.lean ====
section
/-! DEFINITION. The instructions: one constructor per row of spec/opcode_table.json, with the operand forms of
30_encoding R91 to R94 (wire commands) and R100 (operations), and the encoded forms they are decoded from. -/

namespace Sys2Proof

/-- The four agents of 00_scope R7. -/
inductive Agent where
  /-- the foreground context -/
  | fg
  /-- the interrupt context of the SPI peripheral -/
  | irq
  /-- the Ethernet controller on the wire -/
  | peer
  /-- the environment -/
  | env
deriving DecidableEq, Repr

/-- One constructor per row of the opcode table. -/
inductive Instr where
  /-- RCR, read control register (44 R185): offset, data bytes of the frame -/
  | rcr (o : Byte) (data : List Byte)
  /-- RBM, read buffer memory (44 R189) -/
  | rbm (data : List Byte)
  /-- WCR, write control register (44 R186) -/
  | wcr (o : Byte) (data : List Byte)
  /-- WBM, write buffer memory (44 R190) -/
  | wbm (data : List Byte)
  /-- BFS, bit-field set (44 R187) -/
  | bfs (o : Byte) (data : List Byte)
  /-- BFC, bit-field clear (44 R188) -/
  | bfc (o : Byte) (data : List Byte)
  /-- SRC, soft reset (44 R191) -/
  | src (data : List Byte)
  /-- `exchangeByte(data)` (40 R111) -/
  | exchangeByte (data : Byte)
  /-- `beginTransmit(buffer, length)` (40 R113 to R115); `none` is null -/
  | beginTransmit (buffer : Option Nat) (length : Nat)
  /-- `isBusy()` (40 R116) -/
  | isBusy
  /-- `irqStep`, the interrupt-context step (40 R117) -/
  | irqStep
  /-- `frameBegin()` (40 R120) -/
  | frameBegin
  /-- `frameEnd()` (40 R120) -/
  | frameEnd
  /-- `selectBank(addr)` (41 R131) -/
  | selectBank (addr : RegisterAddress)
  /-- `readRegister(addr)` (41 R132) -/
  | readRegister (addr : RegisterAddress)
  /-- `writeRegister(addr, value)` (41 R133) -/
  | writeRegister (addr : RegisterAddress) (value : Byte)
  /-- `setBits(addr, mask)` (41 R134) -/
  | setBits (addr : RegisterAddress) (mask : Byte)
  /-- `clearBits(addr, mask)` (41 R135) -/
  | clearBits (addr : RegisterAddress) (mask : Byte)
  /-- `softReset()` (41 R136) -/
  | softReset
  /-- `writePacket(payload)` (42 R151); `none` is null -/
  | writePacket (payload : Option (List Byte))
  /-- `readPacket(capacity)` (42 R153) -/
  | readPacket (capacity : Nat)
  /-- `initialize(mac)` (43 R162); `none` is null -/
  | initializeOp (mac : Option (Six Byte))
  /-- `send(payload)` (43 R164) -/
  | send (payload : Option (List Byte))
  /-- `receive(capacity)` (43 R169) -/
  | receive (capacity : Nat)
  /-- `pollLinkUp()` (43 R168) -/
  | pollLinkUp
  /-- `supIsBusy()` (43 R170) -/
  | supIsBusy
  /-- `txComplete()` (43 R166) -/
  | txComplete
  /-- `hardwareFault()` (43 R167) -/
  | hardwareFault
deriving DecidableEq, Repr

/-- The context column of 30_encoding R99; the controller executes the wire commands. -/
def Instr.agent : Instr → Agent
  | .rcr _ _ => .peer
  | .rbm _ => .peer
  | .wcr _ _ => .peer
  | .wbm _ => .peer
  | .bfs _ _ => .peer
  | .bfc _ _ => .peer
  | .src _ => .peer
  | .irqStep => .irq
  | .exchangeByte _ => .fg
  | .beginTransmit _ _ => .fg
  | .isBusy => .fg
  | .frameBegin => .fg
  | .frameEnd => .fg
  | .selectBank _ => .fg
  | .readRegister _ => .fg
  | .writeRegister _ _ => .fg
  | .setBits _ _ => .fg
  | .clearBits _ _ => .fg
  | .softReset => .fg
  | .writePacket _ => .fg
  | .readPacket _ => .fg
  | .initializeOp _ => .fg
  | .send _ => .fg
  | .receive _ => .fg
  | .pollLinkUp => .fg
  | .supIsBusy => .fg
  | .txComplete => .fg
  | .hardwareFault => .fg

/-- One operand of an operation, in the forms of 30_encoding R100. -/
inductive Arg where
  /-- `u8` -/
  | byte (b : Byte)
  /-- a natural: `length`, `capacity` -/
  | num (n : Nat)
  /-- a host address or null -/
  | hostAddr (a : Option Nat)
  /-- a RegisterAddress -/
  | reg (a : RegisterAddress)
  /-- a byte sequence or null -/
  | bytes (p : Option (List Byte))
  /-- six bytes or null -/
  | mac (m : Option (Six Byte))
deriving DecidableEq, Repr

/-- What a decoder reads: a command frame as its `mosi` bytes (30_encoding R91, R102), or a call, the 5-bit selector of
R99 with its operands (the spec gives operands no binary form, log 22). -/
inductive Encoded where
  | frame (bytes : List Byte)
  | call (sel : BitVec 5) (args : List Arg)
deriving DecidableEq, Repr

end Sys2Proof
end

