-- ==== Sys2Proof/WellFormed.lean ====
section
/-! DEFINITION. Which instructions are well formed: operands in the ranges of 30_encoding R100 and 10_state R30, frames
with the number of data bytes of 30_encoding R94. -/

namespace Sys2Proof

/-- 10_state R30: the offset is below `2^ADDR_BITS`; the bank is 0..3 by its type. -/
def RegisterAddress.ok (p : Params) (a : RegisterAddress) : Bool := p.offsetOk a.off

/-- 10_state R24, 30_encoding R100: a natural LEN_BITS wide. -/
def Params.lengthOk (p : Params) (n : Nat) : Bool := decide (n < 2 ^ p.lenBits)

/-- Operand ranges (10_state R30, 30_encoding R100). -/
def Instr.operandsOk (p : Params) : Instr → Bool
  | .rcr o _ => p.offsetOk o
  | .rbm _ => true
  | .wcr o _ => p.offsetOk o
  | .wbm _ => true
  | .bfs o _ => p.offsetOk o
  | .bfc o _ => p.offsetOk o
  | .src _ => true
  | .exchangeByte _ => true
  | .beginTransmit _ n => p.lengthOk n
  | .isBusy => true
  | .irqStep => true
  | .frameBegin => true
  | .frameEnd => true
  | .selectBank a => a.ok p
  | .readRegister a => a.ok p
  | .writeRegister a _ => a.ok p
  | .setBits a _ => a.ok p
  | .clearBits a _ => a.ok p
  | .softReset => true
  | .writePacket _ => true
  | .readPacket n => p.lengthOk n
  | .initializeOp _ => true
  | .send _ => true
  | .receive n => p.lengthOk n
  | .pollLinkUp => true
  | .supIsBusy => true
  | .txComplete => true
  | .hardwareFault => true

/-- 30_encoding R94: the number of data bytes of a wire command; a call has none. -/
def Instr.lengthsOk : Instr → Bool
  | .rcr _ d => d.length == 1
  | .rbm d => decide (1 ≤ d.length)
  | .wcr _ d => d.length == 1
  | .wbm d => decide (1 ≤ d.length)
  | .bfs _ d => d.length == 1
  | .bfc _ d => d.length == 1
  | .src d => d.length == 0
  | .exchangeByte _ => true
  | .beginTransmit _ _ => true
  | .isBusy => true
  | .irqStep => true
  | .frameBegin => true
  | .frameEnd => true
  | .selectBank _ => true
  | .readRegister _ => true
  | .writeRegister _ _ => true
  | .setBits _ _ => true
  | .clearBits _ _ => true
  | .softReset => true
  | .writePacket _ => true
  | .readPacket _ => true
  | .initializeOp _ => true
  | .send _ => true
  | .receive _ => true
  | .pollLinkUp => true
  | .supIsBusy => true
  | .txComplete => true
  | .hardwareFault => true

/-- Well formed: both checks. -/
def Instr.wf (p : Params) (i : Instr) : Bool := i.operandsOk p && i.lengthsOk

end Sys2Proof
end

