-- ==== Sys2Proof/Decode.lean ====
section
/-! DEFINITION. Decoding, total and rejecting by name (30_encoding R96, R98, R99), the encoder written from the same
tables (30_encoding R91 to R95, R99), and the two functions over a table word. -/

namespace Sys2Proof

/-- Why a decoder refuses. -/
inductive DecodeError where
  /-- a frame without a command byte -/
  | emptyFrame
  /-- a command byte of 30_encoding R96 -/
  | unknownCommand
  /-- selectors 0x15..0x1F (30_encoding R99) -/
  | unassignedSelector
  /-- operands that are not the forms of 30_encoding R100 for that selector -/
  | badOperands
deriving DecidableEq, Repr

/-- A wire command as its command byte alone gives it. -/
inductive WireCmd where
  | rcr (o : Byte)
  | rbm
  | wcr (o : Byte)
  | wbm
  | bfs (o : Byte)
  | bfc (o : Byte)
  | src
  | unknown
deriving DecidableEq, Repr

/-- The command-byte decoder of 30_encoding R98, in its order. -/
def decodeCommand (p : Params) (c : Byte) : WireCmd :=
  if c = p.opcSrc then .src
  else if c = p.opcRbm then .rbm
  else if c = p.opcWbm then .wbm
  else if c &&& p.opMask = p.opcRcr then .rcr (c &&& p.offMask)
  else if c &&& p.opMask = p.opcWcr then .wcr (c &&& p.offMask)
  else if c &&& p.opMask = p.opcBfs then .bfs (c &&& p.offMask)
  else if c &&& p.opMask = p.opcBfc then .bfc (c &&& p.offMask)
  else .unknown

/-- The instruction of a command with the data bytes of its frame. -/
def WireCmd.withData (data : List Byte) : WireCmd → Except DecodeError Instr
  | .rcr o => .ok (.rcr o data)
  | .rbm => .ok (.rbm data)
  | .wcr o => .ok (.wcr o data)
  | .wbm => .ok (.wbm data)
  | .bfs o => .ok (.bfs o data)
  | .bfc o => .ok (.bfc o data)
  | .src => .ok (.src data)
  | .unknown => .error .unknownCommand

/-- A frame's `mosi` bytes read back into a command (30_encoding R98). -/
def decodeFrame (p : Params) : List Byte → Except DecodeError Instr
  | [] => .error .emptyFrame
  | c :: data => (decodeCommand p c).withData data

/-- A call: the selector of 30_encoding R99 with the operands of R100. -/
def decodeCall (sel : BitVec 5) (args : List Arg) : Except DecodeError Instr :=
  match sel.toNat with
  | 0x00 => match args with
    | [.byte d] => .ok (.exchangeByte d)
    | _ => .error .badOperands
  | 0x01 => match args with
    | [.hostAddr b, .num n] => .ok (.beginTransmit b n)
    | _ => .error .badOperands
  | 0x02 => match args with
    | [] => .ok .isBusy
    | _ => .error .badOperands
  | 0x03 => match args with
    | [] => .ok .irqStep
    | _ => .error .badOperands
  | 0x04 => match args with
    | [] => .ok .frameBegin
    | _ => .error .badOperands
  | 0x05 => match args with
    | [] => .ok .frameEnd
    | _ => .error .badOperands
  | 0x06 => match args with
    | [.reg a] => .ok (.selectBank a)
    | _ => .error .badOperands
  | 0x07 => match args with
    | [.reg a] => .ok (.readRegister a)
    | _ => .error .badOperands
  | 0x08 => match args with
    | [.reg a, .byte v] => .ok (.writeRegister a v)
    | _ => .error .badOperands
  | 0x09 => match args with
    | [.reg a, .byte m] => .ok (.setBits a m)
    | _ => .error .badOperands
  | 0x0A => match args with
    | [.reg a, .byte m] => .ok (.clearBits a m)
    | _ => .error .badOperands
  | 0x0B => match args with
    | [] => .ok .softReset
    | _ => .error .badOperands
  | 0x0C => match args with
    | [.bytes p] => .ok (.writePacket p)
    | _ => .error .badOperands
  | 0x0D => match args with
    | [.num n] => .ok (.readPacket n)
    | _ => .error .badOperands
  | 0x0E => match args with
    | [.mac m] => .ok (.initializeOp m)
    | _ => .error .badOperands
  | 0x0F => match args with
    | [.bytes p] => .ok (.send p)
    | _ => .error .badOperands
  | 0x10 => match args with
    | [.num n] => .ok (.receive n)
    | _ => .error .badOperands
  | 0x11 => match args with
    | [] => .ok .pollLinkUp
    | _ => .error .badOperands
  | 0x12 => match args with
    | [] => .ok .supIsBusy
    | _ => .error .badOperands
  | 0x13 => match args with
    | [] => .ok .txComplete
    | _ => .error .badOperands
  | 0x14 => match args with
    | [] => .ok .hardwareFault
    | _ => .error .badOperands
  | _ => .error .unassignedSelector

/-- The decoder: total on any frame and any call. -/
def decode (p : Params) : Encoded → Except DecodeError Instr
  | .frame bytes => decodeFrame p bytes
  | .call sel args => decodeCall sel args

/-- The command byte of a register command: `OPC_x | off(a)` (30_encoding R95). -/
def commandByte (opc o : Byte) : Byte := opc ||| o

/-- The encoder (30_encoding R91 to R95 for frames, R99, R100 for calls). -/
def encode (p : Params) : Instr → Encoded
  | .rcr o d => .frame (commandByte p.opcRcr o :: d)
  | .rbm d => .frame (p.opcRbm :: d)
  | .wcr o d => .frame (commandByte p.opcWcr o :: d)
  | .wbm d => .frame (p.opcWbm :: d)
  | .bfs o d => .frame (commandByte p.opcBfs o :: d)
  | .bfc o d => .frame (commandByte p.opcBfc o :: d)
  | .src d => .frame (p.opcSrc :: d)
  | .exchangeByte d => .call 0x00#5 [.byte d]
  | .beginTransmit b n => .call 0x01#5 [.hostAddr b, .num n]
  | .isBusy => .call 0x02#5 []
  | .irqStep => .call 0x03#5 []
  | .frameBegin => .call 0x04#5 []
  | .frameEnd => .call 0x05#5 []
  | .selectBank a => .call 0x06#5 [.reg a]
  | .readRegister a => .call 0x07#5 [.reg a]
  | .writeRegister a v => .call 0x08#5 [.reg a, .byte v]
  | .setBits a m => .call 0x09#5 [.reg a, .byte m]
  | .clearBits a m => .call 0x0A#5 [.reg a, .byte m]
  | .softReset => .call 0x0B#5 []
  | .writePacket q => .call 0x0C#5 [.bytes q]
  | .readPacket n => .call 0x0D#5 [.num n]
  | .initializeOp m => .call 0x0E#5 [.mac m]
  | .send q => .call 0x0F#5 [.bytes q]
  | .receive n => .call 0x10#5 [.num n]
  | .pollLinkUp => .call 0x11#5 []
  | .supIsBusy => .call 0x12#5 []
  | .txComplete => .call 0x13#5 []
  | .hardwareFault => .call 0x14#5 []

/-- Who executes an encoded form (the context column of 30_encoding R99). -/
def Encoded.agent : Encoded → Agent
  | .frame _ => .peer
  | .call sel _ => if sel = 0x03#5 then .irq else .fg

/-- The operands of a call with every bit zero, in the forms of 30_encoding R100 (log 12). -/
def zeroArgs (sel : BitVec 5) : List Arg :=
  let zeroReg : Arg := .reg (.banked 0#2 0#8)
  match sel.toNat with
  | 0x00 => [.byte 0#8]
  | 0x01 => [.hostAddr (some 0), .num 0]
  | 0x06 => [zeroReg]
  | 0x07 => [zeroReg]
  | 0x08 => [zeroReg, .byte 0#8]
  | 0x09 => [zeroReg, .byte 0#8]
  | 0x0A => [zeroReg, .byte 0#8]
  | 0x0C => [.bytes (some [])]
  | 0x0D => [.num 0]
  | 0x0E => [.mac (some { x0 := 0#8, x1 := 0#8, x2 := 0#8, x3 := 0#8, x4 := 0#8, x5 := 0#8 })]
  | 0x0F => [.bytes (some [])]
  | 0x10 => [.num 0]
  | _ => []

/-- The data bytes of a frame with every bit zero: as many as 30_encoding R94 asks for, one for the streaming
commands. -/
def zeroData : WireCmd → List Byte
  | .rcr _ => [0#8]
  | .rbm => [0#8]
  | .wcr _ => [0#8]
  | .wbm => [0#8]
  | .bfs _ => [0#8]
  | .bfc _ => [0#8]
  | .src => []
  | .unknown => []

/-- A word numbered as spec/opcode_table.json numbers it, laid out for the decoder, with its operands zero. The table
has two levels whose words overlap: a word of at most 5 bits is a selector; a wider word is a selector if it is an
assigned one (0x00..0x14), else a command byte (log 12). -/
def tableLayout (nbits w : Nat) : Encoded :=
  if nbits ≤ 5 ∨ w ≤ 0x14 then .call (BitVec.ofNat 5 w) (zeroArgs (BitVec.ofNat 5 w))
  else .frame (BitVec.ofNat 8 w :: zeroData (decodeCommand Params.p0 (BitVec.ofNat 8 w)))

/-- The instruction the decoder reads from a table word under P0. -/
def decodeTableWord (nbits w : Nat) : Option Instr := (decode Params.p0 (tableLayout nbits w)).toOption

end Sys2Proof
end

