-- ==== Sys2Proof/Machine/State.lean ====
section
/-! DEFINITION. The state of the machine as plain data: the block (10_state), the platform's SPI peripheral (10_state
R33), host memory (10_state R37), the reference peer (44_controller_peer), what ENV will do (10_state R40), and the
reset state (10_state R41, 44 R197). -/

namespace Sys2Proof.Machine

/-- 10_state R22. -/
inductive BusState where
  | idle
  | txBusy
  | rxBusy
  | error
deriving DecidableEq, Repr

/-- 10_state R29. -/
inductive CtlState where
  | uninitialized
  | resetting
  | ready
  | txBusy
  | error
deriving DecidableEq, Repr

/-- 10_state R24, the Transaction. -/
structure Txn where
  buffer : Option Nat
  length : Nat
  cursor : Nat
deriving DecidableEq, Repr

/-- 10_state R28, the ControllerHandle. -/
structure Ctl where
  macAddress : Six Byte
  currentBank : BitVec 2
  state : CtlState
deriving DecidableEq, Repr

/-- 10_state R33, the platform's SPI peripheral: `SPI_DATA` (its write and its read side), `SPI_STAT.BYTE_READY` as the
pending event of R38, `SPI_STAT.RX_AVAIL`, `SPI_CTL.TXIE` (R26). -/
structure Spi where
  dataOut : Byte
  dataIn : Byte
  byteReady : Bool
  rxAvail : Bool
  txIE : Bool
deriving DecidableEq, Repr

/-- One event of the wire log `W` (10_state R39). -/
inductive WireEvent where
  | begin
  | byte (mosi miso : Byte)
  | finish
deriving DecidableEq, Repr

/-- Result codes (60_exceptions R200). -/
inductive Code where
  | ok
  | invalidArgument
  | busy
  | notReady
  | timeout
  | truncated
  | hardwareFault
deriving DecidableEq, Repr

/-- The steps of `initialize` (43_supervisor R163). -/
inductive InitStep where
  | notStarted
  | validate
  | reset
  | configureRx
  | configureMac
  | enableRx
deriving DecidableEq, Repr

/-- What an operation returns (30_encoding R101). -/
inductive Reply where
  /-- an operation without a result has returned -/
  | returned
  /-- `Ok(())` -/
  | ok
  | byte (b : Byte)
  | flag (b : Bool)
  /-- bytes with `Ok` or `Truncated` -/
  | packet (bytes : List Byte) (status : Code)
  | err (c : Code)
  /-- `Err(code, step)` of `initialize` -/
  | errAt (c : Code) (step : InitStep)
deriving DecidableEq, Repr

/-- Memory: address and byte, addresses strictly rising, no entry equal to what an unlisted address reads as
(Machine/Memory.lean). -/
abbrev Memory := List Host.Cell

/-- Where the reference peer stands in the frame on the wire (44 R184): outside, at the command byte, in the data bytes
of a command (`first`: no data byte has come yet). -/
inductive FramePos where
  | outside
  | opened
  | data (cmd : WireCmd) (first : Bool)
deriving DecidableEq, Repr

/-- The reference peer (44 R181 to R184, R194, R196, R198). `cells` holds `Reg[b][o]` and `Com[o]` by the key of
Machine/Peer.lean. -/
structure Peer where
  cells : Memory
  buf : Memory
  rdpt : Nat
  wrpt : Nat
  rxw : Nat
  pend : List Nat
  eaten : Nat
  sent : List (List Byte)
  polls : Nat
  wasReset : Bool
  readyDelay : Option Nat
  linkUp : Bool
  frame : FramePos
deriving DecidableEq, Repr

/-- Who answers on the wire: the reference peer of 44_controller_peer, or any peer (20_memory R80): its answers are
those of `answers`, then free values. -/
inductive WireEnd where
  | reference
  | arbitrary
deriving DecidableEq, Repr

/-- A notification raised and not yet delivered in FG (60_exceptions R211). -/
inductive Notice where
  | txComplete
  | hardwareFault
deriving DecidableEq, Repr

/-- What ENV (or the peer on its own, 20_memory R80) can do in one action. -/
inductive EnvEvent where
  /-- the peripheral can take another byte (60_exceptions R210) -/
  | byteReady
  /-- the bus stops answering (40 R112) -/
  | busStuck
  /-- the bus answers again -/
  | busResponds
  /-- `PeerDeliver(frame)` (44 R195) -/
  | peerDeliver (packet : List Byte)
  /-- `PeerTxDone` (44 R196) -/
  | peerTxDone
  /-- the link goes up or down (44 R198) -/
  | setLink (up : Bool)
  /-- READY_DELAY is set (95_test_vectors P5) -/
  | setReadyDelay (d : Option Nat)
  /-- the caller stores a byte to host memory (20_memory R61) -/
  | hostStore (a : Nat) (b : Byte)
  /-- the caller frees `n` bytes of host memory (70 R240) -/
  | hostFree (a n : Nat)
  /-- a notification is raised (43 R166, R167) -/
  | notify (n : Notice)
deriving DecidableEq, Repr

/-- One entry of the schedule: an agent runs an instruction, ENV acts, or FG hands over the oldest pending
notification. -/
inductive Item where
  | instr (who : Agent) (w : Encoded)
  | env (e : EnvEvent)
  | deliver
deriving DecidableEq, Repr

/-- Where FG stands: free to take its next operation, or for ever inside an `Xchg` that is never enabled (40 R112). -/
inductive FgStatus where
  | running
  | hung
deriving DecidableEq, Repr

/-- The machine. `agenda`, `wireEnd`, `answers` and `draws` are the model's own (log 1, log 8, log 9); `params`,
`busUp`, `plan` and `hostMem` are 10_state R40's parameters of the step relation. -/
structure State where
  params : Params
  bus : BusState
  txn : Txn
  spi : Spi
  irqMasked : Bool
  ctl : Ctl
  fg : FgStatus
  wire : List WireEvent
  replies : List Reply
  hostMem : Memory
  peer : Peer
  wireEnd : WireEnd
  answers : List Byte
  draws : Nat
  busUp : Bool
  plan : List (List EnvEvent)
  notices : List Notice
  agenda : List Item
deriving DecidableEq, Repr

/-- The model faults of 60_exceptions R203. Both are SAFE: "nothing is provable after". -/
inductive Fault where
  /-- an operation of FG that reaches the wire while `Bus.TxBusy`: raised by `exchangeByte`, `frameBegin`, `frameEnd` and
  everything built on them (40 R111, R120) -/
  | busInterleave
  /-- a direct write of the bank-select bits: raised by `writeRegister`, `setBits`, `clearBits` (41 R139) -/
  | forbiddenBankWrite
deriving DecidableEq, Repr

/-- What the machine refuses to run. All are SAFE. -/
inductive Refusal where
  /-- an instruction without a meaning yet: raised by no arm now -/
  | notModelled (mnemonic : String)
  /-- a call that does not decode: raised by the sequencer (30_encoding R99: "a decoder refuses them") -/
  | undecodable (e : DecodeError)
  /-- operands outside the ranges of 30_encoding R100, 10_state R30: raised by the sequencer -/
  | illFormed
  /-- an operation called in a context that may not call it (60_exceptions R216: "a model refuses it"): raised by the
  sequencer -/
  | wrongContext
deriving DecidableEq, Repr

/-- How an operation goes on: it has returned, FG is stuck in an `Xchg` for ever (40 R112), or a model fault was raised
(60_exceptions R203). -/
inductive Flow (α : Type) where
  | done (a : α) (s : State)
  | hang (s : State)
  | fault (f : Fault)

/-- The reference peer at creation (44 R197); READY_DELAY from P0, the link up (log 8). -/
def Peer.created (p : Params) : Peer where
  cells := []
  buf := []
  rdpt := 0
  wrpt := p.txBase
  rxw := 0
  pend := []
  eaten := 0
  sent := []
  polls := 0
  wasReset := false
  readyDelay := Params.readyDelay0
  linkUp := true
  frame := .outside

/-- Reset: 10_state R41, 44 R197. `macAddress` (log 6) and the SPI registers (log 7) have values the model names. -/
def State.reset : State where
  params := Params.p0
  bus := .idle
  txn := { buffer := none, length := 0, cursor := 0 }
  spi := { dataOut := 0#8, dataIn := 0#8, byteReady := false, rxAvail := false, txIE := false }
  irqMasked := false
  ctl := { macAddress := { x0 := 0#8, x1 := 0#8, x2 := 0#8, x3 := 0#8, x4 := 0#8, x5 := 0#8 },
           currentBank := 0#2, state := .uninitialized }
  fg := .running
  wire := []
  replies := []
  hostMem := []
  peer := Peer.created Params.p0
  wireEnd := .reference
  answers := []
  draws := 0
  busUp := true
  plan := []
  notices := []
  agenda := []

end Sys2Proof.Machine
end

