-- ==== Sys2Proof/Machine/Memory.lean ====
section
/-! DEFINITION. Memory as a list of address and byte in one canonical form (10_state R37, 44 R181, R182). -/

namespace Sys2Proof.Machine

/-- The two kinds of address space the model lists bytes of. -/
inductive Space where
  /-- host memory, the caller's (10_state R37) -/
  | host
  /-- the reference peer's registers and buffer memory (44 R181, R182) -/
  | controller
deriving DecidableEq, Repr

/-- What an unlisted address reads as: in host memory no value, so that a fetch there is any value (20_memory R61, log
10); in the controller zero (44 R197: "every Reg and Com cell 0", "Buf ... all zero at creation"). -/
def Memory.unlisted : Space → Option Byte
  | .host => none
  | .controller => some 0#8

/-- The listed byte at an address. -/
def Memory.find (a : Nat) : Memory → Option Byte
  | [] => none
  | c :: m => if c.1 = a then some c.2 else Memory.find a m

/-- One byte at an address; `none` where the space gives none. -/
def Memory.read (sp : Space) (m : Memory) (a : Nat) : Option Byte :=
  match Memory.find a m with
  | some b => some b
  | none => Memory.unlisted sp

/-- Take an address out of the list. -/
def Memory.erase (a : Nat) : Memory → Memory
  | [] => []
  | c :: m => if c.1 = a then Memory.erase a m else c :: Memory.erase a m

/-- List a byte at its place in the order, replacing what was listed there. -/
def Memory.insert (a : Nat) (b : Byte) : Memory → Memory
  | [] => [(a, b)]
  | c :: m =>
    if a < c.1 then (a, b) :: c :: m
    else if a = c.1 then (a, b) :: m
    else c :: Memory.insert a b m

/-- Store one byte, keeping the canonical form. -/
def Memory.write (sp : Space) (m : Memory) (a : Nat) (b : Byte) : Memory :=
  if Memory.unlisted sp = some b then Memory.erase a m else Memory.insert a b m

/-- Free `n` bytes from `a` on (70 R240): the bytes are no longer listed. -/
def Memory.free (m : Memory) (a : Nat) : Nat → Memory
  | 0 => m
  | n + 1 => Memory.free (Memory.erase (a + n) m) a n

/-- Addresses strictly rising. -/
def Memory.rising : Memory → Bool
  | [] => true
  | c :: m => m.all (fun d => decide (c.1 < d.1)) && Memory.rising m

/-- The canonical form: addresses strictly rising, no entry equal to what an unlisted address reads as. -/
def Memory.wf (sp : Space) (m : Memory) : Bool :=
  Memory.rising m && m.all (fun c => decide (Memory.unlisted sp ≠ some c.2))

end Sys2Proof.Machine
end

