-- ==== Sys2Proof/Machine/Flags.lean ====
section
/-! DEFINITION. Flags and status bits: bit-field set, clear and test (30_encoding R104), the codes of the enumerations
(10_state R22, R29; 60_exceptions R200; 43 R163), and the conditions the block computes from its state (40 R116, 43 R161,
R170, 60_exceptions R210). -/

namespace Sys2Proof.Machine

/-- BFS: `r | m` (30_encoding R104). -/
def setField (r m : Byte) : Byte := r ||| m

/-- BFC: `r & ~m` (30_encoding R104). -/
def clearField (r m : Byte) : Byte := r &&& ~~~ m

/-- A flag test: `(v & M) ≠ 0` (30_encoding R104). -/
def flagSet (v m : Byte) : Bool := decide (v &&& m ≠ 0#8)

/-- A flag forced to a value, the other bits as they are (44 R194, R198). -/
def putFlag (v m : Byte) (on : Bool) : Byte := if on then setField v m else clearField v m

/-- Write `v` except on the bits of `keep`, which stay as in `old` (44 R186: writes to the peer's own bits are
ignored). -/
def writeExcept (keep old v : Byte) : Byte := (old &&& keep) ||| (v &&& ~~~ keep)

/-- Codes of `BusState` (10_state R22). -/
def BusState.code : BusState → Nat
  | .idle => 0
  | .txBusy => 1
  | .rxBusy => 2
  | .error => 3

/-- Codes of `ControllerState` (10_state R29). -/
def CtlState.code : CtlState → Nat
  | .uninitialized => 0
  | .resetting => 1
  | .ready => 2
  | .txBusy => 3
  | .error => 4

/-- Result codes (60_exceptions R200). -/
def Code.num : Code → Nat
  | .ok => 0
  | .invalidArgument => 1
  | .busy => 2
  | .notReady => 3
  | .timeout => 4
  | .truncated => 5
  | .hardwareFault => 6

/-- Step numbers (43 R163). -/
def InitStep.num : InitStep → Nat
  | .notStarted => 0
  | .validate => 1
  | .reset => 2
  | .configureRx => 3
  | .configureMac => 4
  | .enableRx => 5

/-- `isBusy`: `BusState != Idle` (40 R116). -/
def busBusy (s : State) : Bool := decide (s.bus ≠ .idle)

/-- `supIsBusy` (43 R170). -/
def supervisorBusy (s : State) : Bool := decide (s.ctl.state = .txBusy) || decide (s.bus ≠ .idle)

/-- `irqStep` is enabled iff TxIE = 1, an event is pending and the interrupt is not masked (60_exceptions R210). -/
def irqEnabled (s : State) : Bool := s.spi.txIE && s.spi.byteReady && !s.irqMasked

/-- The states `initialize` is accepted in (43 R161). -/
def acceptsInitialize (c : CtlState) : Bool := decide (c = .uninitialized) || decide (c = .error)

/-- The states `receive` is accepted in (43 R161). -/
def acceptsReceive (c : CtlState) : Bool := decide (c = .ready) || decide (c = .txBusy)

/-- `hardwareFault` acts in Ready and TxBusy only (43 R167). -/
def acceptsHardwareFault (c : CtlState) : Bool := decide (c = .ready) || decide (c = .txBusy)

end Sys2Proof.Machine
end

