-- ==== Sys2Proof/Machine/Operands.lean ====
section
/-! DEFINITION. Operand assembly (30_encoding R95): bank masks, the 16-bit length from two bytes and back, the address of
the next byte of a transaction, the header of a stored packet, null and empty arguments (R100). -/

namespace Sys2Proof.Machine

/-- "the bank number b is sent as the mask byte b" (30_encoding R95). -/
def bankMask (b : BitVec 2) : Byte := b.setWidth 8

/-- `lo8(v)` (00_scope R9). -/
def lo8 (v : Nat) : Byte := BitVec.ofNat 8 v

/-- `hi8(v)` (00_scope R9). -/
def hi8 (v : Nat) : Byte := BitVec.ofNat 8 (v / 256)

/-- `zext_16(lo) | (zext_16(hi) << 8)` (30_encoding R95). -/
def word16 (lo hi : Byte) : Nat := ((lo.setWidth 16) ||| ((hi.setWidth 16) <<< 8)).toNat

/-- The payload length in a packet header: two bytes at HDR_LEN_OFF, low byte first (42 R154). -/
def headerLength (p : Params) (h : List Byte) : Nat :=
  word16 (h.getD p.hdrLenOff 0#8) (h.getD (p.hdrLenOff + 1) 0#8)

/-- The header the reference peer stores before a packet of `len` bytes (44 R195). -/
def packetHeader (p : Params) (len : Nat) : List Byte :=
  (List.range p.hdrBytes).map fun j =>
    if j = p.hdrLenOff then lo8 len else if j = p.hdrLenOff + 1 then hi8 len else 0#8

/-- A payload argument as bytes; "null and the empty sequence are both empty" (30_encoding R100). -/
def payloadBytes (payload : Option (List Byte)) : List Byte := payload.getD []

end Sys2Proof.Machine
end

