-- ==== Sys2Proof/Machine/Peer.lean ====
section
/-! DEFINITION. The reference peer (44_controller_peer), one byte at a time as the wire carries them, over the small
operations on its registers, its buffer memory and its packet queue that the seven commands use. -/

namespace Sys2Proof.Machine

/-- A cell of the register file (44 R181). -/
inductive CellId where
  | reg (b : BitVec 2) (o : Byte)
  | com (o : Byte)
deriving DecidableEq, Repr

/-- The key a cell is listed under in `cells`. -/
def CellId.key : CellId → Nat
  | .reg b o => 256 * b.toNat + o.toNat
  | .com o => 1024 + o.toNat

/-- The stored byte of a cell. -/
def Peer.stored (c : Peer) (i : CellId) : Byte := (Memory.read .controller c.cells i.key).getD 0#8

/-- Store a byte in a cell. -/
def Peer.store (c : Peer) (i : CellId) (v : Byte) : Peer :=
  { c with cells := Memory.write .controller c.cells i.key v }

/-- `Com[off(A_ECON1)]` (44 R181). For an offset below COMMON_LO, where R181 has no such cell, the model still has one,
which no command reaches: the model's choice (log 33). -/
def econ1Cell (p : Params) : CellId := .com p.aEcon1.off

/-- `bank = Com[off(A_ECON1)] & M_BSEL` (44 R181). -/
def Peer.bank (p : Params) (c : Peer) : BitVec 2 := (c.stored (econ1Cell p) &&& p.mBsel).setWidth 2

/-- `cell(o)` (44 R181): common from COMMON_LO up, else of the selected bank. -/
def cellOf (p : Params) (bank : BitVec 2) (o : Byte) : CellId :=
  if p.commonLo ≤ o.toNat then .com o else .reg bank o

/-- Whether offset `o` in a command, with `bank` selected, reaches the register an address names. -/
def reaches (p : Params) (bank : BitVec 2) (o : Byte) (a : RegisterAddress) : Bool :=
  decide (o = a.off) &&
    (decide (p.commonLo ≤ o.toNat) ||
      match a with
      | .banked b _ => decide (b = bank)
      | .common _ => true)

/-- The ready flag as read now (44 R194). A READY_DELAY that ENV changes counts at once, against the reads already made since
the soft reset: the model's choice (log 35). -/
def Peer.ready (c : Peer) : Bool :=
  c.wasReset && match c.readyDelay with
    | some d => decide (d ≤ c.polls)
    | none => false

/-- `read(o)` of 44 R185: the cell, with the packet count (R183), the ready flag (R194) and the link bit (R198) computed
by their own rules. Where two of these are one cell the spec does not say which rule wins: the ready flag is laid over the
packet count and the link bit over both, the model's choice (log 32). -/
def Peer.readValue (p : Params) (c : Peer) (o : Byte) : Byte :=
  let bank := c.bank p
  let v := c.stored (cellOf p bank o)
  let v := if reaches p bank o p.aEpktcnt then BitVec.ofNat 8 (min c.pend.length 255) else v
  let v := if reaches p bank o p.aEstat then putFlag v p.mClkrdy c.ready else v
  if reaches p bank o p.aPhystat then putFlag v p.mLink c.linkUp else v

/-- A read of `A_ESTAT` counts as one poll (44 R185). -/
def Peer.countPoll (p : Params) (c : Peer) (o : Byte) : Peer :=
  if reaches p (c.bank p) o p.aEstat then { c with polls := c.polls + 1 } else c

/-- The bits of the addressed cell that are the peer's own: the ready flag and the link bit (44 R186). -/
def Peer.ownBits (p : Params) (c : Peer) (o : Byte) : Byte :=
  let bank := c.bank p
  (if reaches p bank o p.aEstat then p.mClkrdy else 0#8) ||| (if reaches p bank o p.aPhystat then p.mLink else 0#8)

/-- `cell(o) <- v`; a write to the packet count is ignored, and on the peer's own bits too (44 R183, R186, log 21);
where both lie in one cell the whole write is ignored, the model's choice (log 32). -/
def Peer.writeCell (p : Params) (c : Peer) (o v : Byte) : Peer :=
  if reaches p (c.bank p) o p.aEpktcnt then c
  else
    let i := cellOf p (c.bank p) o
    c.store i (writeExcept (c.ownBits p o) (c.stored i) v)

/-- The bytes `Buf[TX_BASE .. wrpt-1]` (44 R196); free once the write pointer has wrapped below TX_BASE (log 20). -/
def Peer.staged (p : Params) (free : List Byte) (c : Peer) : List Byte :=
  if c.wrpt < p.txBase then free
  else (List.range (c.wrpt - p.txBase)).map fun k => (Memory.read .controller c.buf (p.txBase + k)).getD 0#8

/-- Whether a BFS that takes the peer from `before` to `after` sets M_TXRTS in `Com[off(A_ECON1)]` (44 R196): the bit was 0
and is 1 (log 19). A BFS repeated sets nothing more (20_memory R67, 44 R187). -/
def Peer.startsTransmission (p : Params) (before after : Peer) : Bool :=
  !flagSet (before.stored (econ1Cell p)) p.mTxrts && flagSet (after.stored (econ1Cell p)) p.mTxrts

/-- BFS (44 R187): `cell(o) <- cell(o) | m`; a set of M_TXRTS starts a transmission (R196). -/
def Peer.setCell (p : Params) (free : List Byte) (c : Peer) (o m : Byte) : Peer :=
  let c' := c.writeCell p o (setField (c.stored (cellOf p (c.bank p) o)) m)
  if c.startsTransmission p c' then { c' with sent := c'.sent ++ [c.staged p free] } else c'

/-- BFC (44 R188): `cell(o) <- cell(o) & ~m`. -/
def Peer.clearCell (p : Params) (c : Peer) (o m : Byte) : Peer :=
  c.writeCell p o (clearField (c.stored (cellOf p (c.bank p) o)) m)

/-- The release test of 44 R183: the head packet goes when its last byte has been streamed out. -/
def Peer.release (c : Peer) : Peer :=
  match c.pend with
  | [] => c
  | n :: rest => if n ≤ c.eaten then { c with pend := rest, eaten := 0 } else c

/-- The byte at the read pointer (44 R189). -/
def Peer.bufHead (c : Peer) : Byte := (Memory.read .controller c.buf c.rdpt).getD 0#8

/-- One data byte of RBM (44 R189): the read pointer advances, a pending packet is eaten. -/
def Peer.advanceRead (p : Params) (c : Peer) : Peer :=
  let c' := { c with rdpt := (c.rdpt + 1) % p.bufSize }
  if c.pend.isEmpty then c' else ({ c' with eaten := c'.eaten + 1 } : Peer).release

/-- One data byte of WBM (44 R190). -/
def Peer.stage (p : Params) (c : Peer) (d : Byte) : Peer :=
  { c with buf := Memory.write .controller c.buf c.wrpt d, wrpt := (c.wrpt + 1) % p.bufSize }

/-- The reset state of 44 R197, as SRC reaches it: `Buf`, `sent`, READY_DELAY and the link are kept. -/
def Peer.softReset (p : Params) (c : Peer) : Peer :=
  { c with cells := [], rdpt := 0, rxw := 0, wrpt := p.txBase, pend := [], eaten := 0, polls := 0, wasReset := true }

/-- One data byte of a command: the answer and the peer after it (44 R185 to R193). -/
def Peer.dataByte (p : Params) (free : List Byte) (c : Peer) (cmd : WireCmd) (first : Bool) (d : Byte) : Byte × Peer :=
  match cmd with
  | .rcr o => (c.readValue p o, c.countPoll p o)
  | .rbm => (c.bufHead, c.advanceRead p)
  | .wcr o => (0#8, if first then c.writeCell p o d else c)
  | .wbm => (0#8, c.stage p d)
  | .bfs o => (0#8, if first then c.setCell p free o d else c)
  | .bfc o => (0#8, if first then c.clearCell p o d else c)
  | .src => (0#8, c)
  | .unknown => (0#8, c)

/-- `Begin` (44 R184): the peer expects a command byte. -/
def Peer.onBegin (c : Peer) : Peer := { c with frame := .opened }

/-- One byte on the wire (44 R184): outside a frame ignored, then the command byte, then data bytes. -/
def Peer.onByte (p : Params) (free : List Byte) (c : Peer) (d : Byte) : Byte × Peer :=
  match c.frame with
  | .outside => (0#8, c)
  | .opened => (0#8, { c with frame := .data (decodeCommand p d) true })
  | .data cmd first =>
    ((c.dataByte p free cmd first d).1, { (c.dataByte p free cmd first d).2 with frame := .data cmd false })

/-- `End` (44 R184, R191): the command is finished; a soft reset takes place here. -/
def Peer.onEnd (p : Params) (c : Peer) : Peer :=
  match c.frame with
  | .data .src _ => { c.softReset p with frame := .outside }
  | _ => { c with frame := .outside }

/-- Store bytes from `rxw` on, wrapping (44 R195). -/
def Peer.storeReceived (p : Params) : List Byte → Peer → Peer
  | [], c => c
  | b :: bs, c =>
    Peer.storeReceived p bs
      { c with buf := Memory.write .controller c.buf c.rxw b, rxw := (c.rxw + 1) % p.bufSize }

/-- `PeerDeliver(frame)` (44 R195): enabled while reception is on and the packet has at most 65535 bytes. -/
def Peer.deliver (p : Params) (packet : List Byte) (c : Peer) : Peer :=
  if flagSet (c.stored (econ1Cell p)) p.mRxen && decide (packet.length ≤ 65535) then
    let c' := Peer.storeReceived p (packetHeader p packet.length ++ packet) c
    { c' with pend := c'.pend ++ [p.hdrBytes + packet.length] }
  else c

/-- `PeerTxDone` is enabled while M_TXRTS is 1 (44 R196). -/
def Peer.transmitting (p : Params) (c : Peer) : Bool := flagSet (c.stored (econ1Cell p)) p.mTxrts

/-- `PeerTxDone` (44 R196) on the peer: M_TXRTS cleared, the write pointer back at TX_BASE. -/
def Peer.txDone (p : Params) (c : Peer) : Peer :=
  { c.store (econ1Cell p) (clearField (c.stored (econ1Cell p)) p.mTxrts) with wrpt := p.txBase }

end Sys2Proof.Machine
end

