-- ==== Sys2Proof/Machine/Update.lean ====
section
/-! DEFINITION. The updates of State the operations are written with, one per field; Laws/State.lean says of each what it
changes and what it leaves. -/

namespace Sys2Proof.Machine

def State.setBus (s : State) (b : BusState) : State := { s with bus := b }
def State.setTxn (s : State) (t : Txn) : State := { s with txn := t }
def State.setSpi (s : State) (p : Spi) : State := { s with spi := p }
def State.setMask (s : State) (b : Bool) : State := { s with irqMasked := b }
def State.setCtl (s : State) (c : Ctl) : State := { s with ctl := c }
def State.setFg (s : State) (f : FgStatus) : State := { s with fg := f }
/-- `W <- W ++ events` (10_state R39) -/
def State.logWire (s : State) (e : List WireEvent) : State := { s with wire := s.wire ++ e }
/-- a result is returned to the caller (30_encoding R101) -/
def State.addReply (s : State) (r : Reply) : State := { s with replies := s.replies ++ [r] }
def State.setHostMem (s : State) (m : Memory) : State := { s with hostMem := m }
def State.setPeer (s : State) (c : Peer) : State := { s with peer := c }
def State.setAnswers (s : State) (a : List Byte) : State := { s with answers := a }
/-- `n` free values have been drawn (log 9) -/
def State.draw (s : State) (n : Nat) : State := { s with draws := s.draws + n }
def State.setBusUp (s : State) (b : Bool) : State := { s with busUp := b }
def State.setPlan (s : State) (p : List (List EnvEvent)) : State := { s with plan := p }
def State.setNotices (s : State) (n : List Notice) : State := { s with notices := n }
def State.setAgenda (s : State) (a : List Item) : State := { s with agenda := a }

/-- `Ctl.state <- c` -/
def State.setCtlState (s : State) (c : CtlState) : State := s.setCtl { s.ctl with state := c }
/-- `Ctl.currentBank <- b` -/
def State.setBank (s : State) (b : BitVec 2) : State := s.setCtl { s.ctl with currentBank := b }

end Sys2Proof.Machine
end

