-- ==== Sys2Proof/Machine/Env.lean ====
section
/-! DEFINITION. What one action of ENV, or of the peer on its own, does (00_scope R7, 20_memory R80). -/

namespace Sys2Proof.Machine

/-- The byte-ready event is raised (60_exceptions R210): at most one is pending; with TxIE = 0 it "is not remembered by
the block", and while FG is in an `atomic` section it stays pending (log 15). -/
def raiseByteReady (s : State) : State :=
  if s.spi.txIE || s.irqMasked then s.setSpi { s.spi with byteReady := true } else s

/-- `PeerTxDone` (44 R196): if a transmission is on, the peer is done and the tx-complete notification is raised. -/
def peerTxDone (s : State) : State :=
  if s.peer.transmitting s.params then
    (s.setPeer (s.peer.txDone s.params)).setNotices (s.notices ++ [.txComplete])
  else s

/-- One ENV action. A store to a host byte that had been freed lists it again, so that a fetch gives the byte stored
(20_memory R61 is silent on it): the model's choice (log 36). -/
def applyEvent (s : State) : EnvEvent → State
  | .byteReady => raiseByteReady s
  | .busStuck => s.setBusUp false
  | .busResponds => s.setBusUp true
  | .peerDeliver packet => s.setPeer (s.peer.deliver s.params packet)
  | .peerTxDone => peerTxDone s
  | .setLink up => s.setPeer { s.peer with linkUp := up }
  | .setReadyDelay d => s.setPeer { s.peer with readyDelay := d }
  | .hostStore a b => s.setHostMem (Memory.write .host s.hostMem a b)
  | .hostFree a n => s.setHostMem (Memory.free s.hostMem a n)
  | .notify n => s.setNotices (s.notices ++ [n])

/-- ENV actions in order. -/
def applyEvents (es : List EnvEvent) (s : State) : State := es.foldl applyEvent s

end Sys2Proof.Machine
end

