-- ==== Sys2Proof/Machine/Ops.lean ====
section
/-! DEFINITION. The operations the meanings are written over: the exchange of one byte and its wait (40 R112), the fetch
of a host byte (20_memory R61), frame delimiters (40 R120), the critical section and the claim (20_memory R74, R75),
command frames and the bank-select sequence (41 R130, R131), taking the byte-ready interrupt and returning from it
(60_exceptions R210 to R213), and how an operation ends. -/

namespace Sys2Proof.Machine

/-- Go on after an operation that has returned. -/
def Flow.bind {α β : Type} (f : Flow α) (k : α → State → Flow β) : Flow β :=
  match f with
  | .done a s => k a s
  | .hang s => .hang s
  | .fault e => .fault e

/-- An operation of FG ends: its result goes to the caller; or FG stays in an `Xchg` for ever (40 R112: "not a fault and
not an error return", log 3); or a model fault is raised and "the caller gets nothing back" (60_exceptions R203). -/
def Flow.finish {α : Type} (reply : α → Reply) : Flow α → Host.Outcome State Fault Refusal
  | .done a s => .next (s.addReply (reply a))
  | .hang s => .next (s.setFg .hung)
  | .fault e => .fault e

/-- The answer of the other end of the wire to a byte: the reference peer's (44 R184), or any byte (20_memory R80). -/
def wireAnswer (d : Byte) (s : State) : Byte :=
  match s.wireEnd with
  | .reference => (s.peer.onByte s.params (Config.freeBytes s.draws) d).1
  | .arbitrary => match s.answers with
    | a :: _ => a
    | [] => Config.freeByte s.draws

/-- The other end of the wire after a byte. -/
def wireEndAfter (d : Byte) (s : State) : State :=
  match s.wireEnd with
  | .reference => s.setPeer (s.peer.onByte s.params (Config.freeBytes s.draws) d).2
  | .arbitrary => s.setAnswers s.answers.tail

/-- One byte out, one byte in, indivisible (20_memory R66): `W` gains `Byte(d, r)`; `SPI_DATA` is written and read, which
takes BYTE_READY and RX_AVAIL back (10_state R33, 60_exceptions R210, log 15, log 25). -/
def clockByte (d : Byte) (s : State) : State :=
  (((wireEndAfter d s).logWire [.byte d (wireAnswer d s)]).setSpi
    { dataOut := d, dataIn := wireAnswer d s, byteReady := false, rxAvail := false, txIE := s.spi.txIE }).draw 1

/-- FG waits for the bus: ENV acts as planned, one group of actions before each exchange and further groups while the bus
does not answer; when none is left and the bus is stuck, FG has no step (40 R112, log 2, log 3). -/
def awaitBus : List (List EnvEvent) → State → Flow Unit
  | [], s => if s.busUp then .done () (s.setPlan []) else .hang (s.setPlan [])
  | es :: rest, s =>
    if (applyEvents es s).busUp then .done () ((applyEvents es s).setPlan rest)
    else awaitBus rest (applyEvents es s)

/-- `Xchg(d) -> r` by FG (40 R112). -/
def xchg (d : Byte) (s : State) : Flow Byte :=
  (awaitBus s.plan s).bind fun _ s => .done (wireAnswer d s) (clockByte d s)

/-- `MemRead(a, 1)` of host memory: the byte it holds now, or any value if the buffer is no longer valid (20_memory R61);
no buffer at all is not valid either (log 10). -/
def fetchByte (a : Option Nat) (s : State) : Byte × State :=
  match a.bind (Memory.read .host s.hostMem) with
  | some b => (b, s)
  | none => (Config.freeByte s.draws, s.draw 1)

/-- The address of the next byte of the transaction (20_memory R60). -/
def txnAddress (s : State) : Option Nat := s.txn.buffer.map (· + s.txn.cursor)

/-- `FrameBegin()`: the event `Begin`, seen by the reference peer (30_encoding R92, 44 R184). -/
def emitBegin (s : State) : State :=
  match s.wireEnd with
  | .reference => (s.setPeer s.peer.onBegin).logWire [.begin]
  | .arbitrary => s.logWire [.begin]

/-- `FrameEnd()`: the event `End` (30_encoding R92, 44 R184, R191). -/
def emitEnd (s : State) : State :=
  match s.wireEnd with
  | .reference => (s.setPeer (s.peer.onEnd s.params)).logWire [.finish]
  | .arbitrary => s.logWire [.finish]

/-- "if BusState == Bus.TxBusy then raise BusInterleave()" (40 R111, R120). -/
def unlessTransmitting {α : Type} (s : State) (f : Flow α) : Flow α :=
  if s.bus = .txBusy then .fault .busInterleave else f

/-- `exchangeByte(data)` (40 R111). -/
def exchangeByte (d : Byte) (s : State) : Flow Byte := unlessTransmitting s (xchg d s)

/-- `frameBegin()` (40 R120). -/
def frameBegin (s : State) : Flow Unit := unlessTransmitting s (.done () (emitBegin s))

/-- `frameEnd()` (40 R120). -/
def frameEnd (s : State) : Flow Unit := unlessTransmitting s (.done () (emitEnd s))

/-- `exchangeByte` for each byte in order; the received bytes in order. -/
def exchangeAll : List Byte → State → Flow (List Byte)
  | [], s => .done [] s
  | d :: ds, s =>
    (exchangeByte d s).bind fun r s => (exchangeAll ds s).bind fun rs s => .done (r :: rs) s

/-- One command frame (30_encoding R92, 41 R130): `frameBegin`, the bytes, `frameEnd`; the received bytes. -/
def framed (bytes : List Byte) (s : State) : Flow (List Byte) :=
  (frameBegin s).bind fun _ s =>
    (exchangeAll bytes s).bind fun rs s =>
      (frameEnd s).bind fun _ s => .done rs s

/-- `Cmd1(c)` (41 R130). -/
def cmd1 (c : Byte) (s : State) : Flow Unit := (framed [c] s).bind fun _ s => .done () s

/-- `Cmd2(c, d) -> r` (41 R130): the byte received with `d`. -/
def cmd2 (c d : Byte) (s : State) : Flow Byte := (framed [c, d] s).bind fun rs s => .done (rs.getD 1 0#8) s

/-- `atomic { ... }`: entering masks the interrupt context, leaving unmasks it (20_memory R74). -/
def atomically {α : Type} (body : State → α × State) (s : State) : α × State :=
  ((body (s.setMask true)).1, (body (s.setMask true)).2.setMask false)

/-- The claim (40 R114, 20_memory R75): a compare-and-swap of `BusState` from Idle to TxBusy. -/
def claimBus : State → Bool × State :=
  atomically fun s => if s.bus ≠ .idle then (false, s) else (true, s.setBus .txBusy)

/-- The bank-select sequence (41 R131). -/
def selectBank (a : RegisterAddress) (s : State) : Flow Unit :=
  match a with
  | .common _ => .done () s
  | .banked b _ =>
    if b ≠ s.ctl.currentBank then
      (cmd2 (commandByte s.params.opcBfc s.params.aEcon1.off) s.params.mBsel s).bind fun _ s =>
        (cmd2 (commandByte s.params.opcBfs s.params.aEcon1.off) (bankMask b) s).bind fun _ s =>
          .done () (s.setBank b)
    else .done () s

/-- Whether a register address is the one that holds the bank-select bits: `A_ECON1`, or another spelling of its offset
where that offset is common in the controller (44 R181). 41 R133 to R135 compare with `A_ECON1`; 10_state R31 has every
operation refused that could break the cached bank (log 29). -/
def namesBankRegister (p : Params) (a : RegisterAddress) : Bool :=
  decide (a = p.aEcon1) || (decide (a.off = p.aEcon1.off) && decide (p.commonLo ≤ a.off.toNat))

/-- The check of 41 R139 on a set or a clear: the address is the bank-select register and the mask meets M_BSEL. -/
def touchesBankBits (s : State) (a : RegisterAddress) (mask : Byte) : Bool :=
  namesBankRegister s.params a && flagSet mask s.params.mBsel

/-- A register command with one data byte, after the bank-select sequence (41 R132 to R135). -/
def registerCommand (opc : Byte) (a : RegisterAddress) (d : Byte) (s : State) : Flow Byte :=
  (selectBank a s).bind fun _ s => cmd2 (commandByte opc a.off) d s

/-- Taking the byte-ready interrupt and returning from it (60_exceptions R210 to R213): if it is enabled the event is
consumed and the handler runs to completion; "the block saves nothing and changes no mode bit", and FG resumes where it
was. If it is not enabled nothing is invoked (log 14). -/
def takeInterrupt (handler : State → State) (s : State) : State :=
  if irqEnabled s then handler (s.setSpi { s.spi with byteReady := false }) else s

end Sys2Proof.Machine
end

