-- ==== Sys2Proof/Machine/BusEngine.lean ====
section
/-! DEFINITION. The Bus Engine's operations (40_bus_engine). -/

namespace Sys2Proof.Machine

/-- `exchangeByte(data) -> receivedByte` (40 R111, R112). -/
def execExchangeByte (data : Byte) (s : State) : Host.Outcome State Fault Refusal :=
  (exchangeByte data s).finish .byte

/-- Acceptance (40 R115): the Transaction is created and its first byte goes out; the received byte is dropped. -/
def acceptTransmit (buffer length : Nat) (s : State) : Flow Code :=
  let s := s.setTxn { buffer := some buffer, length := length, cursor := 0 }
  (xchg (fetchByte (txnAddress s) s).1 (fetchByte (txnAddress s) s).2).bind fun _ s =>
    .done .ok ((s.setTxn { s.txn with cursor := 1 }).setSpi { s.spi with txIE := true })

/-- `beginTransmit(buffer, length)`: argument check (40 R113), claim (R114), acceptance (R115), in that order. -/
def beginTransmit (buffer : Option Nat) (length : Nat) (s : State) : Flow Code :=
  match buffer with
  | none => .done .invalidArgument s
  | some a =>
    if length = 0 then .done .invalidArgument s
    else if (claimBus s).1 then acceptTransmit a length (claimBus s).2
    else .done .busy (claimBus s).2

/-- A result without a value: `Ok(())` or `Err(code)` (30_encoding R101). -/
def codeReply : Code → Reply
  | .ok => .ok
  | c => .err c

/-- `beginTransmit(buffer, length) -> Result<(), Busy|InvalidArgument>` (40 R113 to R115). -/
def execBeginTransmit (buffer : Option Nat) (length : Nat) (s : State) : Host.Outcome State Fault Refusal :=
  (beginTransmit buffer length s).finish codeReply

/-- `isBusy() -> bool` (40 R116). -/
def execIsBusy (s : State) : Host.Outcome State Fault Refusal := .next (s.addReply (.flag (busBusy s)))

/-- The body of the interrupt-context step (40 R117): the next byte, or completion. It never waits (log 30). -/
def irqBody (s : State) : State :=
  if s.txn.cursor < s.txn.length then
    let s := clockByte (fetchByte (txnAddress s) s).1 (fetchByte (txnAddress s) s).2
    s.setTxn { s.txn with cursor := s.txn.cursor + 1 }
  else
    ((s.setSpi { s.spi with txIE := false }).setTxn { s.txn with cursor := 0 }).setBus .idle

/-- `irqStep` (40 R117), taken as 60_exceptions R210 to R213 say. -/
def execIrqStep (s : State) : Host.Outcome State Fault Refusal := .next (takeInterrupt irqBody s)

/-- `frameBegin()` (40 R120). -/
def execFrameBegin (s : State) : Host.Outcome State Fault Refusal := (frameBegin s).finish fun _ => .returned

/-- `frameEnd()` (40 R120). -/
def execFrameEnd (s : State) : Host.Outcome State Fault Refusal := (frameEnd s).finish fun _ => .returned

end Sys2Proof.Machine
end

