-- ==== Sys2Proof/Machine/RegisterAccess.lean ====
section
/-! DEFINITION. The Register Access Protocol (41_register_access). -/

namespace Sys2Proof.Machine

/-- `selectBank(addr)` (41 R131). -/
def execSelectBank (a : RegisterAddress) (s : State) : Host.Outcome State Fault Refusal :=
  (selectBank a s).finish fun _ => .returned

/-- `readRegister(addr) -> byte` (41 R132): the byte received with the dummy. -/
def readRegister (a : RegisterAddress) (s : State) : Flow Byte :=
  registerCommand s.params.opcRcr a s.params.dummy s

/-- `readRegister(addr)` (41 R132). -/
def execReadRegister (a : RegisterAddress) (s : State) : Host.Outcome State Fault Refusal :=
  (readRegister a s).finish .byte

/-- `writeRegister(addr, value)` (41 R133), refused on the bank-select register before any byte moves (R139). -/
def writeRegister (a : RegisterAddress) (v : Byte) (s : State) : Flow Unit :=
  if namesBankRegister s.params a then .fault .forbiddenBankWrite
  else (registerCommand s.params.opcWcr a v s).bind fun _ s => .done () s

/-- `writeRegister(addr, value)` (41 R133). -/
def execWriteRegister (a : RegisterAddress) (v : Byte) (s : State) : Host.Outcome State Fault Refusal :=
  (writeRegister a v s).finish fun _ => .returned

/-- `setBits(addr, mask)` (41 R134), refused where it would touch the bank-select bits (R139). -/
def setBits (a : RegisterAddress) (mask : Byte) (s : State) : Flow Unit :=
  if touchesBankBits s a mask then .fault .forbiddenBankWrite
  else (registerCommand s.params.opcBfs a mask s).bind fun _ s => .done () s

/-- `setBits(addr, mask)` (41 R134). -/
def execSetBits (a : RegisterAddress) (mask : Byte) (s : State) : Host.Outcome State Fault Refusal :=
  (setBits a mask s).finish fun _ => .returned

/-- `clearBits(addr, mask)` (41 R135), refused where it would touch the bank-select bits (R139). -/
def clearBits (a : RegisterAddress) (mask : Byte) (s : State) : Flow Unit :=
  if touchesBankBits s a mask then .fault .forbiddenBankWrite
  else (registerCommand s.params.opcBfc a mask s).bind fun _ s => .done () s

/-- `clearBits(addr, mask)` (41 R135). -/
def execClearBits (a : RegisterAddress) (mask : Byte) (s : State) : Host.Outcome State Fault Refusal :=
  (clearBits a mask s).finish fun _ => .returned

/-- The ready poll of 41 R136: at most `n` reads of `A_ESTAT`, then Timeout. -/
def pollReady : Nat → State → Flow Code
  | 0, s => .done .timeout s
  | n + 1, s =>
    (readRegister s.params.aEstat s).bind fun v s =>
      if flagSet v s.params.mClkrdy then .done .ok s else pollReady n s

/-- `softReset()` (41 R136): SRC, `currentBank <- 0`, the bounded poll. -/
def softReset (s : State) : Flow Code :=
  (cmd1 s.params.opcSrc s).bind fun _ s => pollReady s.params.resetPollMax (s.setBank 0#2)

/-- `softReset() -> Result<(), Timeout>` (41 R136). -/
def execSoftReset (s : State) : Host.Outcome State Fault Refusal := (softReset s).finish codeReply

end Sys2Proof.Machine
end

