-- ==== Sys2Proof/Machine/BufferMemory.lean ====
section
/-! DEFINITION. The Buffer Memory Protocol (42_buffer_memory). -/

namespace Sys2Proof.Machine

/-- `writePacket(payload)` (42 R151): state check, then empty check, then one WBM frame. -/
def writePacket (payload : Option (List Byte)) (s : State) : Flow Code :=
  if s.ctl.state ≠ .ready then .done .notReady s
  else if payloadBytes payload = [] then .done .invalidArgument s
  else (framed (s.params.opcWbm :: payloadBytes payload) s).bind fun _ s => .done .ok s

/-- `writePacket(payload) -> Result<(), InvalidArgument|NotReady>` (42 R151). -/
def execWritePacket (payload : Option (List Byte)) (s : State) : Host.Outcome State Fault Refusal :=
  (writePacket payload s).finish codeReply

/-- The header of the pending packet: one RBM frame of HDR_BYTES dummies (42 R153, R154). -/
def readHeader (s : State) : Flow (List Byte) :=
  (framed (s.params.opcRbm :: List.replicate s.params.hdrBytes s.params.dummy) s).bind fun rs s => .done rs.tail s

/-- The payload of `len` bytes: one RBM frame, the first `n` bytes kept, the rest drained (42 R153, R155); no frame for
an empty one. -/
def readPayload (len n : Nat) (s : State) : Flow (List Byte) :=
  if len = 0 then .done [] s
  else
    (framed (s.params.opcRbm :: (List.replicate n s.params.dummy ++ List.replicate (len - n) s.params.dummy)) s).bind
      fun rs s => .done (rs.tail.take n) s

/-- The status of 42 R153: `Truncated` iff `L > capacity`. -/
def packetStatus (len capacity : Nat) : Code := if capacity < len then .truncated else .ok

/-- `readPacket(capacity)` (42 R153 to R155). -/
def readPacket (capacity : Nat) (s : State) : Flow (List Byte × Code) :=
  (readRegister s.params.aEpktcnt s).bind fun cnt s =>
    if cnt = 0#8 then .done ([], .ok) s
    else
      (readHeader s).bind fun h s =>
        (readPayload (headerLength s.params h) (min (headerLength s.params h) capacity) s).bind fun bytes s =>
          .done (bytes, packetStatus (headerLength s.params h) capacity) s

/-- Bytes with their status, as a result (30_encoding R101). -/
def packetReply (r : List Byte × Code) : Reply := .packet r.1 r.2

/-- `readPacket(capacity) -> (bytes, Ok|Truncated)` (42 R153). -/
def execReadPacket (capacity : Nat) (s : State) : Host.Outcome State Fault Refusal :=
  (readPacket capacity s).finish packetReply

end Sys2Proof.Machine
end

