-- ==== Sys2Proof/Machine/Supervisor.lean ====
section
/-! DEFINITION. The Packet / Link Supervisor (43_supervisor). -/

namespace Sys2Proof.Machine

/-- `writeRegister` for each pair in order (43 R162, steps 3 and 4). -/
def writeAll : List (RegisterAddress × Byte) → State → Flow Unit
  | [], s => .done () s
  | (a, v) :: rest, s => (writeRegister a v s).bind fun _ s => writeAll rest s

/-- Steps 3 to 5 of `initialize` and its success (43 R162). -/
def configure (mac : Six Byte) (s : State) : Flow (Code × InitStep) :=
  (writeAll s.params.rxcfg s).bind fun _ s =>
    (writeAll (s.params.aMaadr.toList.zip mac.toList) s).bind fun _ s =>
      (setBits s.params.aEcon1 s.params.mRxen s).bind fun _ s =>
        .done (.ok, .enableRx) (s.setCtlState .ready)

/-- `initialize(mac)` (43 R162): the state check, then steps 1 to 5; a failed step moves to Error. -/
def bringUp (mac : Option (Six Byte)) (s : State) : Flow (Code × InitStep) :=
  if acceptsInitialize s.ctl.state then
    match mac with
    | none => .done (.invalidArgument, .validate) (s.setCtlState .error)
    | some m =>
      (softReset (s.setCtl { s.ctl with state := .resetting, macAddress := m })).bind fun r s =>
        if r = .timeout then .done (.timeout, .reset) (s.setCtlState .error) else configure m s
  else .done (.notReady, .notStarted) s

/-- `Ok(())` or `Err(code, step)` (43 R162, R163). -/
def bringUpReply (r : Code × InitStep) : Reply := if r.1 = .ok then .ok else .errAt r.1 r.2

/-- `initialize(mac) -> Result<(), (error, step)>` (43 R162). -/
def execInitializeOp (mac : Option (Six Byte)) (s : State) : Host.Outcome State Fault Refusal :=
  (bringUp mac s).finish bringUpReply

/-- `send(payload)` (43 R164): state check, size check, staging, the transmit request, then TxBusy. -/
def send (payload : Option (List Byte)) (s : State) : Flow Code :=
  if s.ctl.state ≠ .ready then .done .notReady s
  else if s.params.maxFrame < (payloadBytes payload).length then .done .invalidArgument s
  else
    (writePacket payload s).bind fun r s =>
      if r ≠ .ok then .done r s
      else (setBits s.params.aEcon1 s.params.mTxrts s).bind fun _ s => .done .ok (s.setCtlState .txBusy)

/-- `send(payload) -> Result<(), NotReady|InvalidArgument>` (43 R164). -/
def execSend (payload : Option (List Byte)) (s : State) : Host.Outcome State Fault Refusal :=
  (send payload s).finish codeReply

/-- `receive(capacity) -> Result<(bytes, Ok|Truncated), NotReady>` (43 R169). -/
def execReceive (capacity : Nat) (s : State) : Host.Outcome State Fault Refusal :=
  if acceptsReceive s.ctl.state then (readPacket capacity s).finish packetReply
  else .next (s.addReply (.err .notReady))

/-- `pollLinkUp() -> Result<bool, NotReady>` (43 R168). -/
def execPollLinkUp (s : State) : Host.Outcome State Fault Refusal :=
  if s.ctl.state = .uninitialized then .next (s.addReply (.err .notReady))
  else (readRegister s.params.aPhystat s).finish fun v => .flag (flagSet v s.params.mLink)

/-- `supIsBusy() -> bool` (43 R170). -/
def execSupIsBusy (s : State) : Host.Outcome State Fault Refusal := .next (s.addReply (.flag (supervisorBusy s)))

/-- `txComplete()` (43 R166): ignored outside TxBusy. -/
def execTxComplete (s : State) : Host.Outcome State Fault Refusal :=
  .next ((if s.ctl.state = .txBusy then s.setCtlState .ready else s).addReply .returned)

/-- `hardwareFault()` (43 R167): ignored outside Ready and TxBusy. -/
def execHardwareFault (s : State) : Host.Outcome State Fault Refusal :=
  .next ((if acceptsHardwareFault s.ctl.state then s.setCtlState .error else s).addReply .returned)

end Sys2Proof.Machine
end

