-- ==== Sys2Proof/Machine/WireCommands.lean ====
section
/-! DEFINITION. The seven wire commands as the controller executes them, a whole frame at a time (44 R185 to R193). The
frame is logged in `W` with its answers, and the controller is the reference peer (log 17). -/

namespace Sys2Proof.Machine

/-- The events of one frame: `Begin`, each byte with its answer, `End` (30_encoding R92). -/
def frameEvents (bytes answers : List Byte) : List WireEvent :=
  WireEvent.begin :: (List.zipWith WireEvent.byte bytes answers ++ [WireEvent.finish])

/-- A frame has crossed the wire: the command byte `c`, then the data bytes with the answers given (a command byte is
answered `0x00`, 44 R193), and the peer stands as given, outside any frame. -/
def peerFrame (c : Byte) (data answers : List Byte) (after : Peer) (s : State) : Host.Outcome State Fault Refusal :=
  .next (((s.setPeer { after with frame := .outside }).logWire (frameEvents (c :: data) (0#8 :: answers))).draw
    (1 + data.length))

/-- Answers that carry no information (44 R193). -/
def zeroAnswers (data : List Byte) : List Byte := data.map fun _ => 0#8

/-- RCR's answers: `read(o)` for each data byte, a read of `A_ESTAT` counted as a poll (44 R185). -/
def rcrAnswers (p : Params) (o : Byte) : List Byte → Peer → List Byte × Peer
  | [], c => ([], c)
  | _ :: ds, c =>
    (c.readValue p o :: (rcrAnswers p o ds (c.countPoll p o)).1, (rcrAnswers p o ds (c.countPoll p o)).2)

/-- RBM's answers: the bytes at the read pointer, which advances (44 R189). -/
def rbmAnswers (p : Params) : List Byte → Peer → List Byte × Peer
  | [], c => ([], c)
  | _ :: ds, c => (c.bufHead :: (rbmAnswers p ds (c.advanceRead p)).1, (rbmAnswers p ds (c.advanceRead p)).2)

/-- RCR, read control register (44 R185). -/
def execRcr (o : Byte) (data : List Byte) (s : State) : Host.Outcome State Fault Refusal :=
  peerFrame (commandByte s.params.opcRcr o) data (rcrAnswers s.params o data s.peer).1
    (rcrAnswers s.params o data s.peer).2 s

/-- RBM, read buffer memory (44 R189). -/
def execRbm (data : List Byte) (s : State) : Host.Outcome State Fault Refusal :=
  peerFrame s.params.opcRbm data (rbmAnswers s.params data s.peer).1 (rbmAnswers s.params data s.peer).2 s

/-- WCR, write control register (44 R186): the first data byte is written, later ones are ignored. -/
def execWcr (o : Byte) (data : List Byte) (s : State) : Host.Outcome State Fault Refusal :=
  peerFrame (commandByte s.params.opcWcr o) data (zeroAnswers data)
    (match data with
      | [] => s.peer
      | d :: _ => s.peer.writeCell s.params o d) s

/-- WBM, write buffer memory (44 R190): each data byte is stored at the write pointer. -/
def execWbm (data : List Byte) (s : State) : Host.Outcome State Fault Refusal :=
  peerFrame s.params.opcWbm data (zeroAnswers data) (data.foldl (fun c d => c.stage s.params d) s.peer) s

/-- BFS, bit-field set (44 R187). -/
def execBfs (o : Byte) (data : List Byte) (s : State) : Host.Outcome State Fault Refusal :=
  peerFrame (commandByte s.params.opcBfs o) data (zeroAnswers data)
    (match data with
      | [] => s.peer
      | m :: _ => s.peer.setCell s.params (Config.freeBytes (s.draws + 1)) o m) s

/-- BFC, bit-field clear (44 R188). -/
def execBfc (o : Byte) (data : List Byte) (s : State) : Host.Outcome State Fault Refusal :=
  peerFrame (commandByte s.params.opcBfc o) data (zeroAnswers data)
    (match data with
      | [] => s.peer
      | m :: _ => s.peer.clearCell s.params o m) s

/-- SRC, soft reset, at the end of its frame (44 R191). -/
def execSrc (data : List Byte) (s : State) : Host.Outcome State Fault Refusal :=
  peerFrame s.params.opcSrc data (zeroAnswers data) (s.peer.softReset s.params) s

/-- A wire log split at `Begin` and `End` into the `mosi` bytes of its frames, from inside a frame with the bytes given, or
from outside (30_encoding R98). A byte outside any frame belongs to none, and a `Begin` inside a frame abandons it, as in
the controller (44 R184, log 18). -/
def splitFrames : Option (List Byte) → List WireEvent → List (List Byte)
  | _, [] => []
  | _, .begin :: w => splitFrames (some []) w
  | none, .byte _ _ :: w => splitFrames none w
  | none, .finish :: w => splitFrames none w
  | some f, .byte d _ :: w => splitFrames (some (f ++ [d])) w
  | some f, .finish :: w => f :: splitFrames none w

/-- A wire log read back into commands (30_encoding R98), one result for each frame. -/
def readLog (p : Params) (w : List WireEvent) : List (Except DecodeError Instr) :=
  (splitFrames none w).map (decodeFrame p)

/-- A frame that decodes to no command: the peer ignores it and answers `0x00` to each byte (44 R192); an empty frame is
its two delimiters (log 18). -/
def runUnknownFrame (bytes : List Byte) (s : State) : Host.Outcome State Fault Refusal :=
  .next (((s.setPeer { s.peer with frame := .outside }).logWire (frameEvents bytes (zeroAnswers bytes))).draw
    bytes.length)

end Sys2Proof.Machine
end

