-- ==== Sys2Proof/Machine/Dispatch.lean ====
section
/-! DEFINITION. One arm per instruction. -/

namespace Sys2Proof.Machine

def exec (i : Instr) (s : State) : Host.Outcome State Fault Refusal :=
  match i with
  | .rcr o data => Sys2Proof.Machine.execRcr o data s
  | .rbm data => Sys2Proof.Machine.execRbm data s
  | .wcr o data => Sys2Proof.Machine.execWcr o data s
  | .wbm data => Sys2Proof.Machine.execWbm data s
  | .bfs o data => Sys2Proof.Machine.execBfs o data s
  | .bfc o data => Sys2Proof.Machine.execBfc o data s
  | .src data => Sys2Proof.Machine.execSrc data s
  | .exchangeByte data => Sys2Proof.Machine.execExchangeByte data s
  | .beginTransmit buffer length => Sys2Proof.Machine.execBeginTransmit buffer length s
  | .isBusy => Sys2Proof.Machine.execIsBusy s
  | .irqStep => Sys2Proof.Machine.execIrqStep s
  | .frameBegin => Sys2Proof.Machine.execFrameBegin s
  | .frameEnd => Sys2Proof.Machine.execFrameEnd s
  | .selectBank addr => Sys2Proof.Machine.execSelectBank addr s
  | .readRegister addr => Sys2Proof.Machine.execReadRegister addr s
  | .writeRegister addr value => Sys2Proof.Machine.execWriteRegister addr value s
  | .setBits addr mask => Sys2Proof.Machine.execSetBits addr mask s
  | .clearBits addr mask => Sys2Proof.Machine.execClearBits addr mask s
  | .softReset => Sys2Proof.Machine.execSoftReset s
  | .writePacket payload => Sys2Proof.Machine.execWritePacket payload s
  | .readPacket capacity => Sys2Proof.Machine.execReadPacket capacity s
  | .initializeOp mac => Sys2Proof.Machine.execInitializeOp mac s
  | .send payload => Sys2Proof.Machine.execSend payload s
  | .receive capacity => Sys2Proof.Machine.execReceive capacity s
  | .pollLinkUp => Sys2Proof.Machine.execPollLinkUp s
  | .supIsBusy => Sys2Proof.Machine.execSupIsBusy s
  | .txComplete => Sys2Proof.Machine.execTxComplete s
  | .hardwareFault => Sys2Proof.Machine.execHardwareFault s

end Sys2Proof.Machine
end

