-- ==== Sys2Proof/Machine/Sequencer.lean ====
section
/-! DEFINITION. The step relations of the agents (00_scope R7) put in one order: the agenda (log 1). -/

namespace Sys2Proof.Machine

/-- A decoded instruction runs in the context that may run it (60_exceptions R216: "a model refuses" an FG operation
called from IRQ), with operands in range. -/
def runInstr (who : Agent) (i : Instr) (s : State) : Host.Outcome State Fault Refusal :=
  if who ≠ i.agent then .refused .wrongContext
  else if i.operandsOk s.params then exec i s
  else .refused .illFormed

/-- An agent runs what is encoded: the decoded instruction; a frame of no known command crosses the wire all the same
(44 R192); a call that does not decode is refused (30_encoding R99). -/
def runEncoded (who : Agent) (w : Encoded) (s : State) : Host.Outcome State Fault Refusal :=
  match decode s.params w with
  | .ok i => runInstr who i s
  | .error e =>
    match w with
    | .frame bytes => if who = .peer then runUnknownFrame bytes s else .refused .wrongContext
    | .call _ _ => .refused (.undecodable e)

/-- FG is handed the oldest pending notification (60_exceptions R211); without one nothing happens. -/
def deliverNotice (s : State) : Host.Outcome State Fault Refusal :=
  match s.notices with
  | [] => .next s
  | .txComplete :: rest => exec .txComplete (s.setNotices rest)
  | .hardwareFault :: rest => exec .hardwareFault (s.setNotices rest)

/-- One entry of the agenda. -/
def runItem (it : Item) (s : State) : Host.Outcome State Fault Refusal :=
  match it with
  | .instr who w => runEncoded who w s
  | .env e => .next (applyEvent s e)
  | .deliver => deliverNotice s

/-- The next step: none for an FG that is stuck in an `Xchg` (40 R112, log 3); idle with nothing on the agenda (log 13);
else the first entry of the agenda. -/
def runNext (s : State) : Host.Outcome State Fault Refusal :=
  match s.fg with
  | .hung => .next s
  | .running =>
    match s.agenda with
    | [] => .next s
    | it :: rest => runItem it (s.setAgenda rest)

/-- `w` at the head of the agenda, for the agent that executes it, with FG free to go on. -/
def placeNext (w : Encoded) (s : State) : State :=
  (s.setFg .running).setAgenda (.instr w.agent w :: s.agenda)

end Sys2Proof.Machine
end

