-- ==== Sys2Proof/Machine/Step.lean ====
section
/-! DEFINITION. One step of the machine, and an instruction placed where the next step takes it (log 13). -/

namespace Sys2Proof.Machine

/-- One step: next, fault or refusal. -/
def step (s : State) : Host.Outcome State Fault Refusal := runNext s

/-- The instruction of a table word placed at the head of the agenda, so that the next step runs it. -/
def State.withFetchWord (s : State) (nbits w : Nat) : State := placeNext (tableLayout nbits w) s

end Sys2Proof.Machine
end

