-- ==== Sys2Proof/Safety.lean ====
section
/-! DEFINITION. The terms claims are stated in: when a run has ended well (70 R252), the premise that the bus answers
(70 R251), what an operation on the wire keeps, the frames an operation puts on the wire (30_encoding R103), and the
invariants (10_state R27, R31, the canonical form of memory). -/

namespace Sys2Proof.Machine

/-- 70 R252: the last operation has returned, `BusState = Idle` and `TxIE = 0`. -/
def EndedWell (s : State) : Prop := s.fg = .running ∧ s.bus = .idle ∧ s.spi.txIE = false

/-- Whether the bus answers after ENV actions, from whether it answers now (40 R112). -/
def busUpAfter (up : Bool) : List EnvEvent → Bool
  | [] => up
  | .busStuck :: es => busUpAfter false es
  | .busResponds :: es => busUpAfter true es
  | .byteReady :: es => busUpAfter up es
  | .peerDeliver _ :: es => busUpAfter up es
  | .peerTxDone :: es => busUpAfter up es
  | .setLink _ :: es => busUpAfter up es
  | .setReadyDelay _ :: es => busUpAfter up es
  | .hostStore _ _ :: es => busUpAfter up es
  | .hostFree _ _ :: es => busUpAfter up es
  | .notify _ :: es => busUpAfter up es

/-- The premise `BusResponsive` of 40 R112 and 70 R251: the bus answers every exchange eventually, that is, whatever ENV
still does during operations, the bus answers in the end. -/
def BusResponsive (s : State) : Prop := busUpAfter s.busUp s.plan.flatten = true

/-- FG may use the wire: no transmit is in flight (70 R241) and the bus answers (70 R251). -/
def WireFree (s : State) : Prop := s.bus ≠ .txBusy ∧ BusResponsive s

/-- ENV does nothing during operations, and the bus answers. -/
def Quiet (s : State) : Prop := s.plan = [] ∧ s.busUp = true

/-- What an operation that only uses the wire keeps: all of the block but `Ctl` and the results, which statements name
apart; and, where ENV does nothing meanwhile, host memory (20_memory R62), the notifications and the bus. -/
structure Kept (s t : State) : Prop where
  params : t.params = s.params
  bus : t.bus = s.bus
  txn : t.txn = s.txn
  txIE : t.spi.txIE = s.spi.txIE
  irqMasked : t.irqMasked = s.irqMasked
  fg : t.fg = s.fg
  agenda : t.agenda = s.agenda
  wireEnd : t.wireEnd = s.wireEnd
  env : s.plan = [] →
    t.hostMem = s.hostMem ∧ t.notices = s.notices ∧ t.busUp = s.busUp ∧ t.plan = []

/-- The events of frames in order, each with its answers. -/
def framesEvents : List (List Byte) → List (List Byte) → List WireEvent
  | f :: fs, a :: as => frameEvents f a ++ framesEvents fs as
  | _, _ => []

/-- One answer for each byte of each frame. -/
def Answers (frames answers : List (List Byte)) : Prop := answers.map List.length = frames.map List.length

/-- The frames of the bank-select sequence for an address, none if it is common or its bank is selected (41 R131). -/
def bankFrames (p : Params) (cur : BitVec 2) : RegisterAddress → List (List Byte)
  | .common _ => []
  | .banked b _ =>
    if b = cur then []
    else [[commandByte p.opcBfc p.aEcon1.off, p.mBsel], [commandByte p.opcBfs p.aEcon1.off, bankMask b]]

/-- `Ctl.currentBank` after the bank-select sequence for an address (41 R131). -/
def bankAfter (cur : BitVec 2) : RegisterAddress → BitVec 2
  | .common _ => cur
  | .banked b _ => b

/-- The frames of a register write, bank-select included (41 R133). -/
def writeFrames (p : Params) (cur : BitVec 2) (a : RegisterAddress) (v : Byte) : List (List Byte) :=
  bankFrames p cur a ++ [[commandByte p.opcWcr a.off, v]]

/-- The frames of register writes in order, from a selected bank (43 R162). -/
def writesFrames (p : Params) : BitVec 2 → List (RegisterAddress × Byte) → List (List Byte)
  | _, [] => []
  | cur, (a, v) :: rest => writeFrames p cur a v ++ writesFrames p (bankAfter cur a) rest

/-- The bank selected after register writes. -/
def bankAfterWrites : BitVec 2 → List (RegisterAddress × Byte) → BitVec 2
  | cur, [] => cur
  | cur, (a, _) :: rest => bankAfterWrites (bankAfter cur a) rest

/-- The writes of `initialize`, in order (43 R162, steps 3 and 4). -/
def initWrites (p : Params) (mac : Six Byte) : List (RegisterAddress × Byte) :=
  p.rxcfg ++ p.aMaadr.toList.zip mac.toList

/-- The frame of one poll of the ready flag (41 R136). -/
def pollFrame (p : Params) : List Byte := [commandByte p.opcRcr p.aEstat.off, p.dummy]

/-- Every memory is in canonical form. -/
def MemoryWf (s : State) : Prop :=
  Memory.wf .host s.hostMem = true ∧ Memory.wf .controller s.peer.cells = true
    ∧ Memory.wf .controller s.peer.buf = true

/-- I-BE1 to I-BE3 of 10_state R27. In I-BE2 the cursor may still be 0 while FG is stuck in the exchange of byte 0, inside
`beginTransmit` (40 R115, R112). -/
structure BusInv (s : State) : Prop where
  be1 : s.spi.txIE = true → s.bus = .txBusy
  be2 : s.bus = .txBusy →
    s.txn.buffer ≠ none ∧ 1 ≤ s.txn.length ∧ s.txn.cursor ≤ s.txn.length ∧ (s.fg = .running → 1 ≤ s.txn.cursor)
  be3 : s.bus = .idle → s.spi.txIE = false ∧ s.txn.cursor = 0
  unmasked : s.irqMasked = false

/-- The reference peer's pointers lie in its buffer memory (44 R182, R183). -/
structure PeerInv (s : State) : Prop where
  rdpt : s.peer.rdpt < s.params.bufSize
  wrpt : s.peer.wrpt < s.params.bufSize
  rxw : s.peer.rxw < s.params.bufSize

/-- The invariant every step keeps. -/
structure Inv (s : State) : Prop where
  params : s.params.ok = true
  memory : MemoryWf s
  bus : BusInv s
  peer : PeerInv s

/-- I-RAP1 of 10_state R31 with the reference peer: the cached bank is the selected one. -/
def BankCoherent (s : State) : Prop := s.ctl.currentBank = s.peer.bank s.params

/-- A register of the reference peer that is plain storage under a bank-sensitive address (41 R138): a banked cell that
is none of the peer's own. -/
def PlainRegister (p : Params) (b : BitVec 2) (o : Byte) : Prop :=
  o.toNat < p.commonLo ∧ o ≠ p.aEcon1.off ∧ reaches p b o p.aEpktcnt = false ∧ reaches p b o p.aEstat = false
    ∧ reaches p b o p.aPhystat = false

/-- Operations called one after the other, each from the state the one before left. -/
def execAll : List Instr → State → Host.Outcome State Fault Refusal
  | [], s => .next s
  | i :: is, s =>
    match exec i s with
    | .next t => execAll is t
    | .fault e => .fault e
    | .refused r => .refused r

/-- `n` rounds of the interrupt: ENV raises a byte-ready event, `irqStep` runs (70 R251, ByteReadyFair). -/
def irqRounds : Nat → State → Host.Outcome State Fault Refusal
  | 0, s => .next s
  | n + 1, s =>
    match exec .irqStep (applyEvent s .byteReady) with
    | .next t => irqRounds n t
    | .fault e => .fault e
    | .refused r => .refused r

/-- What a wire command leaves alone: all but the peer, the wire log and the counter of free values. -/
structure OnlyPeerAndWire (s t : State) : Prop where
  params : t.params = s.params
  bus : t.bus = s.bus
  txn : t.txn = s.txn
  spi : t.spi = s.spi
  irqMasked : t.irqMasked = s.irqMasked
  ctl : t.ctl = s.ctl
  fg : t.fg = s.fg
  replies : t.replies = s.replies
  hostMem : t.hostMem = s.hostMem
  wireEnd : t.wireEnd = s.wireEnd
  answers : t.answers = s.answers
  busUp : t.busUp = s.busUp
  plan : t.plan = s.plan
  notices : t.notices = s.notices
  agenda : t.agenda = s.agenda

/-- What ENV's fixture inputs and a command on the registers leave of the peer: all but the cells, the packets sent, the
polls and the place in the frame. -/
structure SameBuffers (c d : Peer) : Prop where
  buf : d.buf = c.buf
  rdpt : d.rdpt = c.rdpt
  wrpt : d.wrpt = c.wrpt
  rxw : d.rxw = c.rxw
  pend : d.pend = c.pend
  eaten : d.eaten = c.eaten
  wasReset : d.wasReset = c.wasReset
  readyDelay : d.readyDelay = c.readyDelay
  linkUp : d.linkUp = c.linkUp

/-- What a command on the buffer memory leaves of the peer: the registers and what belongs to them. -/
structure SameRegisters (c d : Peer) : Prop where
  cells : d.cells = c.cells
  rxw : d.rxw = c.rxw
  sent : d.sent = c.sent
  polls : d.polls = c.polls
  wasReset : d.wasReset = c.wasReset
  readyDelay : d.readyDelay = c.readyDelay
  linkUp : d.linkUp = c.linkUp

/-- A byte of the peer's buffer memory (44 R182). -/
def Peer.bufByte (c : Peer) (a : Nat) : Byte := (Memory.read .controller c.buf a).getD 0#8

/-- The register map of the reference peer fits the parameters (44 R181, as under P0): `A_ECON1` lies in the common area,
shares its offset with no other register the block uses, and the packet count is neither the ready flag's nor the link
bit's register. -/
structure PeerFits (p : Params) : Prop where
  econ1Common : p.commonLo ≤ p.aEcon1.off.toNat
  econ1Apart : ∀ a ∈ [p.aEstat, p.aEpktcnt, p.aPhystat] ++ p.aMaadr.toList ++ p.rxcfg.map (·.1), a.off ≠ p.aEcon1.off
  countApart : ∀ b : BitVec 2, reaches p b p.aEpktcnt.off p.aEpktcnt = true →
    reaches p b p.aEpktcnt.off p.aEstat = false ∧ reaches p b p.aEpktcnt.off p.aPhystat = false

/-- An address of another register than `Banked(b, o)`: another offset, or another bank. -/
def OtherRegister (b : BitVec 2) (o : Byte) (a : RegisterAddress) : Prop :=
  a.off ≠ o ∨ ∃ b', a = .banked b' o ∧ b' ≠ b

/-- The "unrelated register accesses" of 41 R138 to the register `Banked(b, o)`: any read or bank select; a write or a
bit-field command on another register that R139 does not refuse. -/
def UnrelatedAccess (p : Params) (b : BitVec 2) (o : Byte) : Instr → Prop
  | .selectBank a => a.ok p = true
  | .readRegister a => a.ok p = true
  | .writeRegister a _ => a.ok p = true ∧ OtherRegister b o a ∧ namesBankRegister p a = false
  | .setBits a m | .clearBits a m =>
    a.ok p = true ∧ OtherRegister b o a ∧ (namesBankRegister p a = false ∨ m &&& p.mBsel = 0#8)
  | _ => False

/-- `pend` and `eaten` after `k` bytes streamed out (44 R183, R189): each packet goes with its last byte, and the bytes
after it are the next one's; bytes with nothing pending are nobody's. -/
def packetsAfter : Nat → Nat → List Nat → List Nat × Nat
  | _, eaten, [] => ([], eaten)
  | k, eaten, n :: rest => if eaten + k < n then (n :: rest, eaten + k) else packetsAfter (eaten + k - n) 0 rest

/-- `n` steps. -/
def runSteps : Nat → State → Host.Outcome State Fault Refusal
  | 0, s => .next s
  | n + 1, s =>
    match step s with
    | .next t => runSteps n t
    | .fault e => .fault e
    | .refused r => .refused r

/-- `t` is reached from `s` in some number of steps. -/
def Later (s t : State) : Prop := ∃ n, runSteps n s = .next t

/-- The premise `ByteReadyFair` of 70 R251: while TxIE = 1, a byte-ready event is eventually raised (it is pending and not
masked) and `irqStep` is eventually taken. -/
def ByteReadyFair (s : State) : Prop :=
  ∀ t, Later s t → t.spi.txIE = true →
    ∃ u rest, Later t u ∧ irqEnabled u = true ∧ u.fg = .running
      ∧ u.agenda = .instr .irq (encode u.params .irqStep) :: rest

/-- FG is about to be handed `txComplete()`: the caller makes the call, or the notification raised is delivered. -/
def HandsOverTxComplete (s : State) : Prop :=
  s.fg = .running ∧ ∃ rest, s.agenda = .instr .fg (encode s.params .txComplete) :: rest
    ∨ (s.agenda = .deliver :: rest ∧ ∃ ns, s.notices = .txComplete :: ns)

/-- The premise `TxCompleteFair` of 70 R251: ENV eventually delivers `txComplete()` in `Ctl.TxBusy`, unless a hardware fault
has ended that state before. -/
def TxCompleteFair (s : State) : Prop :=
  ∀ t, Later s t → t.ctl.state = .txBusy → ∃ u, Later t u ∧ (u.ctl.state ≠ .txBusy ∨ HandsOverTxComplete u)

/-- The transitions of `Ctl.state` (43 R160), `initialize` taken whole. -/
inductive CtlTransition : CtlState → CtlState → Prop where
  | stay (c : CtlState) : CtlTransition c c
  | initialized {c : CtlState} : acceptsInitialize c = true → CtlTransition c .ready
  | initializeFailed {c : CtlState} : acceptsInitialize c = true → CtlTransition c .error
  | initializeStuck {c : CtlState} : acceptsInitialize c = true → CtlTransition c .resetting
  | sent : CtlTransition .ready .txBusy
  | completed : CtlTransition .txBusy .ready
  | faulted {c : CtlState} : acceptsHardwareFault c = true → CtlTransition c .error

end Sys2Proof.Machine
end

