-- ==== Sys2Proof/Certificates/Slice0/Obligations.lean ====
section
/-! DEFINITION. The statements for the provers. Each docstring names the rules of spec/ it formalises, or says what it
rests on; a statement about every state is a statement about every parameter set, every peer and every behaviour of ENV,
unless a hypothesis says otherwise. -/

open Sys2Proof Sys2Proof.Machine

/-! ### Reset and the invariants -/

/-- 10_state R41: the block, the wire log and the interrupt after reset. What R41 calls unspecified is not stated. -/
def Obligations.ResetLeavesTheBlockAsR41Says : Prop :=
  State.reset.bus = .idle ∧ State.reset.txn = { buffer := none, length := 0, cursor := 0 }
    ∧ State.reset.spi.txIE = false ∧ State.reset.ctl.state = .uninitialized ∧ State.reset.ctl.currentBank = 0#2
    ∧ State.reset.spi.byteReady = false ∧ State.reset.irqMasked = false ∧ State.reset.wire = []
    ∧ State.reset.fg = .running ∧ irqEnabled State.reset = false

/-- The invariant of 10_state R27, the canonical memories and the pointers of 44 R182, R183 hold at reset, and a run that
stops there has ended well (70 R252). -/
def Obligations.InvHoldsAtReset : Prop := Inv State.reset ∧ EndedWell State.reset

/-- Every step keeps the invariant: I-BE1 to I-BE3 (10_state R27), the interrupt unmasked outside a critical section
(20_memory R74), the memories in canonical form, the peer's pointers in its buffer memory (44 R182, R183). -/
def Obligations.StepKeepsInv : Prop := ∀ s t : State, Inv s → step s = .next t → Inv t

/-- 10_state R40, log 4: the parameter set is fixed for the machine; that who answers on the wire is fixed too is the
model's choice (log 8). -/
def Obligations.StepNeverChangesTheParameters : Prop :=
  ∀ s t : State, step s = .next t → t.params = s.params ∧ t.wireEnd = s.wireEnd

/-! ### Encoding -/

/-- 30_encoding R91 to R95, R98 to R100: every well-formed instruction is read back from its encoding, with every
operand, under every parameter set without overlapping opcodes. -/
def Obligations.DecodeOfEncodeIsTheInstruction : Prop :=
  ∀ (p : Params) (i : Instr), p.ok = true → p.noOverlap = true → i.wf p = true → decode p (encode p i) = .ok i

/-- The other way: what decodes is the encoding of what it decodes to, under any parameters. -/
def Obligations.EncodeOfDecodedIsTheWord : Prop :=
  ∀ (p : Params) (w : Encoded) (i : Instr), decode p w = .ok i → encode p i = w ∧ w.agent = i.agent

/-- 30_encoding R98: the order of the decoder: the three full bytes first, then the four masked forms in the order RCR, WCR,
BFS, BFC (which decides where two bases are equal), else unknown; a wire log is split into its frames, and each is read
so. -/
def Obligations.FullCommandBytesAreReadFirst : Prop :=
  (∀ (p : Params) (frames answers : List (List Byte)), Answers frames answers →
    readLog p (framesEvents frames answers) = frames.map fun f => decode p (.frame f))
  ∧ ∀ (p : Params) (c : Byte) (data : List Byte), p.ok = true →
    (c = p.opcSrc → decode p (.frame (c :: data)) = .ok (.src data))
    ∧ (c = p.opcRbm → decode p (.frame (c :: data)) = .ok (.rbm data))
    ∧ (c = p.opcWbm → decode p (.frame (c :: data)) = .ok (.wbm data))
    ∧ (c ∉ p.fullBytes → c &&& p.opMask ∉ p.bases → decode p (.frame (c :: data)) = .error .unknownCommand)
    ∧ (c ∉ p.fullBytes → c &&& p.opMask = p.opcRcr → decode p (.frame (c :: data)) = .ok (.rcr (c &&& p.offMask) data))
    ∧ (c ∉ p.fullBytes → c &&& p.opMask ≠ p.opcRcr → c &&& p.opMask = p.opcWcr →
      decode p (.frame (c :: data)) = .ok (.wcr (c &&& p.offMask) data))
    ∧ (c ∉ p.fullBytes → c &&& p.opMask ∉ [p.opcRcr, p.opcWcr] → c &&& p.opMask = p.opcBfs →
      decode p (.frame (c :: data)) = .ok (.bfs (c &&& p.offMask) data))
    ∧ (c ∉ p.fullBytes → c &&& p.opMask ∉ [p.opcRcr, p.opcWcr, p.opcBfs] → c &&& p.opMask = p.opcBfc →
      decode p (.frame (c :: data)) = .ok (.bfc (c &&& p.offMask) data))

/-- 30_encoding R96: under P0 the reserved command bytes decode to no command: `op = 110`; `op = 001` or `011` with
`arg ≠ 11010`; `op = 111` with `arg ≠ 11111`. -/
def Obligations.ReservedCommandBytesAreRefused : Prop :=
  ∀ (c : Byte) (data : List Byte),
    (c &&& 0xE0#8 = 0xC0#8 ∨ ((c &&& 0xE0#8 = 0x20#8 ∨ c &&& 0xE0#8 = 0x60#8) ∧ c &&& 0x1F#8 ≠ 0x1A#8)
        ∨ (c &&& 0xE0#8 = 0xE0#8 ∧ c &&& 0x1F#8 ≠ 0x1F#8)) ↔
      decode Params.p0 (.frame (c :: data)) = .error .unknownCommand

/-- 30_encoding R93, R99: words written out from the spec's encodings decode to the instructions they stand for
(V-DEC1 to V-DEC13). -/
def Obligations.WordsOfTheSpecDecode : Prop :=
  decode Params.p0 (.frame [0b00011001#8, 0x00#8]) = .ok (.rcr 0x19#8 [0x00#8])
    ∧ decode Params.p0 (.frame [0b00111010#8, 0x00#8]) = .ok (.rbm [0x00#8])
    ∧ decode Params.p0 (.frame [0b01000100#8, 0x54#8]) = .ok (.wcr 0x04#8 [0x54#8])
    ∧ decode Params.p0 (.frame [0b01111010#8, 0xDE#8, 0xAD#8]) = .ok (.wbm [0xDE#8, 0xAD#8])
    ∧ decode Params.p0 (.frame [0b10011111#8, 0x04#8]) = .ok (.bfs 0x1F#8 [0x04#8])
    ∧ decode Params.p0 (.frame [0b10111111#8, 0x03#8]) = .ok (.bfc 0x1F#8 [0x03#8])
    ∧ decode Params.p0 (.frame [0b11111111#8]) = .ok (.src [])
    ∧ decode Params.p0 (.call 0b00000#5 [.byte 0x5A#8]) = .ok (.exchangeByte 0x5A#8)
    ∧ decode Params.p0 (.call 0b10100#5 []) = .ok .hardwareFault

/-- 30_encoding R99: the assigned selectors are 0x00 to 0x14, each with operands of its form; the others are refused. -/
def Obligations.UnassignedSelectorsAreRefused : Prop :=
  ∀ (p : Params) (sel : BitVec 5),
    (0x14 < sel.toNat → ∀ args, decode p (.call sel args) = .error .unassignedSelector)
    ∧ (sel.toNat ≤ 0x14 → ∃ args i, decode p (.call sel args) = .ok i ∧ i.agent = if sel = 0x03#5 then .irq else .fg)

/-! ### The step -/

/-- When the entry at the head of the agenda decodes to an instruction with operands in range, for the agent that may run
it, the step is `exec` of that instruction, the entry taken off the agenda (log 1, log 13). -/
def Obligations.StepRunsTheDecodedInstruction : Prop :=
  ∀ (s : State) (w : Encoded) (i : Instr) (rest : List Item), s.fg = .running →
    s.agenda = .instr i.agent w :: rest → decode s.params w = .ok i → i.wf s.params = true →
    step s = exec i (s.setAgenda rest)

/-- What the step does with the other entries. The model's choices: it does nothing for an FG that is stuck (log 3) and on an
empty agenda (log 13), and a call whose operands are not of the forms of its selector is refused (log 22). The spec's: an
unassigned selector is refused (30_encoding R99), and an operation in a context that may not call it (60_exceptions R216).
Operands out of the ranges of 10_state R30 and 30_encoding R100, and a frame of no known command that is given to another
agent than PEER, are refused too (log 34). -/
def Obligations.StepIdlesOrRefuses : Prop :=
  ∀ s : State,
    (s.fg = .hung → step s = .next s)
    ∧ (s.agenda = [] → step s = .next s)
    ∧ (∀ who w i rest, s.fg = .running → s.agenda = .instr who w :: rest → decode s.params w = .ok i →
        who ≠ i.agent → step s = .refused .wrongContext)
    ∧ (∀ who sel args e rest, s.fg = .running → s.agenda = .instr who (.call sel args) :: rest →
        decode s.params (.call sel args) = .error e → step s = .refused (.undecodable e))
    ∧ (∀ w i rest, s.fg = .running → s.agenda = .instr i.agent w :: rest → decode s.params w = .ok i →
        i.operandsOk s.params = false → step s = .refused .illFormed)
    ∧ (∀ who bytes e rest, s.fg = .running → s.agenda = .instr who (.frame bytes) :: rest → who ≠ .peer →
        decode s.params (.frame bytes) = .error e → step s = .refused .wrongContext)

/-- 44 R192: a frame whose command byte is unknown is ignored whole and answered `0x00` to each byte. -/
def Obligations.UnknownFrameChangesNothing : Prop :=
  ∀ (s : State) (c : Byte) (data : List Byte) (rest : List Item), s.fg = .running →
    s.agenda = .instr .peer (.frame (c :: data)) :: rest →
    decode s.params (.frame (c :: data)) = .error .unknownCommand →
    ∃ t, step s = .next t ∧ t.peer = { s.peer with frame := .outside }
      ∧ t.wire = s.wire ++ frameEvents (c :: data) ((c :: data).map fun _ => 0#8)
      ∧ OnlyPeerAndWire (s.setAgenda rest) t

/-- 43 R166, R167, 60_exceptions R211: a raised notification reaches FG as the operation of its name. That it waits in a
queue until then, and that the oldest is handed over first, is the model's choice (log 16). -/
def Obligations.NotificationsAreDeliveredInForeground : Prop :=
  ∀ (s : State) (n : Notice) (rest : List Item) (ns : List Notice), s.fg = .running →
    (s.agenda = .env (.notify n) :: rest → ∃ t, step s = .next t ∧ t.notices = s.notices ++ [n] ∧ t.ctl = s.ctl)
    ∧ (s.agenda = .deliver :: rest → s.notices = n :: ns →
        step s = exec (match n with | .txComplete => .txComplete | .hardwareFault => .hardwareFault)
          ((s.setAgenda rest).setNotices ns))

/-! ### The Bus Engine -/

/-- 40 R111: `exchangeByte` faults during a transmit; from every other BusState, with a bus that answers (40 R112), one
`Byte(data, r)` goes on the wire and `r` is returned, nothing else of the block changed; on a bus that never answers the
call never returns. -/
def Obligations.ExchangeByteExchangesOneByte : Prop :=
  ∀ (d : Byte) (s : State),
    (s.bus = .txBusy → exec (.exchangeByte d) s = .fault .busInterleave)
    ∧ (WireFree s → ∃ r t, exec (.exchangeByte d) s = .next t ∧ t.wire = s.wire ++ [.byte d r]
        ∧ t.replies = s.replies ++ [.byte r] ∧ t.ctl = s.ctl ∧ Kept s t ∧ BusResponsive t)
    ∧ (s.bus ≠ .txBusy → s.busUp = false → (∀ es ∈ s.plan, EnvEvent.busResponds ∉ es) →
        ∃ t, exec (.exchangeByte d) s = .next t ∧ t.fg = .hung ∧ t.wire = s.wire ∧ t.replies = s.replies
          ∧ t.ctl = s.ctl ∧ t.bus = s.bus)

/-- 10_state R33, 40 R112: after `exchangeByte` the data register holds the byte sent on its write side and the byte
received on its read side; that BYTE_READY and RX_AVAIL are then clear is the model's choice (log 15, log 25). With an
arbitrary peer on a quiet bus the byte received is its next answer (log 8). -/
def Obligations.ExchangedByteStandsInTheSpiRegisters : Prop :=
  ∀ (d : Byte) (s : State), WireFree s → ∃ r t, exec (.exchangeByte d) s = .next t
    ∧ t.replies = s.replies ++ [.byte r]
    ∧ t.spi = { dataOut := d, dataIn := r, byteReady := false, rxAvail := false, txIE := s.spi.txIE }
    ∧ ∀ a as, Quiet s → s.wireEnd = .arbitrary → s.answers = a :: as → r = a ∧ t.answers = as ∧ t.peer = s.peer

/-- 40 R120: the delimiters fault during a transmit; else `W` gains `Begin` or `End` and nothing else of the block
changes. They wait for nothing. -/
def Obligations.FrameDelimitersOnlyShapeTheWire : Prop :=
  ∀ s : State,
    (s.bus = .txBusy →
      exec .frameBegin s = .fault .busInterleave ∧ exec .frameEnd s = .fault .busInterleave)
    ∧ (s.bus ≠ .txBusy →
      (∃ t, exec .frameBegin s = .next t ∧ t.wire = s.wire ++ [.begin] ∧ t.replies = s.replies ++ [.returned]
        ∧ t.ctl = s.ctl ∧ t.spi = s.spi ∧ t.hostMem = s.hostMem ∧ Kept s t)
      ∧ ∃ t, exec .frameEnd s = .next t ∧ t.wire = s.wire ++ [.finish] ∧ t.replies = s.replies ++ [.returned]
        ∧ t.ctl = s.ctl ∧ t.spi = s.spi ∧ t.hostMem = s.hostMem ∧ Kept s t)

/-- 40 R113, 60_exceptions R206: a null buffer or length 0 is `InvalidArgument`, before the busy check, and changes
nothing. -/
def Obligations.BeginTransmitChecksItsArgumentFirst : Prop :=
  ∀ (b : Option Nat) (n : Nat) (s : State), (b = none ∨ n = 0) →
    exec (.beginTransmit b n) s = .next (s.addReply (.err .invalidArgument))

/-- 40 R114: from any BusState but Idle a valid request is `Busy`; the transaction in flight, TxIE and `W` stay, and the
critical section is left unmasked (20_memory R74). From Idle the claim is made: BusState is TxBusy, also if FG then gets
stuck. -/
def Obligations.BeginTransmitClaimsTheBusOrReportsBusy : Prop :=
  ∀ (a n : Nat) (s : State), n ≠ 0 →
    (s.bus ≠ .idle → exec (.beginTransmit (some a) n) s = .next ((s.setMask false).addReply (.err .busy)))
    ∧ (s.bus = .idle → ∃ t, exec (.beginTransmit (some a) n) s = .next t ∧ t.bus = .txBusy ∧ t.irqMasked = false)

/-- 40 R115, 20_memory R61: an accepted request records the transaction, clocks out byte 0 as host memory holds it, sets
the cursor to 1 and enables the notification; the received byte is dropped and no frame event is emitted. If the bus never
answers, FG stays in that exchange with the cursor at 0. Two clauses are the model's reading: no event is pending afterwards
(log 15), and byte 0 is fetched before the wait for the bus, whatever `plan` stores meanwhile (log 31). -/
def Obligations.AcceptedTransmitSendsByteZero : Prop :=
  ∀ (a n : Nat) (s : State), n ≠ 0 → s.bus = .idle →
    (BusResponsive s → ∃ b r t, exec (.beginTransmit (some a) n) s = .next t
        ∧ (∀ v, Memory.read .host s.hostMem a = some v → b = v)
        ∧ t.bus = .txBusy ∧ t.txn = { buffer := some a, length := n, cursor := 1 } ∧ t.spi.txIE = true
        ∧ t.spi.byteReady = false ∧ t.wire = s.wire ++ [.byte b r] ∧ t.replies = s.replies ++ [.ok]
        ∧ t.ctl = s.ctl ∧ t.fg = s.fg ∧ t.params = s.params ∧ t.agenda = s.agenda ∧ t.irqMasked = false
        ∧ (s.plan = [] → t.hostMem = s.hostMem ∧ t.notices = s.notices))
    ∧ (s.busUp = false → (∀ es ∈ s.plan, EnvEvent.busResponds ∉ es) →
        ∃ t, exec (.beginTransmit (some a) n) s = .next t ∧ t.fg = .hung ∧ t.bus = .txBusy
          ∧ t.txn = { buffer := some a, length := n, cursor := 0 } ∧ t.wire = s.wire ∧ t.replies = s.replies)

/-- 40 R116: `isBusy` returns `BusState ≠ Idle` and changes nothing; it is false exactly if a valid `beginTransmit` made
at once, on a bus that answers, is accepted. -/
def Obligations.IsBusyForetellsAcceptance : Prop :=
  ∀ s : State, ∃ f, exec .isBusy s = .next (s.addReply (.flag f)) ∧ (f = false ↔ s.bus = .idle)
    ∧ (BusResponsive s → ∀ a n, n ≠ 0 →
        (f = false ↔ ∃ t, exec (.beginTransmit (some a) n) s = .next t ∧ t.replies = s.replies ++ [.ok]))

/-- 40 R117, 60_exceptions R210: an enabled `irqStep` with bytes left sends the next one, as host memory holds it now, and
moves the cursor; with none left it disables the notification, resets the cursor and frees the bus, with nothing on the
wire. Both consume the event. It waits for no bus and touches nothing of `Ctl` (60_exceptions R216). -/
def Obligations.IrqStepSendsTheNextByteOrFinishes : Prop :=
  ∀ s : State,
    (irqEnabled s = true → s.txn.cursor < s.txn.length → ∃ b r t, exec .irqStep s = .next t
        ∧ (∀ a v, s.txn.buffer = some a → Memory.read .host s.hostMem (a + s.txn.cursor) = some v → b = v)
        ∧ t.wire = s.wire ++ [.byte b r] ∧ t.txn = { s.txn with cursor := s.txn.cursor + 1 }
        ∧ t.spi.byteReady = false ∧ t.ctl = s.ctl ∧ t.replies = s.replies ∧ t.hostMem = s.hostMem
        ∧ t.bus = s.bus ∧ t.spi.txIE = s.spi.txIE ∧ t.fg = s.fg ∧ t.irqMasked = s.irqMasked ∧ t.params = s.params
        ∧ t.plan = s.plan ∧ t.notices = s.notices ∧ t.agenda = s.agenda)
    ∧ (irqEnabled s = true → s.txn.length ≤ s.txn.cursor →
        exec .irqStep s = .next (((s.setSpi { s.spi with byteReady := false, txIE := false }).setTxn
          { s.txn with cursor := 0 }).setBus .idle))

/-- 60_exceptions R210: when a byte-ready event is remembered (TxIE = 1, or FG in a critical section: it stays pending),
that it is one level and not a counter, and when `irqStep` is enabled. Run while not enabled it does nothing: the model's
choice (log 14), as is an event while masked with TxIE = 0 (log 15). -/
def Obligations.ByteReadyEventsPendOnlyWhileEnabledOrMasked : Prop :=
  ∀ (s : State) (rest : List Item), s.fg = .running → s.agenda = .env .byteReady :: rest → ∃ t, step s = .next t
    ∧ (s.spi.txIE = true ∨ s.irqMasked = true → t.spi.byteReady = true)
    ∧ (s.spi.txIE = false → s.irqMasked = false → t = s.setAgenda rest)
    ∧ (irqEnabled t = true ↔ t.spi.txIE = true ∧ t.spi.byteReady = true ∧ t.irqMasked = false)
    ∧ (irqEnabled t = false → exec .irqStep t = .next t)
    ∧ t.bus = s.bus ∧ t.txn = s.txn ∧ t.ctl = s.ctl ∧ t.wire = s.wire

/-- The completed-transmit property of 40 R121 (source property T1): for every non-empty buffer listed in host memory,
`beginTransmit` and as many interrupt rounds as there are bytes put exactly those bytes on the wire in order and leave
BusState Idle, and no fewer rounds do. And of a run in any order of the agents: under the premise `ByteReadyFair` of 70 R251
a transaction in flight completes, however FG and ENV go on meanwhile. -/
def Obligations.TransmitOfNBytesTakesNInterruptSteps : Prop :=
  (∀ s : State, BusInv s → s.spi.txIE = true → ByteReadyFair s → ∃ t, Later s t ∧ t.bus = .idle ∧ t.spi.txIE = false)
  ∧ ∀ (s : State) (a : Nat) (bs : List Byte), bs ≠ [] → s.bus = .idle → Quiet s →
    (∀ k (h : k < bs.length), Memory.read .host s.hostMem (a + k) = some bs[k]) →
    ∃ t u rs, exec (.beginTransmit (some a) bs.length) s = .next t ∧ irqRounds bs.length t = .next u
      ∧ rs.length = bs.length ∧ u.wire = s.wire ++ List.zipWith WireEvent.byte bs rs
      ∧ u.bus = .idle ∧ u.spi.txIE = false ∧ u.txn = { buffer := some a, length := bs.length, cursor := 0 }
      ∧ u.ctl = s.ctl ∧ u.hostMem = s.hostMem
      ∧ ∀ k, k < bs.length → ∃ v, irqRounds k t = .next v ∧ v.bus = .txBusy

/-- 10_state R23: in a state with the invariant, a step changes BusState only from Idle to TxBusy or from TxBusy to Idle;
RxBusy and Error are never left, and in them every valid `beginTransmit` is `Busy` and `isBusy` is true. -/
def Obligations.BusStateMovesOnlyBetweenIdleAndTxBusy : Prop :=
  ∀ s : State,
    (∀ t, BusInv s → step s = .next t →
      t.bus = s.bus ∨ (s.bus = .idle ∧ t.bus = .txBusy) ∨ (s.bus = .txBusy ∧ t.bus = .idle))
    ∧ (s.bus = .rxBusy ∨ s.bus = .error →
      exec .isBusy s = .next (s.addReply (.flag true))
      ∧ ∀ a n, n ≠ 0 → exec (.beginTransmit (some a) n) s = .next ((s.setMask false).addReply (.err .busy)))

/-- 20_memory R62: no instruction writes host memory (what the caller stores meanwhile is ENV's, in `plan`). -/
def Obligations.NoInstructionWritesHostMemory : Prop :=
  ∀ (i : Instr) (s t : State), s.plan = [] → exec i s = .next t →
    ∀ a, Memory.read .host t.hostMem a = Memory.read .host s.hostMem a

/-! ### The Register Access Protocol -/

/-- 41 R131: the bank-select sequence: nothing for a common address or the selected bank, whatever BusState is; else BFC
with M_BSEL then BFS with the bank, both on `A_ECON1`, and `currentBank` is the bank. -/
def Obligations.SelectBankSendsClearThenSet : Prop :=
  ∀ (a : RegisterAddress) (s : State),
    (bankFrames s.params s.ctl.currentBank a = [] → exec (.selectBank a) s = .next (s.addReply .returned))
    ∧ (bankFrames s.params s.ctl.currentBank a ≠ [] → s.bus = .txBusy →
        exec (.selectBank a) s = .fault .busInterleave)
    ∧ (WireFree s → ∃ t as, exec (.selectBank a) s = .next t
        ∧ Answers (bankFrames s.params s.ctl.currentBank a) as
        ∧ t.wire = s.wire ++ framesEvents (bankFrames s.params s.ctl.currentBank a) as
        ∧ t.ctl = { s.ctl with currentBank := bankAfter s.ctl.currentBank a }
        ∧ t.replies = s.replies ++ [.returned] ∧ Kept s t)

/-- 41 R132: bank-select if needed, RCR and one dummy; the value is the byte received with the dummy. -/
def Obligations.ReadRegisterReturnsTheByteOfTheDummy : Prop :=
  ∀ (a : RegisterAddress) (s : State),
    (s.bus = .txBusy → exec (.readRegister a) s = .fault .busInterleave)
    ∧ (WireFree s → ∃ t as r0 v, exec (.readRegister a) s = .next t
        ∧ Answers (bankFrames s.params s.ctl.currentBank a) as
        ∧ t.wire = s.wire ++ framesEvents
            (bankFrames s.params s.ctl.currentBank a ++ [[s.params.opcRcr ||| a.off, s.params.dummy]]) (as ++ [[r0, v]])
        ∧ t.replies = s.replies ++ [.byte v]
        ∧ t.ctl = { s.ctl with currentBank := bankAfter s.ctl.currentBank a } ∧ Kept s t)

/-- 41 R133, R139: `A_ECON1` is refused before any byte moves; else bank-select if needed, WCR and the value. (Another
spelling of `A_ECON1` is refused too: `CachedBankIsTheSelectedBank`.) -/
def Obligations.WriteRegisterSendsTheValue : Prop :=
  ∀ (a : RegisterAddress) (v : Byte) (s : State),
    (a = s.params.aEcon1 → exec (.writeRegister a v) s = .fault .forbiddenBankWrite)
    ∧ (namesBankRegister s.params a = false → s.bus = .txBusy → exec (.writeRegister a v) s = .fault .busInterleave)
    ∧ (namesBankRegister s.params a = false → WireFree s → ∃ t as r0 r1, exec (.writeRegister a v) s = .next t
        ∧ Answers (bankFrames s.params s.ctl.currentBank a) as
        ∧ t.wire = s.wire ++ framesEvents
            (bankFrames s.params s.ctl.currentBank a ++ [[s.params.opcWcr ||| a.off, v]]) (as ++ [[r0, r1]])
        ∧ t.replies = s.replies ++ [.returned]
        ∧ t.ctl = { s.ctl with currentBank := bankAfter s.ctl.currentBank a } ∧ Kept s t)

/-- 41 R134, R135, R139: a set or clear on `A_ECON1` whose mask meets M_BSEL is refused before any byte moves; else
bank-select if needed, BFS or BFC and the mask, with no read first. (Another spelling of `A_ECON1` with such a mask is
refused too: `CachedBankIsTheSelectedBank`.) -/
def Obligations.SetAndClearBitsSendTheMask : Prop :=
  ∀ (a : RegisterAddress) (m : Byte) (s : State),
    (a = s.params.aEcon1 → m &&& s.params.mBsel ≠ 0#8 →
      exec (.setBits a m) s = .fault .forbiddenBankWrite ∧ exec (.clearBits a m) s = .fault .forbiddenBankWrite)
    ∧ (namesBankRegister s.params a = false ∨ m &&& s.params.mBsel = 0#8 → s.bus = .txBusy →
      exec (.setBits a m) s = .fault .busInterleave ∧ exec (.clearBits a m) s = .fault .busInterleave)
    ∧ (namesBankRegister s.params a = false ∨ m &&& s.params.mBsel = 0#8 → WireFree s →
      (∃ t as r0 r1, exec (.setBits a m) s = .next t
        ∧ Answers (bankFrames s.params s.ctl.currentBank a) as
        ∧ t.wire = s.wire ++ framesEvents
            (bankFrames s.params s.ctl.currentBank a ++ [[s.params.opcBfs ||| a.off, m]]) (as ++ [[r0, r1]])
        ∧ t.replies = s.replies ++ [.returned]
        ∧ t.ctl = { s.ctl with currentBank := bankAfter s.ctl.currentBank a } ∧ Kept s t)
      ∧ ∃ t as r0 r1, exec (.clearBits a m) s = .next t
        ∧ Answers (bankFrames s.params s.ctl.currentBank a) as
        ∧ t.wire = s.wire ++ framesEvents
            (bankFrames s.params s.ctl.currentBank a ++ [[s.params.opcBfc ||| a.off, m]]) (as ++ [[r0, r1]])
        ∧ t.replies = s.replies ++ [.returned]
        ∧ t.ctl = { s.ctl with currentBank := bankAfter s.ctl.currentBank a } ∧ Kept s t)

/-- 41 R136: SRC, then reads of `A_ESTAT` until one shows the ready flag, at most RESET_POLL_MAX; `Ok` at the first that
does, `Timeout` after exactly RESET_POLL_MAX that do not; `currentBank` is 0 (`A_ESTAT` is common, 00_scope R8) and
`Ctl.state` is not written. -/
def Obligations.SoftResetPollsWithinTheBound : Prop :=
  ∀ s : State, s.params.ok = true →
    (s.bus = .txBusy → exec .softReset s = .fault .busInterleave)
    ∧ (WireFree s → ∃ t r polls, exec .softReset s = .next t
        ∧ t.wire = s.wire ++ framesEvents ([s.params.opcSrc] :: polls.map fun _ => pollFrame s.params) ([r] :: polls)
        ∧ (∀ q ∈ polls, q.length = 2) ∧ 1 ≤ polls.length ∧ polls.length ≤ s.params.resetPollMax
        ∧ (∀ q ∈ polls.dropLast, q.getD 1 0#8 &&& s.params.mClkrdy = 0#8)
        ∧ ((∃ q, polls.getLast? = some q ∧ q.getD 1 0#8 &&& s.params.mClkrdy ≠ 0#8
              ∧ t.replies = s.replies ++ [.ok])
            ∨ (polls.length = s.params.resetPollMax ∧ (∀ q ∈ polls, q.getD 1 0#8 &&& s.params.mClkrdy = 0#8)
              ∧ t.replies = s.replies ++ [.err .timeout]))
        ∧ t.ctl = { s.ctl with currentBank := 0#2 } ∧ Kept s t)

/-- The round-trip property of 41 R138 (source property T3), with the reference peer: a value written to a plain banked
register is read back after any unrelated register accesses: reads, bank selects, and writes and bit-field commands on
other registers, in any bank. -/
def Obligations.BankedWriteReadsBackAfterOtherAccesses : Prop :=
  ∀ (s : State) (b : BitVec 2) (o v : Byte) (others : List Instr),
    s.params.ok = true → s.params.noOverlap = true → PeerFits s.params → s.wireEnd = .reference → Quiet s →
    s.bus ≠ .txBusy → BankCoherent s → PlainRegister s.params b o → s.params.offsetOk o = true →
    (∀ i ∈ others, UnrelatedAccess s.params b o i) →
    ∃ t replies, execAll (.writeRegister (.banked b o) v :: others ++ [.readRegister (.banked b o)]) s = .next t
      ∧ t.replies = s.replies ++ replies ++ [.byte v] ∧ t.ctl.currentBank = b

/-- I-RAP1 of 10_state R31: with the reference peer, every operation of the Register, Buffer and Supervisor layers, and
`isBusy`, that returns leaves `currentBank` equal to the bank selected in the controller; raw exchanges of the Bus Engine may
break it (70 R243). So that it does, an address that reaches
`A_ECON1` under another name is refused as `A_ECON1` is: the model's reading of R31 (log 29). -/
def Obligations.CachedBankIsTheSelectedBank : Prop :=
  (∀ (s : State) (a : RegisterAddress) (v m : Byte), a ≠ s.params.aEcon1 → namesBankRegister s.params a = true →
    exec (.writeRegister a v) s = .fault .forbiddenBankWrite
    ∧ (m &&& s.params.mBsel ≠ 0#8 →
      exec (.setBits a m) s = .fault .forbiddenBankWrite ∧ exec (.clearBits a m) s = .fault .forbiddenBankWrite))
  ∧ ∀ (s t : State) (i : Instr),
    s.params.ok = true → s.params.noOverlap = true → PeerFits s.params → s.wireEnd = .reference → BankCoherent s →
    (match i with
      | .selectBank a => a.ok s.params = true
      | .readRegister a => a.ok s.params = true
      | .writeRegister a _ => a.ok s.params = true
      | .setBits a _ => a.ok s.params = true
      | .clearBits a _ => a.ok s.params = true
      | .softReset | .writePacket _ | .readPacket _ | .initializeOp _ | .send _ | .receive _ | .pollLinkUp | .supIsBusy
      | .txComplete | .hardwareFault | .isBusy => True
      | _ => False) →
    exec i s = .next t → t.fg = .running → BankCoherent t

/-! ### The Buffer Memory Protocol -/

/-- 42 R151, R152: state check, then empty check, then exactly one WBM frame with the payload; no size check, nothing of
the block changed, no transmission requested. -/
def Obligations.WritePacketStagesOneFrame : Prop :=
  ∀ (q : Option (List Byte)) (s : State),
    (s.ctl.state ≠ .ready → exec (.writePacket q) s = .next (s.addReply (.err .notReady)))
    ∧ (s.ctl.state = .ready → q.getD [] = [] → exec (.writePacket q) s = .next (s.addReply (.err .invalidArgument)))
    ∧ (s.ctl.state = .ready → q.getD [] ≠ [] → s.bus = .txBusy → exec (.writePacket q) s = .fault .busInterleave)
    ∧ (s.ctl.state = .ready → q.getD [] ≠ [] → WireFree s → ∃ t as, exec (.writePacket q) s = .next t
        ∧ as.length = (q.getD []).length + 1
        ∧ t.wire = s.wire ++ frameEvents (s.params.opcWbm :: q.getD []) as
        ∧ t.replies = s.replies ++ [.ok] ∧ t.ctl = s.ctl ∧ Kept s t)

/-- 42 R153, R154, R155: the count is read first; with none pending the result is empty with `Ok`; else one RBM frame for
the header, the little-endian length at HDR_LEN_OFF, one RBM frame for the payload if there is one, all of it clocked in,
the first `capacity` bytes returned, `Truncated` iff there were more. -/
def Obligations.ReadPacketReadsCountHeaderPayload : Prop :=
  ∀ (cap : Nat) (s : State), s.params.ok = true →
    (s.bus = .txBusy → exec (.readPacket cap) s = .fault .busInterleave)
    ∧ (WireFree s → ∃ t as r0 cnt ev, exec (.readPacket cap) s = .next t
        ∧ Answers (bankFrames s.params s.ctl.currentBank s.params.aEpktcnt) as
        ∧ t.wire = s.wire ++ framesEvents (bankFrames s.params s.ctl.currentBank s.params.aEpktcnt
              ++ [[s.params.opcRcr ||| s.params.aEpktcnt.off, s.params.dummy]]) (as ++ [[r0, cnt]]) ++ ev
        ∧ t.ctl = { s.ctl with currentBank := bankAfter s.ctl.currentBank s.params.aEpktcnt } ∧ Kept s t
        ∧ (cnt = 0#8 → ev = [] ∧ t.replies = s.replies ++ [.packet [] .ok])
        ∧ (cnt ≠ 0#8 → ∃ h0 h lo hi pay0 pay len, h.length = s.params.hdrBytes
            ∧ h[s.params.hdrLenOff]? = some lo ∧ h[s.params.hdrLenOff + 1]? = some hi
            ∧ len = lo.toNat + 256 * hi.toNat ∧ pay.length = len
            ∧ ev = frameEvents (s.params.opcRbm :: List.replicate s.params.hdrBytes s.params.dummy) (h0 :: h)
                ++ (if len = 0 then [] else
                  frameEvents (s.params.opcRbm :: List.replicate len s.params.dummy) (pay0 :: pay))
            ∧ t.replies = s.replies ++ [.packet (pay.take cap) (if cap < len then .truncated else .ok)]))

/-- 42 R155 (source property T4): whatever the peer says and whatever ENV does, no read returns more than `capacity`
bytes, and a `Truncated` one exactly `capacity`. -/
def Obligations.ReceiveNeverReturnsMoreThanCapacity : Prop :=
  ∀ (cap : Nat) (s t : State) (bytes : List Byte) (st : Code),
    (exec (.receive cap) s = .next t ∨ exec (.readPacket cap) s = .next t) →
    t.replies = s.replies ++ [.packet bytes st] →
    bytes.length ≤ cap ∧ (st = .truncated → bytes.length = cap) ∧ (st = .truncated ∨ st = .ok)

/-- 44 R195, R183, 42 R153 to R155 together: a packet delivered to a peer with none pending is what `receive` returns, cut
to `capacity`; afterwards none is pending and the read pointer stands where the next header will be stored. -/
def Obligations.DeliveredPacketIsReceived : Prop :=
  ∀ (s : State) (packet : List Byte) (cap : Nat),
    s.params.ok = true → s.params.noOverlap = true → PeerFits s.params → s.wireEnd = .reference → Quiet s →
    s.bus ≠ .txBusy → BankCoherent s → PeerInv s →
    flagSet (s.peer.stored (econ1Cell s.params)) s.params.mRxen = true →
    s.peer.pend = [] → s.peer.eaten = 0 → s.peer.rdpt = s.peer.rxw → packet.length ≤ 65535 →
    s.params.hdrBytes + packet.length ≤ s.params.bufSize → acceptsReceive s.ctl.state = true →
    ∃ t, exec (.receive cap) (applyEvent s (.peerDeliver packet)) = .next t
      ∧ t.replies = s.replies ++ [.packet (packet.take cap) (if cap < packet.length then .truncated else .ok)]
      ∧ t.peer.pend = [] ∧ t.peer.eaten = 0 ∧ t.peer.rdpt = t.peer.rxw
      ∧ t.peer.rdpt = (s.peer.rdpt + (s.params.hdrBytes + packet.length)) % s.params.bufSize

/-! ### The Supervisor -/

/-- 43 R162, R163: `initialize`: the state check, the null check, then soft reset, the RXCFG writes, the MAC writes and
reception enabled, with the state it leaves at each end: Ready only if a poll has shown the ready flag, Error if none of
RESET_POLL_MAX has; for a parameter set whose configuration writes do not name the bank-select register (those that do are
refused by 41 R139, see `WriteRegisterSendsTheValue`). -/
def Obligations.InitializeBringsTheControllerUp : Prop :=
  ∀ (mac : Option (Six Byte)) (s : State), s.params.ok = true →
    (∀ w ∈ s.params.rxcfg, namesBankRegister s.params w.1 = false) →
    (∀ a ∈ s.params.aMaadr.toList, namesBankRegister s.params a = false) →
    (acceptsInitialize s.ctl.state = false →
      exec (.initializeOp mac) s = .next (s.addReply (.errAt .notReady .notStarted)))
    ∧ (acceptsInitialize s.ctl.state = true → mac = none →
      exec (.initializeOp mac) s = .next ((s.setCtlState .error).addReply (.errAt .invalidArgument .validate)))
    ∧ (acceptsInitialize s.ctl.state = true → mac ≠ none → s.bus = .txBusy →
      exec (.initializeOp mac) s = .fault .busInterleave)
    ∧ (∀ m, acceptsInitialize s.ctl.state = true → mac = some m → WireFree s →
      ∃ t r polls rest, exec (.initializeOp mac) s = .next t ∧ Kept s t
        ∧ (∀ q ∈ polls, q.length = 2) ∧ 1 ≤ polls.length ∧ polls.length ≤ s.params.resetPollMax
        ∧ (∀ q ∈ polls.dropLast, q.getD 1 0#8 &&& s.params.mClkrdy = 0#8)
        ∧ (((∃ q, polls.getLast? = some q ∧ q.getD 1 0#8 &&& s.params.mClkrdy ≠ 0#8)
            ∧ t.replies = s.replies ++ [.ok]
            ∧ t.ctl = { macAddress := m, state := .ready,
                        currentBank := bankAfterWrites 0#2 (initWrites s.params m) }
            ∧ Answers (writesFrames s.params 0#2 (initWrites s.params m)
                ++ [[s.params.opcBfs ||| s.params.aEcon1.off, s.params.mRxen]]) rest
            ∧ t.wire = s.wire ++ framesEvents ([s.params.opcSrc] :: (polls.map fun _ => pollFrame s.params)
                ++ (writesFrames s.params 0#2 (initWrites s.params m)
                  ++ [[s.params.opcBfs ||| s.params.aEcon1.off, s.params.mRxen]])) ([r] :: polls ++ rest))
          ∨ ((∀ q ∈ polls, q.getD 1 0#8 &&& s.params.mClkrdy = 0#8)
            ∧ t.replies = s.replies ++ [.errAt .timeout .reset] ∧ polls.length = s.params.resetPollMax
            ∧ t.ctl = { macAddress := m, state := .error, currentBank := 0#2 }
            ∧ t.wire = s.wire ++ framesEvents ([s.params.opcSrc] :: polls.map fun _ => pollFrame s.params)
                ([r] :: polls))))

/-- 43 R162 with the reference peer (source scenario S1): with the controller ready within the bound, bring-up succeeds
and leaves Ready, reception enabled and the cached bank selected. -/
def Obligations.BringUpSucceedsWithAReadyController : Prop :=
  ∀ (m : Six Byte) (s : State), s.params.ok = true → s.params.noOverlap = true → PeerFits s.params →
    s.wireEnd = .reference → Quiet s → s.bus ≠ .txBusy → acceptsInitialize s.ctl.state = true →
    (∃ d, s.peer.readyDelay = some d ∧ d < s.params.resetPollMax) → s.params.mRxen ≠ 0#8 →
    (∀ a ∈ [s.params.aEpktcnt, s.params.aPhystat], a.off ≠ s.params.aEstat.off) →
    ∃ t, exec (.initializeOp (some m)) s = .next t ∧ t.replies = s.replies ++ [.ok] ∧ t.ctl.state = .ready
      ∧ t.ctl.macAddress = m ∧ BankCoherent t ∧ flagSet (t.peer.stored (econ1Cell s.params)) s.params.mRxen = true
      ∧ t.peer.pend = []

/-- 43 R164: state check, size check, empty check; else the WBM frame, the transmit request on `A_ECON1`, and TxBusy. -/
def Obligations.SendStagesThenRequestsTransmission : Prop :=
  ∀ (q : Option (List Byte)) (s : State), s.params.ok = true →
    (s.ctl.state ≠ .ready → exec (.send q) s = .next (s.addReply (.err .notReady)))
    ∧ (s.ctl.state = .ready → s.params.maxFrame < (q.getD []).length →
        exec (.send q) s = .next (s.addReply (.err .invalidArgument)))
    ∧ (s.ctl.state = .ready → q.getD [] = [] → exec (.send q) s = .next (s.addReply (.err .invalidArgument)))
    ∧ (s.ctl.state = .ready → q.getD [] ≠ [] → (q.getD []).length ≤ s.params.maxFrame → s.bus = .txBusy →
        exec (.send q) s = .fault .busInterleave)
    ∧ (s.ctl.state = .ready → q.getD [] ≠ [] → (q.getD []).length ≤ s.params.maxFrame → WireFree s →
        ∃ t as r0 r1, exec (.send q) s = .next t ∧ as.length = (q.getD []).length + 1
          ∧ t.wire = s.wire ++ frameEvents (s.params.opcWbm :: q.getD []) as
              ++ frameEvents [s.params.opcBfs ||| s.params.aEcon1.off, s.params.mTxrts] [r0, r1]
          ∧ t.replies = s.replies ++ [.ok] ∧ t.ctl = { s.ctl with state := .txBusy } ∧ Kept s t)

/-- 43 R164 (source property T5): a second `send` before the completion is `NotReady` and changes nothing but the list of
results; after `txComplete` the state is Ready again (R166). And of a run in any order of the agents: under the premise
`TxCompleteFair` of 70 R251 a send outstanding ends, in Ready or by a hardware fault in Error. -/
def Obligations.SecondSendIsRejectedUntilCompletion : Prop :=
  (∀ s : State, s.ctl.state = .txBusy → TxCompleteFair s →
    ∃ t, Later s t ∧ (t.ctl.state = .ready ∨ t.ctl.state = .error))
  ∧ ∀ (q q' : Option (List Byte)) (s : State), s.params.ok = true → s.ctl.state = .ready → q.getD [] ≠ [] →
    (q.getD []).length ≤ s.params.maxFrame → WireFree s →
    ∃ t u, exec (.send q) s = .next t ∧ exec (.send q') t = .next (t.addReply (.err .notReady))
      ∧ exec .txComplete (t.addReply (.err .notReady)) = .next u ∧ u.ctl.state = .ready ∧ u.peer = t.peer
      ∧ u.wire = t.wire

/-- 43 R169: `receive` outside Ready and TxBusy is `NotReady`, with nothing on the wire; else it is `readPacket`, and
`Ctl.state` is not changed. -/
def Obligations.ReceiveIsReadPacketWhereValid : Prop :=
  ∀ (cap : Nat) (s : State),
    (s.ctl.state ≠ .ready → s.ctl.state ≠ .txBusy → exec (.receive cap) s = .next (s.addReply (.err .notReady)))
    ∧ (s.ctl.state = .ready ∨ s.ctl.state = .txBusy → s.bus = .txBusy → exec (.receive cap) s = .fault .busInterleave)
    ∧ (s.ctl.state = .ready ∨ s.ctl.state = .txBusy → WireFree s →
        ∃ t bytes st, exec (.receive cap) s = .next t ∧ exec (.readPacket cap) s = .next t
          ∧ t.replies = s.replies ++ [.packet bytes st] ∧ t.ctl.state = s.ctl.state
          ∧ t.ctl.macAddress = s.ctl.macAddress ∧ Kept s t)

/-- 43 R168: `pollLinkUp` is `NotReady` in Uninitialized only; else one register read, masked. -/
def Obligations.PollLinkUpReadsTheLinkBit : Prop :=
  ∀ s : State,
    (s.ctl.state = .uninitialized → exec .pollLinkUp s = .next (s.addReply (.err .notReady)))
    ∧ (s.ctl.state ≠ .uninitialized → s.bus = .txBusy → exec .pollLinkUp s = .fault .busInterleave)
    ∧ (s.ctl.state ≠ .uninitialized → WireFree s → ∃ t as r0 v, exec .pollLinkUp s = .next t
        ∧ Answers (bankFrames s.params s.ctl.currentBank s.params.aPhystat) as
        ∧ t.wire = s.wire ++ framesEvents (bankFrames s.params s.ctl.currentBank s.params.aPhystat
              ++ [[s.params.opcRcr ||| s.params.aPhystat.off, s.params.dummy]]) (as ++ [[r0, v]])
        ∧ t.replies = s.replies ++ [.flag (decide (v &&& s.params.mLink ≠ 0#8))]
        ∧ t.ctl = { s.ctl with currentBank := bankAfter s.ctl.currentBank s.params.aPhystat } ∧ Kept s t)

/-- 43 R170: `supIsBusy` is false exactly if no send is outstanding and the bus is idle; it changes nothing. -/
def Obligations.SupIsBusyReportsSendOrBus : Prop :=
  ∀ s : State, ∃ f, exec .supIsBusy s = .next (s.addReply (.flag f))
    ∧ (f = false ↔ s.ctl.state ≠ .txBusy ∧ s.bus = .idle)

/-- 43 R166, R167, 60_exceptions R214: the notifications move `Ctl.state` and nothing else, are ignored where R161 says
so, and in TxBusy end in Error in either order. -/
def Obligations.NotificationsMoveTheStateAndCommute : Prop :=
  ∀ s : State,
    (s.ctl.state = .txBusy → exec .txComplete s = .next ((s.setCtlState .ready).addReply .returned))
    ∧ (s.ctl.state ≠ .txBusy → exec .txComplete s = .next (s.addReply .returned))
    ∧ (s.ctl.state = .ready ∨ s.ctl.state = .txBusy →
        exec .hardwareFault s = .next ((s.setCtlState .error).addReply .returned))
    ∧ (s.ctl.state ≠ .ready → s.ctl.state ≠ .txBusy → exec .hardwareFault s = .next (s.addReply .returned))
    ∧ (s.ctl.state = .txBusy → ∃ t, execAll [.txComplete, .hardwareFault] s = .next t
        ∧ execAll [.hardwareFault, .txComplete] s = .next t ∧ t.ctl.state = .error)

/-- 43 R160: the transitions of `Ctl.state`, over all instructions: no other occurs, each from its own states and by its own
operation, and Resetting is left behind only by an `initialize` whose FG is stuck. -/
def Obligations.CtlStateFollowsTheDiagram : Prop :=
  ∀ (i : Instr) (s t : State), exec i s = .next t →
    CtlTransition s.ctl.state t.ctl.state
    ∧ (t.ctl.state ≠ s.ctl.state →
        (∃ m, i = .initializeOp m ∧ acceptsInitialize s.ctl.state = true
            ∧ (t.ctl.state = .ready ∨ t.ctl.state = .error ∨ t.ctl.state = .resetting))
          ∨ (∃ q, i = .send q ∧ s.ctl.state = .ready ∧ t.ctl.state = .txBusy)
          ∨ (i = .txComplete ∧ s.ctl.state = .txBusy ∧ t.ctl.state = .ready)
          ∨ (i = .hardwareFault ∧ (s.ctl.state = .ready ∨ s.ctl.state = .txBusy) ∧ t.ctl.state = .error))
    ∧ (t.ctl.state = .resetting → s.ctl.state = .resetting ∨ t.fg = .hung)

/-- 60_exceptions R201, R205: which operation can report which error code; none reports HardwareFault, and the Supervisor
never reports Busy. -/
def Obligations.EachOperationReportsOnlyItsErrors : Prop :=
  ∀ (i : Instr) (s t : State) (c : Code), exec i s = .next t →
    (t.replies = s.replies ++ [.err c] ∨ ∃ st, t.replies = s.replies ++ [.errAt c st]) →
    match i with
    | .beginTransmit _ _ => c = .invalidArgument ∨ c = .busy
    | .softReset => c = .timeout
    | .writePacket _ => c = .invalidArgument ∨ c = .notReady
    | .initializeOp _ => c = .invalidArgument ∨ c = .notReady ∨ c = .timeout
    | .send _ => c = .notReady ∨ c = .invalidArgument
    | .receive _ => c = .notReady
    | .pollLinkUp => c = .notReady
    | _ => False

/-- 60_exceptions R202: an operation that reports an error has changed nothing, but for `softReset` and `initialize` (and
the interrupt is unmasked). -/
def Obligations.ReportedErrorsChangeNothing : Prop :=
  ∀ (i : Instr) (s t : State) (c : Code), s.irqMasked = false → exec i s = .next t →
    t.replies = s.replies ++ [.err c] → i ≠ .softReset → t = s.addReply (.err c)

/-! ### The wire commands and the reference peer -/

/-- 44 R185: RCR answers each data byte with the register: the packet count (R183) or the cell as stored, on all bits but
the ready flag and the link bit (`own`), which the next statement gives; the state written is the polls. -/
def Obligations.RcrAnswersTheRegister : Prop :=
  ∀ (o own : Byte) (data : List Byte) (s : State) (p : Params) (bank : BitVec 2), p = s.params → bank = s.peer.bank p →
    own = (if reaches p bank o p.aEstat then p.mClkrdy else 0#8) ||| (if reaches p bank o p.aPhystat then p.mLink else 0#8) →
    ∃ t as, exec (.rcr o data) s = .next t ∧ as.length = data.length
    ∧ t.wire = s.wire ++ frameEvents ((p.opcRcr ||| o) :: data) (0#8 :: as)
    ∧ OnlyPeerAndWire s t ∧ SameBuffers s.peer t.peer ∧ t.peer.cells = s.peer.cells ∧ t.peer.sent = s.peer.sent
    ∧ t.peer.polls = s.peer.polls + (if reaches p bank o p.aEstat = true then data.length else 0)
    ∧ (reaches p bank o p.aEpktcnt = false → ∀ r ∈ as,
        r &&& ~~~ own = s.peer.stored (if p.commonLo ≤ o.toNat then .com o else .reg bank o) &&& ~~~ own)
    ∧ (reaches p bank o p.aEpktcnt = true → own = 0#8 → ∀ r ∈ as, r.toNat = min s.peer.pend.length 255)

/-- 44 R194, R198: the ready flag and the link bit as RCR answers them: the k-th read of `A_ESTAT` shows the ready flag iff
a soft reset has happened and READY_DELAY reads came before; the link bit is the fixture's. Where the packet count reaches
the same cell, that the ready flag and the link bit win over it, and the link bit over the ready flag, is the model's choice
(log 32), as is that READY_DELAY is the one of now, if ENV has changed it since the reset (log 35). -/
def Obligations.RcrAnswersThePeersOwnBits : Prop :=
  ∀ (o : Byte) (data : List Byte) (s : State) (p : Params) (bank : BitVec 2), p = s.params → bank = s.peer.bank p →
    p.ok = true →
    ∃ t as, exec (.rcr o data) s = .next t ∧ as.length = data.length
    ∧ t.wire = s.wire ++ frameEvents ((p.opcRcr ||| o) :: data) (0#8 :: as)
    ∧ (reaches p bank o p.aEstat = true → reaches p bank o p.aPhystat = false ∨ p.mLink &&& p.mClkrdy = 0#8 →
        ∀ k r, as[k]? = some r →
          (r &&& p.mClkrdy ≠ 0#8 ↔
            s.peer.wasReset = true ∧ ∃ d, s.peer.readyDelay = some d ∧ d ≤ s.peer.polls + k))
    ∧ (reaches p bank o p.aPhystat = true → ∀ r ∈ as, (r &&& p.mLink ≠ 0#8 ↔ s.peer.linkUp = true))

/-- 44 R186: WCR writes the first data byte to the cell, the peer's own bits (`own`) and the packet count excepted; every
other cell stays, later data bytes are ignored; on `A_ECON1` the bank is the one written. -/
def Obligations.WcrWritesOneCell : Prop :=
  ∀ (o own d : Byte) (more : List Byte) (s : State) (p : Params) (bank : BitVec 2), p = s.params → bank = s.peer.bank p →
    own = (if reaches p bank o p.aEstat then p.mClkrdy else 0#8) ||| (if reaches p bank o p.aPhystat then p.mLink else 0#8) →
    ∃ t, exec (.wcr o (d :: more)) s = .next t
    ∧ t.wire = s.wire ++ frameEvents ((p.opcWcr ||| o) :: d :: more) ((d :: more).map (fun _ => 0#8) ++ [0#8])
    ∧ OnlyPeerAndWire s t ∧ SameBuffers s.peer t.peer ∧ t.peer.sent = s.peer.sent ∧ t.peer.polls = s.peer.polls
    ∧ (∀ c, c ≠ cellOf p bank o → t.peer.stored c = s.peer.stored c)
    ∧ t.peer.stored (cellOf p bank o)
        = (if reaches p bank o p.aEpktcnt = true then s.peer.stored (cellOf p bank o)
          else (s.peer.stored (cellOf p bank o) &&& own) ||| (d &&& ~~~ own))
    ∧ (p.commonLo ≤ o.toNat → o = p.aEcon1.off → reaches p bank o p.aEpktcnt = false → own = 0#8 →
        t.peer.bank p = (d &&& p.mBsel).setWidth 2)

/-- 44 R187, R196: BFS sets the mask's bits of the cell (the peer's own bits and the packet count excepted, log 21); where
it takes the transmit-request bit of `A_ECON1` from 0 to 1, one packet is appended to `sent`, the staged bytes while the write
pointer has not wrapped (log 19, log 20); else nothing is sent. The same frame again changes nothing (20_memory R67). -/
def Obligations.BfsSetsBitsAndStartsTransmission : Prop :=
  ∀ (o own m : Byte) (more : List Byte) (s : State) (p : Params) (bank : BitVec 2), p = s.params → bank = s.peer.bank p →
    own = (if reaches p bank o p.aEstat then p.mClkrdy else 0#8) ||| (if reaches p bank o p.aPhystat then p.mLink else 0#8) →
    ∃ t, exec (.bfs o (m :: more)) s = .next t
    ∧ t.wire = s.wire ++ frameEvents ((p.opcBfs ||| o) :: m :: more) ((m :: more).map (fun _ => 0#8) ++ [0#8])
    ∧ OnlyPeerAndWire s t ∧ SameBuffers s.peer t.peer ∧ t.peer.polls = s.peer.polls
    ∧ (∀ c, c ≠ cellOf p bank o → t.peer.stored c = s.peer.stored c)
    ∧ t.peer.stored (cellOf p bank o)
        = (if reaches p bank o p.aEpktcnt = true then s.peer.stored (cellOf p bank o)
          else s.peer.stored (cellOf p bank o) ||| (m &&& ~~~ own))
    ∧ (p.commonLo ≤ o.toNat → o = p.aEcon1.off → reaches p bank o p.aEpktcnt = false → own &&& p.mTxrts = 0#8 →
        m &&& p.mTxrts ≠ 0#8 → t.peer.stored (econ1Cell p) &&& p.mTxrts ≠ 0#8)
    ∧ (s.peer.stored (econ1Cell p) &&& p.mTxrts = 0#8 → t.peer.stored (econ1Cell p) &&& p.mTxrts ≠ 0#8 →
        ∃ bytes, t.peer.sent = s.peer.sent ++ [bytes]
          ∧ (p.txBase ≤ s.peer.wrpt → bytes.length = s.peer.wrpt - p.txBase
            ∧ ∀ k b, bytes[k]? = some b → b = s.peer.bufByte (p.txBase + k)))
    ∧ (s.peer.stored (econ1Cell p) &&& p.mTxrts ≠ 0#8 ∨ t.peer.stored (econ1Cell p) &&& p.mTxrts = 0#8 →
        t.peer.sent = s.peer.sent)
    ∧ ∃ u, exec (.bfs o (m :: more)) t = .next u ∧ u.peer = t.peer

/-- 44 R188: BFC clears the mask's bits of the cell (the peer's own bits and the packet count excepted, log 21); every
other cell stays; nothing is sent. The same frame again changes nothing (20_memory R67). -/
def Obligations.BfcClearsBits : Prop :=
  ∀ (o own m : Byte) (more : List Byte) (s : State) (p : Params) (bank : BitVec 2), p = s.params → bank = s.peer.bank p →
    own = (if reaches p bank o p.aEstat then p.mClkrdy else 0#8) ||| (if reaches p bank o p.aPhystat then p.mLink else 0#8) →
    ∃ t, exec (.bfc o (m :: more)) s = .next t
    ∧ t.wire = s.wire ++ frameEvents ((p.opcBfc ||| o) :: m :: more) ((m :: more).map (fun _ => 0#8) ++ [0#8])
    ∧ OnlyPeerAndWire s t ∧ SameBuffers s.peer t.peer ∧ t.peer.polls = s.peer.polls ∧ t.peer.sent = s.peer.sent
    ∧ (∀ c, c ≠ cellOf p bank o → t.peer.stored c = s.peer.stored c)
    ∧ t.peer.stored (cellOf p bank o)
        = (if reaches p bank o p.aEpktcnt = true then s.peer.stored (cellOf p bank o)
          else s.peer.stored (cellOf p bank o) &&& ~~~ (m &&& ~~~ own))
    ∧ ∃ u, exec (.bfc o (m :: more)) t = .next u ∧ u.peer = t.peer

/-- 44 R185 to R190 where a frame holds no data byte (log 18): the command byte is answered `0x00` and nothing changes. -/
def Obligations.CommandsWithoutDataChangeNothing : Prop :=
  ∀ (o : Byte) (s : State) (i : Instr) (c : Byte),
    (i = .rcr o [] ∧ c = s.params.opcRcr ||| o) ∨ (i = .wcr o [] ∧ c = s.params.opcWcr ||| o)
      ∨ (i = .bfs o [] ∧ c = s.params.opcBfs ||| o) ∨ (i = .bfc o [] ∧ c = s.params.opcBfc ||| o)
      ∨ (i = .rbm [] ∧ c = s.params.opcRbm) ∨ (i = .wbm [] ∧ c = s.params.opcWbm) →
    ∃ t, exec i s = .next t ∧ t.wire = s.wire ++ frameEvents [c] [0#8] ∧ OnlyPeerAndWire s t
      ∧ t.peer = { s.peer with frame := .outside }

/-- 44 R189, R183: RBM answers the bytes at the read pointer, which advances modulo BUF_SIZE; a pending packet is eaten
and released with its last byte, and a frame that reads on eats the packets after it. -/
def Obligations.RbmStreamsFromTheReadPointer : Prop :=
  ∀ (data : List Byte) (s : State), s.params.ok = true → PeerInv s → ∃ t as, exec (.rbm data) s = .next t
    ∧ as.length = data.length
    ∧ t.wire = s.wire ++ frameEvents (s.params.opcRbm :: data) (0#8 :: as)
    ∧ (∀ k b, as[k]? = some b → b = s.peer.bufByte ((s.peer.rdpt + k) % s.params.bufSize))
    ∧ t.peer.rdpt = (s.peer.rdpt + data.length) % s.params.bufSize
    ∧ OnlyPeerAndWire s t ∧ SameRegisters s.peer t.peer ∧ t.peer.buf = s.peer.buf ∧ t.peer.wrpt = s.peer.wrpt
    ∧ (s.peer.pend = [] → t.peer.pend = [] ∧ t.peer.eaten = s.peer.eaten)
    ∧ (∀ n rest, s.peer.pend = n :: rest → s.peer.eaten + data.length < n →
        t.peer.pend = n :: rest ∧ t.peer.eaten = s.peer.eaten + data.length)
    ∧ (∀ n rest, s.peer.pend = n :: rest → s.peer.eaten < n → s.peer.eaten + data.length = n →
        t.peer.pend = rest ∧ t.peer.eaten = 0)
    ∧ ((∀ n ∈ s.peer.pend, 0 < n) → (∀ n, s.peer.pend.head? = some n → s.peer.eaten < n) →
        (t.peer.pend, t.peer.eaten) = packetsAfter data.length s.peer.eaten s.peer.pend)

/-- 44 R190: WBM stores each data byte at the write pointer, which advances modulo BUF_SIZE; more than BUF_SIZE bytes
overwrite; every byte outside the stored ones stays; no transmission is started. -/
def Obligations.WbmStagesAtTheWritePointer : Prop :=
  ∀ (data : List Byte) (s : State), s.params.ok = true → PeerInv s → ∃ t, exec (.wbm data) s = .next t
    ∧ t.wire = s.wire ++ frameEvents (s.params.opcWbm :: data) (data.map (fun _ => 0#8) ++ [0#8])
    ∧ t.peer.wrpt = (s.peer.wrpt + data.length) % s.params.bufSize
    ∧ OnlyPeerAndWire s t ∧ SameRegisters s.peer t.peer ∧ t.peer.rdpt = s.peer.rdpt ∧ t.peer.pend = s.peer.pend
    ∧ t.peer.eaten = s.peer.eaten
    ∧ (∀ k b, data[k]? = some b → data.length ≤ k + s.params.bufSize →
        t.peer.bufByte ((s.peer.wrpt + k) % s.params.bufSize) = b)
    ∧ (∀ a, (∀ k, k < data.length → a ≠ (s.peer.wrpt + k) % s.params.bufSize) →
        t.peer.bufByte a = s.peer.bufByte a)

/-- 44 R191, R197: SRC puts the peer into its reset state: every cell 0, bank 0, pointers and queue as at creation; `Buf`
and `sent` are kept. -/
def Obligations.SrcResetsThePeer : Prop :=
  ∀ (data : List Byte) (s : State), ∃ t, exec (.src data) s = .next t
    ∧ t.wire = s.wire ++ frameEvents (s.params.opcSrc :: data) (data.map (fun _ => 0#8) ++ [0#8])
    ∧ OnlyPeerAndWire s t ∧ (∀ c, t.peer.stored c = 0#8) ∧ t.peer.bank s.params = 0#2
    ∧ t.peer.rdpt = 0 ∧ t.peer.rxw = 0 ∧ t.peer.wrpt = s.params.txBase ∧ t.peer.pend = [] ∧ t.peer.eaten = 0
    ∧ t.peer.polls = 0 ∧ t.peer.wasReset = true ∧ t.peer.buf = s.peer.buf ∧ t.peer.sent = s.peer.sent
    ∧ t.peer.readyDelay = s.peer.readyDelay ∧ t.peer.linkUp = s.peer.linkUp

/-- 44 R184 against R185 to R192: a frame sent by the block byte by byte, through `frameBegin`, `exchangeByte` and
`frameEnd`, has on the reference peer and on the wire the effect of the decoded wire command, whatever the bytes. -/
def Obligations.FrameByteByByteIsTheWireCommand : Prop :=
  ∀ (s : State) (c : Byte) (data : List Byte), s.wireEnd = .reference → Quiet s → s.bus ≠ .txBusy →
    ∃ t u, execAll (.frameBegin :: (c :: data).map .exchangeByte ++ [.frameEnd]) s = .next t
      ∧ runEncoded .peer (.frame (c :: data)) s = .next u
      ∧ t.peer = u.peer ∧ t.wire = u.wire ∧ t.draws = u.draws

/-- 44 R195: a packet of at most 65535 bytes is stored with its header from `rxw` on, wrapping, and queued, if reception is
enabled, and nothing else changes; else nothing is stored. -/
def Obligations.PeerDeliverStoresHeaderAndPacket : Prop :=
  ∀ (s : State) (packet : List Byte) (rest : List Item), s.fg = .running →
    s.agenda = .env (.peerDeliver packet) :: rest → s.params.ok = true → PeerInv s →
    ∃ t, step s = .next t ∧ OnlyPeerAndWire (s.setAgenda rest) t ∧ t.wire = s.wire
      ∧ (s.peer.stored (econ1Cell s.params) &&& s.params.mRxen = 0#8 ∨ 65535 < packet.length → t = s.setAgenda rest)
      ∧ (s.peer.stored (econ1Cell s.params) &&& s.params.mRxen ≠ 0#8 → packet.length ≤ 65535 →
          t.peer.pend = s.peer.pend ++ [s.params.hdrBytes + packet.length]
          ∧ t.peer.rxw = (s.peer.rxw + (s.params.hdrBytes + packet.length)) % s.params.bufSize
          ∧ t.peer.cells = s.peer.cells ∧ t.peer.rdpt = s.peer.rdpt ∧ t.peer.wrpt = s.peer.wrpt
          ∧ t.peer.eaten = s.peer.eaten ∧ t.peer.sent = s.peer.sent ∧ t.peer.polls = s.peer.polls
          ∧ t.peer.wasReset = s.peer.wasReset ∧ t.peer.readyDelay = s.peer.readyDelay ∧ t.peer.linkUp = s.peer.linkUp
          ∧ t.peer.frame = s.peer.frame
          ∧ (∀ a, (∀ k, k < s.params.hdrBytes + packet.length → a ≠ (s.peer.rxw + k) % s.params.bufSize) →
              t.peer.bufByte a = s.peer.bufByte a)
          ∧ (s.params.hdrBytes + packet.length ≤ s.params.bufSize →
            (t.peer.bufByte ((s.peer.rxw + s.params.hdrLenOff) % s.params.bufSize)).toNat
              + 256 * (t.peer.bufByte ((s.peer.rxw + s.params.hdrLenOff + 1) % s.params.bufSize)).toNat
              = packet.length
            ∧ (∀ j, j < s.params.hdrBytes → j ≠ s.params.hdrLenOff → j ≠ s.params.hdrLenOff + 1 →
              t.peer.bufByte ((s.peer.rxw + j) % s.params.bufSize) = 0#8)
            ∧ ∀ k b, packet[k]? = some b →
              t.peer.bufByte ((s.peer.rxw + (s.params.hdrBytes + k)) % s.params.bufSize) = b))

/-- 44 R196: `PeerTxDone`, enabled while the transmit-request bit is 1, clears it, puts the write pointer back and raises
the tx-complete notification, which FG is then handed (43 R166). -/
def Obligations.PeerTxDoneEndsInTxComplete : Prop :=
  ∀ (s : State) (rest : List Item), s.fg = .running → s.agenda = .env .peerTxDone :: .deliver :: rest →
    s.notices = [] →
    (s.peer.stored (econ1Cell s.params) &&& s.params.mTxrts = 0#8 → step s = .next (s.setAgenda (.deliver :: rest)))
    ∧ (s.peer.stored (econ1Cell s.params) &&& s.params.mTxrts ≠ 0#8 → ∃ t u, step s = .next t ∧ step t = .next u
        ∧ t.peer.stored (econ1Cell s.params) = s.peer.stored (econ1Cell s.params) &&& ~~~ s.params.mTxrts
        ∧ t.peer.wrpt = s.params.txBase ∧ t.peer.sent = s.peer.sent ∧ t.peer.buf = s.peer.buf
        ∧ (s.ctl.state = .txBusy → u.ctl.state = .ready) ∧ u.notices = [])
end

