-- ==== Sys2Proof/Laws/State.lean ====
section
/-! SUPPORT. One lemma per field and update of State, each true by unfolding (the operations are written with these
updates, so that no later proof unfolds a record update). -/

namespace Sys2Proof.Machine

variable (s : State)

@[simp] theorem State.setBus_params (b : BusState) : (s.setBus b).params = s.params := rfl
@[simp] theorem State.setBus_bus (b : BusState) : (s.setBus b).bus = b := rfl
@[simp] theorem State.setBus_txn (b : BusState) : (s.setBus b).txn = s.txn := rfl
@[simp] theorem State.setBus_spi (b : BusState) : (s.setBus b).spi = s.spi := rfl
@[simp] theorem State.setBus_irqMasked (b : BusState) : (s.setBus b).irqMasked = s.irqMasked := rfl
@[simp] theorem State.setBus_ctl (b : BusState) : (s.setBus b).ctl = s.ctl := rfl
@[simp] theorem State.setBus_fg (b : BusState) : (s.setBus b).fg = s.fg := rfl
@[simp] theorem State.setBus_wire (b : BusState) : (s.setBus b).wire = s.wire := rfl
@[simp] theorem State.setBus_replies (b : BusState) : (s.setBus b).replies = s.replies := rfl
@[simp] theorem State.setBus_hostMem (b : BusState) : (s.setBus b).hostMem = s.hostMem := rfl
@[simp] theorem State.setBus_peer (b : BusState) : (s.setBus b).peer = s.peer := rfl
@[simp] theorem State.setBus_wireEnd (b : BusState) : (s.setBus b).wireEnd = s.wireEnd := rfl
@[simp] theorem State.setBus_answers (b : BusState) : (s.setBus b).answers = s.answers := rfl
@[simp] theorem State.setBus_draws (b : BusState) : (s.setBus b).draws = s.draws := rfl
@[simp] theorem State.setBus_busUp (b : BusState) : (s.setBus b).busUp = s.busUp := rfl
@[simp] theorem State.setBus_plan (b : BusState) : (s.setBus b).plan = s.plan := rfl
@[simp] theorem State.setBus_notices (b : BusState) : (s.setBus b).notices = s.notices := rfl
@[simp] theorem State.setBus_agenda (b : BusState) : (s.setBus b).agenda = s.agenda := rfl

@[simp] theorem State.setTxn_params (x : Txn) : (s.setTxn x).params = s.params := rfl
@[simp] theorem State.setTxn_bus (x : Txn) : (s.setTxn x).bus = s.bus := rfl
@[simp] theorem State.setTxn_txn (x : Txn) : (s.setTxn x).txn = x := rfl
@[simp] theorem State.setTxn_spi (x : Txn) : (s.setTxn x).spi = s.spi := rfl
@[simp] theorem State.setTxn_irqMasked (x : Txn) : (s.setTxn x).irqMasked = s.irqMasked := rfl
@[simp] theorem State.setTxn_ctl (x : Txn) : (s.setTxn x).ctl = s.ctl := rfl
@[simp] theorem State.setTxn_fg (x : Txn) : (s.setTxn x).fg = s.fg := rfl
@[simp] theorem State.setTxn_wire (x : Txn) : (s.setTxn x).wire = s.wire := rfl
@[simp] theorem State.setTxn_replies (x : Txn) : (s.setTxn x).replies = s.replies := rfl
@[simp] theorem State.setTxn_hostMem (x : Txn) : (s.setTxn x).hostMem = s.hostMem := rfl
@[simp] theorem State.setTxn_peer (x : Txn) : (s.setTxn x).peer = s.peer := rfl
@[simp] theorem State.setTxn_wireEnd (x : Txn) : (s.setTxn x).wireEnd = s.wireEnd := rfl
@[simp] theorem State.setTxn_answers (x : Txn) : (s.setTxn x).answers = s.answers := rfl
@[simp] theorem State.setTxn_draws (x : Txn) : (s.setTxn x).draws = s.draws := rfl
@[simp] theorem State.setTxn_busUp (x : Txn) : (s.setTxn x).busUp = s.busUp := rfl
@[simp] theorem State.setTxn_plan (x : Txn) : (s.setTxn x).plan = s.plan := rfl
@[simp] theorem State.setTxn_notices (x : Txn) : (s.setTxn x).notices = s.notices := rfl
@[simp] theorem State.setTxn_agenda (x : Txn) : (s.setTxn x).agenda = s.agenda := rfl

@[simp] theorem State.setSpi_params (x : Spi) : (s.setSpi x).params = s.params := rfl
@[simp] theorem State.setSpi_bus (x : Spi) : (s.setSpi x).bus = s.bus := rfl
@[simp] theorem State.setSpi_txn (x : Spi) : (s.setSpi x).txn = s.txn := rfl
@[simp] theorem State.setSpi_spi (x : Spi) : (s.setSpi x).spi = x := rfl
@[simp] theorem State.setSpi_irqMasked (x : Spi) : (s.setSpi x).irqMasked = s.irqMasked := rfl
@[simp] theorem State.setSpi_ctl (x : Spi) : (s.setSpi x).ctl = s.ctl := rfl
@[simp] theorem State.setSpi_fg (x : Spi) : (s.setSpi x).fg = s.fg := rfl
@[simp] theorem State.setSpi_wire (x : Spi) : (s.setSpi x).wire = s.wire := rfl
@[simp] theorem State.setSpi_replies (x : Spi) : (s.setSpi x).replies = s.replies := rfl
@[simp] theorem State.setSpi_hostMem (x : Spi) : (s.setSpi x).hostMem = s.hostMem := rfl
@[simp] theorem State.setSpi_peer (x : Spi) : (s.setSpi x).peer = s.peer := rfl
@[simp] theorem State.setSpi_wireEnd (x : Spi) : (s.setSpi x).wireEnd = s.wireEnd := rfl
@[simp] theorem State.setSpi_answers (x : Spi) : (s.setSpi x).answers = s.answers := rfl
@[simp] theorem State.setSpi_draws (x : Spi) : (s.setSpi x).draws = s.draws := rfl
@[simp] theorem State.setSpi_busUp (x : Spi) : (s.setSpi x).busUp = s.busUp := rfl
@[simp] theorem State.setSpi_plan (x : Spi) : (s.setSpi x).plan = s.plan := rfl
@[simp] theorem State.setSpi_notices (x : Spi) : (s.setSpi x).notices = s.notices := rfl
@[simp] theorem State.setSpi_agenda (x : Spi) : (s.setSpi x).agenda = s.agenda := rfl

@[simp] theorem State.setMask_params (b : Bool) : (s.setMask b).params = s.params := rfl
@[simp] theorem State.setMask_bus (b : Bool) : (s.setMask b).bus = s.bus := rfl
@[simp] theorem State.setMask_txn (b : Bool) : (s.setMask b).txn = s.txn := rfl
@[simp] theorem State.setMask_spi (b : Bool) : (s.setMask b).spi = s.spi := rfl
@[simp] theorem State.setMask_irqMasked (b : Bool) : (s.setMask b).irqMasked = b := rfl
@[simp] theorem State.setMask_ctl (b : Bool) : (s.setMask b).ctl = s.ctl := rfl
@[simp] theorem State.setMask_fg (b : Bool) : (s.setMask b).fg = s.fg := rfl
@[simp] theorem State.setMask_wire (b : Bool) : (s.setMask b).wire = s.wire := rfl
@[simp] theorem State.setMask_replies (b : Bool) : (s.setMask b).replies = s.replies := rfl
@[simp] theorem State.setMask_hostMem (b : Bool) : (s.setMask b).hostMem = s.hostMem := rfl
@[simp] theorem State.setMask_peer (b : Bool) : (s.setMask b).peer = s.peer := rfl
@[simp] theorem State.setMask_wireEnd (b : Bool) : (s.setMask b).wireEnd = s.wireEnd := rfl
@[simp] theorem State.setMask_answers (b : Bool) : (s.setMask b).answers = s.answers := rfl
@[simp] theorem State.setMask_draws (b : Bool) : (s.setMask b).draws = s.draws := rfl
@[simp] theorem State.setMask_busUp (b : Bool) : (s.setMask b).busUp = s.busUp := rfl
@[simp] theorem State.setMask_plan (b : Bool) : (s.setMask b).plan = s.plan := rfl
@[simp] theorem State.setMask_notices (b : Bool) : (s.setMask b).notices = s.notices := rfl
@[simp] theorem State.setMask_agenda (b : Bool) : (s.setMask b).agenda = s.agenda := rfl

@[simp] theorem State.setCtl_params (x : Ctl) : (s.setCtl x).params = s.params := rfl
@[simp] theorem State.setCtl_bus (x : Ctl) : (s.setCtl x).bus = s.bus := rfl
@[simp] theorem State.setCtl_txn (x : Ctl) : (s.setCtl x).txn = s.txn := rfl
@[simp] theorem State.setCtl_spi (x : Ctl) : (s.setCtl x).spi = s.spi := rfl
@[simp] theorem State.setCtl_irqMasked (x : Ctl) : (s.setCtl x).irqMasked = s.irqMasked := rfl
@[simp] theorem State.setCtl_ctl (x : Ctl) : (s.setCtl x).ctl = x := rfl
@[simp] theorem State.setCtl_fg (x : Ctl) : (s.setCtl x).fg = s.fg := rfl
@[simp] theorem State.setCtl_wire (x : Ctl) : (s.setCtl x).wire = s.wire := rfl
@[simp] theorem State.setCtl_replies (x : Ctl) : (s.setCtl x).replies = s.replies := rfl
@[simp] theorem State.setCtl_hostMem (x : Ctl) : (s.setCtl x).hostMem = s.hostMem := rfl
@[simp] theorem State.setCtl_peer (x : Ctl) : (s.setCtl x).peer = s.peer := rfl
@[simp] theorem State.setCtl_wireEnd (x : Ctl) : (s.setCtl x).wireEnd = s.wireEnd := rfl
@[simp] theorem State.setCtl_answers (x : Ctl) : (s.setCtl x).answers = s.answers := rfl
@[simp] theorem State.setCtl_draws (x : Ctl) : (s.setCtl x).draws = s.draws := rfl
@[simp] theorem State.setCtl_busUp (x : Ctl) : (s.setCtl x).busUp = s.busUp := rfl
@[simp] theorem State.setCtl_plan (x : Ctl) : (s.setCtl x).plan = s.plan := rfl
@[simp] theorem State.setCtl_notices (x : Ctl) : (s.setCtl x).notices = s.notices := rfl
@[simp] theorem State.setCtl_agenda (x : Ctl) : (s.setCtl x).agenda = s.agenda := rfl

@[simp] theorem State.setFg_params (x : FgStatus) : (s.setFg x).params = s.params := rfl
@[simp] theorem State.setFg_bus (x : FgStatus) : (s.setFg x).bus = s.bus := rfl
@[simp] theorem State.setFg_txn (x : FgStatus) : (s.setFg x).txn = s.txn := rfl
@[simp] theorem State.setFg_spi (x : FgStatus) : (s.setFg x).spi = s.spi := rfl
@[simp] theorem State.setFg_irqMasked (x : FgStatus) : (s.setFg x).irqMasked = s.irqMasked := rfl
@[simp] theorem State.setFg_ctl (x : FgStatus) : (s.setFg x).ctl = s.ctl := rfl
@[simp] theorem State.setFg_fg (x : FgStatus) : (s.setFg x).fg = x := rfl
@[simp] theorem State.setFg_wire (x : FgStatus) : (s.setFg x).wire = s.wire := rfl
@[simp] theorem State.setFg_replies (x : FgStatus) : (s.setFg x).replies = s.replies := rfl
@[simp] theorem State.setFg_hostMem (x : FgStatus) : (s.setFg x).hostMem = s.hostMem := rfl
@[simp] theorem State.setFg_peer (x : FgStatus) : (s.setFg x).peer = s.peer := rfl
@[simp] theorem State.setFg_wireEnd (x : FgStatus) : (s.setFg x).wireEnd = s.wireEnd := rfl
@[simp] theorem State.setFg_answers (x : FgStatus) : (s.setFg x).answers = s.answers := rfl
@[simp] theorem State.setFg_draws (x : FgStatus) : (s.setFg x).draws = s.draws := rfl
@[simp] theorem State.setFg_busUp (x : FgStatus) : (s.setFg x).busUp = s.busUp := rfl
@[simp] theorem State.setFg_plan (x : FgStatus) : (s.setFg x).plan = s.plan := rfl
@[simp] theorem State.setFg_notices (x : FgStatus) : (s.setFg x).notices = s.notices := rfl
@[simp] theorem State.setFg_agenda (x : FgStatus) : (s.setFg x).agenda = s.agenda := rfl

@[simp] theorem State.logWire_params (e : List WireEvent) : (s.logWire e).params = s.params := rfl
@[simp] theorem State.logWire_bus (e : List WireEvent) : (s.logWire e).bus = s.bus := rfl
@[simp] theorem State.logWire_txn (e : List WireEvent) : (s.logWire e).txn = s.txn := rfl
@[simp] theorem State.logWire_spi (e : List WireEvent) : (s.logWire e).spi = s.spi := rfl
@[simp] theorem State.logWire_irqMasked (e : List WireEvent) : (s.logWire e).irqMasked = s.irqMasked := rfl
@[simp] theorem State.logWire_ctl (e : List WireEvent) : (s.logWire e).ctl = s.ctl := rfl
@[simp] theorem State.logWire_fg (e : List WireEvent) : (s.logWire e).fg = s.fg := rfl
@[simp] theorem State.logWire_wire (e : List WireEvent) : (s.logWire e).wire = s.wire ++ e := rfl
@[simp] theorem State.logWire_replies (e : List WireEvent) : (s.logWire e).replies = s.replies := rfl
@[simp] theorem State.logWire_hostMem (e : List WireEvent) : (s.logWire e).hostMem = s.hostMem := rfl
@[simp] theorem State.logWire_peer (e : List WireEvent) : (s.logWire e).peer = s.peer := rfl
@[simp] theorem State.logWire_wireEnd (e : List WireEvent) : (s.logWire e).wireEnd = s.wireEnd := rfl
@[simp] theorem State.logWire_answers (e : List WireEvent) : (s.logWire e).answers = s.answers := rfl
@[simp] theorem State.logWire_draws (e : List WireEvent) : (s.logWire e).draws = s.draws := rfl
@[simp] theorem State.logWire_busUp (e : List WireEvent) : (s.logWire e).busUp = s.busUp := rfl
@[simp] theorem State.logWire_plan (e : List WireEvent) : (s.logWire e).plan = s.plan := rfl
@[simp] theorem State.logWire_notices (e : List WireEvent) : (s.logWire e).notices = s.notices := rfl
@[simp] theorem State.logWire_agenda (e : List WireEvent) : (s.logWire e).agenda = s.agenda := rfl

@[simp] theorem State.addReply_params (r : Reply) : (s.addReply r).params = s.params := rfl
@[simp] theorem State.addReply_bus (r : Reply) : (s.addReply r).bus = s.bus := rfl
@[simp] theorem State.addReply_txn (r : Reply) : (s.addReply r).txn = s.txn := rfl
@[simp] theorem State.addReply_spi (r : Reply) : (s.addReply r).spi = s.spi := rfl
@[simp] theorem State.addReply_irqMasked (r : Reply) : (s.addReply r).irqMasked = s.irqMasked := rfl
@[simp] theorem State.addReply_ctl (r : Reply) : (s.addReply r).ctl = s.ctl := rfl
@[simp] theorem State.addReply_fg (r : Reply) : (s.addReply r).fg = s.fg := rfl
@[simp] theorem State.addReply_wire (r : Reply) : (s.addReply r).wire = s.wire := rfl
@[simp] theorem State.addReply_replies (r : Reply) : (s.addReply r).replies = s.replies ++ [r] := rfl
@[simp] theorem State.addReply_hostMem (r : Reply) : (s.addReply r).hostMem = s.hostMem := rfl
@[simp] theorem State.addReply_peer (r : Reply) : (s.addReply r).peer = s.peer := rfl
@[simp] theorem State.addReply_wireEnd (r : Reply) : (s.addReply r).wireEnd = s.wireEnd := rfl
@[simp] theorem State.addReply_answers (r : Reply) : (s.addReply r).answers = s.answers := rfl
@[simp] theorem State.addReply_draws (r : Reply) : (s.addReply r).draws = s.draws := rfl
@[simp] theorem State.addReply_busUp (r : Reply) : (s.addReply r).busUp = s.busUp := rfl
@[simp] theorem State.addReply_plan (r : Reply) : (s.addReply r).plan = s.plan := rfl
@[simp] theorem State.addReply_notices (r : Reply) : (s.addReply r).notices = s.notices := rfl
@[simp] theorem State.addReply_agenda (r : Reply) : (s.addReply r).agenda = s.agenda := rfl

@[simp] theorem State.setHostMem_params (m : Memory) : (s.setHostMem m).params = s.params := rfl
@[simp] theorem State.setHostMem_bus (m : Memory) : (s.setHostMem m).bus = s.bus := rfl
@[simp] theorem State.setHostMem_txn (m : Memory) : (s.setHostMem m).txn = s.txn := rfl
@[simp] theorem State.setHostMem_spi (m : Memory) : (s.setHostMem m).spi = s.spi := rfl
@[simp] theorem State.setHostMem_irqMasked (m : Memory) : (s.setHostMem m).irqMasked = s.irqMasked := rfl
@[simp] theorem State.setHostMem_ctl (m : Memory) : (s.setHostMem m).ctl = s.ctl := rfl
@[simp] theorem State.setHostMem_fg (m : Memory) : (s.setHostMem m).fg = s.fg := rfl
@[simp] theorem State.setHostMem_wire (m : Memory) : (s.setHostMem m).wire = s.wire := rfl
@[simp] theorem State.setHostMem_replies (m : Memory) : (s.setHostMem m).replies = s.replies := rfl
@[simp] theorem State.setHostMem_hostMem (m : Memory) : (s.setHostMem m).hostMem = m := rfl
@[simp] theorem State.setHostMem_peer (m : Memory) : (s.setHostMem m).peer = s.peer := rfl
@[simp] theorem State.setHostMem_wireEnd (m : Memory) : (s.setHostMem m).wireEnd = s.wireEnd := rfl
@[simp] theorem State.setHostMem_answers (m : Memory) : (s.setHostMem m).answers = s.answers := rfl
@[simp] theorem State.setHostMem_draws (m : Memory) : (s.setHostMem m).draws = s.draws := rfl
@[simp] theorem State.setHostMem_busUp (m : Memory) : (s.setHostMem m).busUp = s.busUp := rfl
@[simp] theorem State.setHostMem_plan (m : Memory) : (s.setHostMem m).plan = s.plan := rfl
@[simp] theorem State.setHostMem_notices (m : Memory) : (s.setHostMem m).notices = s.notices := rfl
@[simp] theorem State.setHostMem_agenda (m : Memory) : (s.setHostMem m).agenda = s.agenda := rfl

@[simp] theorem State.setPeer_params (c : Peer) : (s.setPeer c).params = s.params := rfl
@[simp] theorem State.setPeer_bus (c : Peer) : (s.setPeer c).bus = s.bus := rfl
@[simp] theorem State.setPeer_txn (c : Peer) : (s.setPeer c).txn = s.txn := rfl
@[simp] theorem State.setPeer_spi (c : Peer) : (s.setPeer c).spi = s.spi := rfl
@[simp] theorem State.setPeer_irqMasked (c : Peer) : (s.setPeer c).irqMasked = s.irqMasked := rfl
@[simp] theorem State.setPeer_ctl (c : Peer) : (s.setPeer c).ctl = s.ctl := rfl
@[simp] theorem State.setPeer_fg (c : Peer) : (s.setPeer c).fg = s.fg := rfl
@[simp] theorem State.setPeer_wire (c : Peer) : (s.setPeer c).wire = s.wire := rfl
@[simp] theorem State.setPeer_replies (c : Peer) : (s.setPeer c).replies = s.replies := rfl
@[simp] theorem State.setPeer_hostMem (c : Peer) : (s.setPeer c).hostMem = s.hostMem := rfl
@[simp] theorem State.setPeer_peer (c : Peer) : (s.setPeer c).peer = c := rfl
@[simp] theorem State.setPeer_wireEnd (c : Peer) : (s.setPeer c).wireEnd = s.wireEnd := rfl
@[simp] theorem State.setPeer_answers (c : Peer) : (s.setPeer c).answers = s.answers := rfl
@[simp] theorem State.setPeer_draws (c : Peer) : (s.setPeer c).draws = s.draws := rfl
@[simp] theorem State.setPeer_busUp (c : Peer) : (s.setPeer c).busUp = s.busUp := rfl
@[simp] theorem State.setPeer_plan (c : Peer) : (s.setPeer c).plan = s.plan := rfl
@[simp] theorem State.setPeer_notices (c : Peer) : (s.setPeer c).notices = s.notices := rfl
@[simp] theorem State.setPeer_agenda (c : Peer) : (s.setPeer c).agenda = s.agenda := rfl

@[simp] theorem State.setAnswers_params (a : List Byte) : (s.setAnswers a).params = s.params := rfl
@[simp] theorem State.setAnswers_bus (a : List Byte) : (s.setAnswers a).bus = s.bus := rfl
@[simp] theorem State.setAnswers_txn (a : List Byte) : (s.setAnswers a).txn = s.txn := rfl
@[simp] theorem State.setAnswers_spi (a : List Byte) : (s.setAnswers a).spi = s.spi := rfl
@[simp] theorem State.setAnswers_irqMasked (a : List Byte) : (s.setAnswers a).irqMasked = s.irqMasked := rfl
@[simp] theorem State.setAnswers_ctl (a : List Byte) : (s.setAnswers a).ctl = s.ctl := rfl
@[simp] theorem State.setAnswers_fg (a : List Byte) : (s.setAnswers a).fg = s.fg := rfl
@[simp] theorem State.setAnswers_wire (a : List Byte) : (s.setAnswers a).wire = s.wire := rfl
@[simp] theorem State.setAnswers_replies (a : List Byte) : (s.setAnswers a).replies = s.replies := rfl
@[simp] theorem State.setAnswers_hostMem (a : List Byte) : (s.setAnswers a).hostMem = s.hostMem := rfl
@[simp] theorem State.setAnswers_peer (a : List Byte) : (s.setAnswers a).peer = s.peer := rfl
@[simp] theorem State.setAnswers_wireEnd (a : List Byte) : (s.setAnswers a).wireEnd = s.wireEnd := rfl
@[simp] theorem State.setAnswers_answers (a : List Byte) : (s.setAnswers a).answers = a := rfl
@[simp] theorem State.setAnswers_draws (a : List Byte) : (s.setAnswers a).draws = s.draws := rfl
@[simp] theorem State.setAnswers_busUp (a : List Byte) : (s.setAnswers a).busUp = s.busUp := rfl
@[simp] theorem State.setAnswers_plan (a : List Byte) : (s.setAnswers a).plan = s.plan := rfl
@[simp] theorem State.setAnswers_notices (a : List Byte) : (s.setAnswers a).notices = s.notices := rfl
@[simp] theorem State.setAnswers_agenda (a : List Byte) : (s.setAnswers a).agenda = s.agenda := rfl

@[simp] theorem State.draw_params (n : Nat) : (s.draw n).params = s.params := rfl
@[simp] theorem State.draw_bus (n : Nat) : (s.draw n).bus = s.bus := rfl
@[simp] theorem State.draw_txn (n : Nat) : (s.draw n).txn = s.txn := rfl
@[simp] theorem State.draw_spi (n : Nat) : (s.draw n).spi = s.spi := rfl
@[simp] theorem State.draw_irqMasked (n : Nat) : (s.draw n).irqMasked = s.irqMasked := rfl
@[simp] theorem State.draw_ctl (n : Nat) : (s.draw n).ctl = s.ctl := rfl
@[simp] theorem State.draw_fg (n : Nat) : (s.draw n).fg = s.fg := rfl
@[simp] theorem State.draw_wire (n : Nat) : (s.draw n).wire = s.wire := rfl
@[simp] theorem State.draw_replies (n : Nat) : (s.draw n).replies = s.replies := rfl
@[simp] theorem State.draw_hostMem (n : Nat) : (s.draw n).hostMem = s.hostMem := rfl
@[simp] theorem State.draw_peer (n : Nat) : (s.draw n).peer = s.peer := rfl
@[simp] theorem State.draw_wireEnd (n : Nat) : (s.draw n).wireEnd = s.wireEnd := rfl
@[simp] theorem State.draw_answers (n : Nat) : (s.draw n).answers = s.answers := rfl
@[simp] theorem State.draw_draws (n : Nat) : (s.draw n).draws = s.draws + n := rfl
@[simp] theorem State.draw_busUp (n : Nat) : (s.draw n).busUp = s.busUp := rfl
@[simp] theorem State.draw_plan (n : Nat) : (s.draw n).plan = s.plan := rfl
@[simp] theorem State.draw_notices (n : Nat) : (s.draw n).notices = s.notices := rfl
@[simp] theorem State.draw_agenda (n : Nat) : (s.draw n).agenda = s.agenda := rfl

@[simp] theorem State.setBusUp_params (b : Bool) : (s.setBusUp b).params = s.params := rfl
@[simp] theorem State.setBusUp_bus (b : Bool) : (s.setBusUp b).bus = s.bus := rfl
@[simp] theorem State.setBusUp_txn (b : Bool) : (s.setBusUp b).txn = s.txn := rfl
@[simp] theorem State.setBusUp_spi (b : Bool) : (s.setBusUp b).spi = s.spi := rfl
@[simp] theorem State.setBusUp_irqMasked (b : Bool) : (s.setBusUp b).irqMasked = s.irqMasked := rfl
@[simp] theorem State.setBusUp_ctl (b : Bool) : (s.setBusUp b).ctl = s.ctl := rfl
@[simp] theorem State.setBusUp_fg (b : Bool) : (s.setBusUp b).fg = s.fg := rfl
@[simp] theorem State.setBusUp_wire (b : Bool) : (s.setBusUp b).wire = s.wire := rfl
@[simp] theorem State.setBusUp_replies (b : Bool) : (s.setBusUp b).replies = s.replies := rfl
@[simp] theorem State.setBusUp_hostMem (b : Bool) : (s.setBusUp b).hostMem = s.hostMem := rfl
@[simp] theorem State.setBusUp_peer (b : Bool) : (s.setBusUp b).peer = s.peer := rfl
@[simp] theorem State.setBusUp_wireEnd (b : Bool) : (s.setBusUp b).wireEnd = s.wireEnd := rfl
@[simp] theorem State.setBusUp_answers (b : Bool) : (s.setBusUp b).answers = s.answers := rfl
@[simp] theorem State.setBusUp_draws (b : Bool) : (s.setBusUp b).draws = s.draws := rfl
@[simp] theorem State.setBusUp_busUp (b : Bool) : (s.setBusUp b).busUp = b := rfl
@[simp] theorem State.setBusUp_plan (b : Bool) : (s.setBusUp b).plan = s.plan := rfl
@[simp] theorem State.setBusUp_notices (b : Bool) : (s.setBusUp b).notices = s.notices := rfl
@[simp] theorem State.setBusUp_agenda (b : Bool) : (s.setBusUp b).agenda = s.agenda := rfl

@[simp] theorem State.setPlan_params (p : List (List EnvEvent)) : (s.setPlan p).params = s.params := rfl
@[simp] theorem State.setPlan_bus (p : List (List EnvEvent)) : (s.setPlan p).bus = s.bus := rfl
@[simp] theorem State.setPlan_txn (p : List (List EnvEvent)) : (s.setPlan p).txn = s.txn := rfl
@[simp] theorem State.setPlan_spi (p : List (List EnvEvent)) : (s.setPlan p).spi = s.spi := rfl
@[simp] theorem State.setPlan_irqMasked (p : List (List EnvEvent)) : (s.setPlan p).irqMasked = s.irqMasked := rfl
@[simp] theorem State.setPlan_ctl (p : List (List EnvEvent)) : (s.setPlan p).ctl = s.ctl := rfl
@[simp] theorem State.setPlan_fg (p : List (List EnvEvent)) : (s.setPlan p).fg = s.fg := rfl
@[simp] theorem State.setPlan_wire (p : List (List EnvEvent)) : (s.setPlan p).wire = s.wire := rfl
@[simp] theorem State.setPlan_replies (p : List (List EnvEvent)) : (s.setPlan p).replies = s.replies := rfl
@[simp] theorem State.setPlan_hostMem (p : List (List EnvEvent)) : (s.setPlan p).hostMem = s.hostMem := rfl
@[simp] theorem State.setPlan_peer (p : List (List EnvEvent)) : (s.setPlan p).peer = s.peer := rfl
@[simp] theorem State.setPlan_wireEnd (p : List (List EnvEvent)) : (s.setPlan p).wireEnd = s.wireEnd := rfl
@[simp] theorem State.setPlan_answers (p : List (List EnvEvent)) : (s.setPlan p).answers = s.answers := rfl
@[simp] theorem State.setPlan_draws (p : List (List EnvEvent)) : (s.setPlan p).draws = s.draws := rfl
@[simp] theorem State.setPlan_busUp (p : List (List EnvEvent)) : (s.setPlan p).busUp = s.busUp := rfl
@[simp] theorem State.setPlan_plan (p : List (List EnvEvent)) : (s.setPlan p).plan = p := rfl
@[simp] theorem State.setPlan_notices (p : List (List EnvEvent)) : (s.setPlan p).notices = s.notices := rfl
@[simp] theorem State.setPlan_agenda (p : List (List EnvEvent)) : (s.setPlan p).agenda = s.agenda := rfl

@[simp] theorem State.setNotices_params (n : List Notice) : (s.setNotices n).params = s.params := rfl
@[simp] theorem State.setNotices_bus (n : List Notice) : (s.setNotices n).bus = s.bus := rfl
@[simp] theorem State.setNotices_txn (n : List Notice) : (s.setNotices n).txn = s.txn := rfl
@[simp] theorem State.setNotices_spi (n : List Notice) : (s.setNotices n).spi = s.spi := rfl
@[simp] theorem State.setNotices_irqMasked (n : List Notice) : (s.setNotices n).irqMasked = s.irqMasked := rfl
@[simp] theorem State.setNotices_ctl (n : List Notice) : (s.setNotices n).ctl = s.ctl := rfl
@[simp] theorem State.setNotices_fg (n : List Notice) : (s.setNotices n).fg = s.fg := rfl
@[simp] theorem State.setNotices_wire (n : List Notice) : (s.setNotices n).wire = s.wire := rfl
@[simp] theorem State.setNotices_replies (n : List Notice) : (s.setNotices n).replies = s.replies := rfl
@[simp] theorem State.setNotices_hostMem (n : List Notice) : (s.setNotices n).hostMem = s.hostMem := rfl
@[simp] theorem State.setNotices_peer (n : List Notice) : (s.setNotices n).peer = s.peer := rfl
@[simp] theorem State.setNotices_wireEnd (n : List Notice) : (s.setNotices n).wireEnd = s.wireEnd := rfl
@[simp] theorem State.setNotices_answers (n : List Notice) : (s.setNotices n).answers = s.answers := rfl
@[simp] theorem State.setNotices_draws (n : List Notice) : (s.setNotices n).draws = s.draws := rfl
@[simp] theorem State.setNotices_busUp (n : List Notice) : (s.setNotices n).busUp = s.busUp := rfl
@[simp] theorem State.setNotices_plan (n : List Notice) : (s.setNotices n).plan = s.plan := rfl
@[simp] theorem State.setNotices_notices (n : List Notice) : (s.setNotices n).notices = n := rfl
@[simp] theorem State.setNotices_agenda (n : List Notice) : (s.setNotices n).agenda = s.agenda := rfl

@[simp] theorem State.setAgenda_params (a : List Item) : (s.setAgenda a).params = s.params := rfl
@[simp] theorem State.setAgenda_bus (a : List Item) : (s.setAgenda a).bus = s.bus := rfl
@[simp] theorem State.setAgenda_txn (a : List Item) : (s.setAgenda a).txn = s.txn := rfl
@[simp] theorem State.setAgenda_spi (a : List Item) : (s.setAgenda a).spi = s.spi := rfl
@[simp] theorem State.setAgenda_irqMasked (a : List Item) : (s.setAgenda a).irqMasked = s.irqMasked := rfl
@[simp] theorem State.setAgenda_ctl (a : List Item) : (s.setAgenda a).ctl = s.ctl := rfl
@[simp] theorem State.setAgenda_fg (a : List Item) : (s.setAgenda a).fg = s.fg := rfl
@[simp] theorem State.setAgenda_wire (a : List Item) : (s.setAgenda a).wire = s.wire := rfl
@[simp] theorem State.setAgenda_replies (a : List Item) : (s.setAgenda a).replies = s.replies := rfl
@[simp] theorem State.setAgenda_hostMem (a : List Item) : (s.setAgenda a).hostMem = s.hostMem := rfl
@[simp] theorem State.setAgenda_peer (a : List Item) : (s.setAgenda a).peer = s.peer := rfl
@[simp] theorem State.setAgenda_wireEnd (a : List Item) : (s.setAgenda a).wireEnd = s.wireEnd := rfl
@[simp] theorem State.setAgenda_answers (a : List Item) : (s.setAgenda a).answers = s.answers := rfl
@[simp] theorem State.setAgenda_draws (a : List Item) : (s.setAgenda a).draws = s.draws := rfl
@[simp] theorem State.setAgenda_busUp (a : List Item) : (s.setAgenda a).busUp = s.busUp := rfl
@[simp] theorem State.setAgenda_plan (a : List Item) : (s.setAgenda a).plan = s.plan := rfl
@[simp] theorem State.setAgenda_notices (a : List Item) : (s.setAgenda a).notices = s.notices := rfl
@[simp] theorem State.setAgenda_agenda (a : List Item) : (s.setAgenda a).agenda = a := rfl

@[simp] theorem State.setCtlState_params (c : CtlState) : (s.setCtlState c).params = s.params := rfl
@[simp] theorem State.setCtlState_bus (c : CtlState) : (s.setCtlState c).bus = s.bus := rfl
@[simp] theorem State.setCtlState_txn (c : CtlState) : (s.setCtlState c).txn = s.txn := rfl
@[simp] theorem State.setCtlState_spi (c : CtlState) : (s.setCtlState c).spi = s.spi := rfl
@[simp] theorem State.setCtlState_irqMasked (c : CtlState) : (s.setCtlState c).irqMasked = s.irqMasked := rfl
@[simp] theorem State.setCtlState_ctl (c : CtlState) : (s.setCtlState c).ctl = { s.ctl with state := c } := rfl
@[simp] theorem State.setCtlState_fg (c : CtlState) : (s.setCtlState c).fg = s.fg := rfl
@[simp] theorem State.setCtlState_wire (c : CtlState) : (s.setCtlState c).wire = s.wire := rfl
@[simp] theorem State.setCtlState_replies (c : CtlState) : (s.setCtlState c).replies = s.replies := rfl
@[simp] theorem State.setCtlState_hostMem (c : CtlState) : (s.setCtlState c).hostMem = s.hostMem := rfl
@[simp] theorem State.setCtlState_peer (c : CtlState) : (s.setCtlState c).peer = s.peer := rfl
@[simp] theorem State.setCtlState_wireEnd (c : CtlState) : (s.setCtlState c).wireEnd = s.wireEnd := rfl
@[simp] theorem State.setCtlState_answers (c : CtlState) : (s.setCtlState c).answers = s.answers := rfl
@[simp] theorem State.setCtlState_draws (c : CtlState) : (s.setCtlState c).draws = s.draws := rfl
@[simp] theorem State.setCtlState_busUp (c : CtlState) : (s.setCtlState c).busUp = s.busUp := rfl
@[simp] theorem State.setCtlState_plan (c : CtlState) : (s.setCtlState c).plan = s.plan := rfl
@[simp] theorem State.setCtlState_notices (c : CtlState) : (s.setCtlState c).notices = s.notices := rfl
@[simp] theorem State.setCtlState_agenda (c : CtlState) : (s.setCtlState c).agenda = s.agenda := rfl

@[simp] theorem State.setBank_params (b : BitVec 2) : (s.setBank b).params = s.params := rfl
@[simp] theorem State.setBank_bus (b : BitVec 2) : (s.setBank b).bus = s.bus := rfl
@[simp] theorem State.setBank_txn (b : BitVec 2) : (s.setBank b).txn = s.txn := rfl
@[simp] theorem State.setBank_spi (b : BitVec 2) : (s.setBank b).spi = s.spi := rfl
@[simp] theorem State.setBank_irqMasked (b : BitVec 2) : (s.setBank b).irqMasked = s.irqMasked := rfl
@[simp] theorem State.setBank_ctl (b : BitVec 2) : (s.setBank b).ctl = { s.ctl with currentBank := b } := rfl
@[simp] theorem State.setBank_fg (b : BitVec 2) : (s.setBank b).fg = s.fg := rfl
@[simp] theorem State.setBank_wire (b : BitVec 2) : (s.setBank b).wire = s.wire := rfl
@[simp] theorem State.setBank_replies (b : BitVec 2) : (s.setBank b).replies = s.replies := rfl
@[simp] theorem State.setBank_hostMem (b : BitVec 2) : (s.setBank b).hostMem = s.hostMem := rfl
@[simp] theorem State.setBank_peer (b : BitVec 2) : (s.setBank b).peer = s.peer := rfl
@[simp] theorem State.setBank_wireEnd (b : BitVec 2) : (s.setBank b).wireEnd = s.wireEnd := rfl
@[simp] theorem State.setBank_answers (b : BitVec 2) : (s.setBank b).answers = s.answers := rfl
@[simp] theorem State.setBank_draws (b : BitVec 2) : (s.setBank b).draws = s.draws := rfl
@[simp] theorem State.setBank_busUp (b : BitVec 2) : (s.setBank b).busUp = s.busUp := rfl
@[simp] theorem State.setBank_plan (b : BitVec 2) : (s.setBank b).plan = s.plan := rfl
@[simp] theorem State.setBank_notices (b : BitVec 2) : (s.setBank b).notices = s.notices := rfl
@[simp] theorem State.setBank_agenda (b : BitVec 2) : (s.setBank b).agenda = s.agenda := rfl

end Sys2Proof.Machine
end

