-- ==== Sys2Proof/Laws/Memory.lean ====
section
/-! SUPPORT. Memory: every operation keeps the canonical form; a read after a write gives the byte written at that address
and what was there before at every other. -/

namespace Sys2Proof.Machine

theorem Memory.rising_cons (c : Host.Cell) (m : Memory) :
    Memory.rising (c :: m) = true ↔ (∀ d ∈ m, c.1 < d.1) ∧ Memory.rising m = true := by
  simp [Memory.rising]

/-- A store repeated is one store. -/
theorem Memory.write_write (sp : Space) (m : Memory) (a : Nat) (b : Byte) :
    Memory.write sp (Memory.write sp m a b) a b = Memory.write sp m a b := by
  unfold Memory.write
  split
  · induction m with
    | nil => rfl
    | cons c m ih => by_cases h : c.1 = a <;> simp [Memory.erase, h, ih]
  · induction m with
    | nil => simp [Memory.insert]
    | cons c m ih =>
      simp only [Memory.insert]
      split
      · simp [Memory.insert]
      · split
        · simp [Memory.insert]
        · rename_i h h'; simp [Memory.insert, h, h', ih]

theorem Memory.mem_erase {a : Nat} {m : Memory} {d : Host.Cell} (h : d ∈ Memory.erase a m) : d ∈ m := by
  induction m with
  | nil => simp [Memory.erase] at h
  | cons c m ih =>
    simp only [Memory.erase] at h
    split at h
    · exact List.mem_cons_of_mem _ (ih h)
    · rcases List.mem_cons.1 h with rfl | h
      · exact List.mem_cons_self
      · exact List.mem_cons_of_mem _ (ih h)

theorem Memory.mem_insert {a : Nat} {b : Byte} {m : Memory} {d : Host.Cell} (h : d ∈ Memory.insert a b m) :
    d = (a, b) ∨ d ∈ m := by
  induction m with
  | nil => simpa [Memory.insert] using h
  | cons c m ih =>
    simp only [Memory.insert] at h
    split at h
    · simpa using h
    · split at h
      · rcases List.mem_cons.1 h with h | h
        · exact .inl h
        · exact .inr (List.mem_cons_of_mem _ h)
      · rcases List.mem_cons.1 h with rfl | h
        · exact .inr List.mem_cons_self
        · exact (ih h).imp id (List.mem_cons_of_mem _)

theorem Memory.rising_erase (a : Nat) (m : Memory) (h : Memory.rising m = true) :
    Memory.rising (Memory.erase a m) = true := by
  induction m with
  | nil => rfl
  | cons c m ih =>
    rw [Memory.rising_cons] at h
    simp only [Memory.erase]
    split
    · exact ih h.2
    · exact (Memory.rising_cons _ _).2 ⟨fun d hd => h.1 d (Memory.mem_erase hd), ih h.2⟩

theorem Memory.rising_insert (a : Nat) (b : Byte) (m : Memory) (h : Memory.rising m = true) :
    Memory.rising (Memory.insert a b m) = true := by
  induction m with
  | nil => rfl
  | cons c m ih =>
    have h' := (Memory.rising_cons _ _).1 h
    simp only [Memory.insert]
    split
    · rename_i hlt
      refine (Memory.rising_cons _ _).2 ⟨fun d hd => ?_, h⟩
      rcases List.mem_cons.1 hd with rfl | hd
      · exact hlt
      · exact Nat.lt_trans hlt (h'.1 d hd)
    · split
      · rename_i heq
        exact (Memory.rising_cons _ _).2 ⟨fun d hd => by simpa [heq] using h'.1 d hd, h'.2⟩
      · refine (Memory.rising_cons _ _).2 ⟨fun d hd => ?_, ih h'.2⟩
        rcases Memory.mem_insert hd with rfl | hd
        · show c.1 < a
          omega
        · exact h'.1 d hd

theorem Memory.wf_iff (sp : Space) (m : Memory) :
    Memory.wf sp m = true ↔ Memory.rising m = true ∧ ∀ c ∈ m, Memory.unlisted sp ≠ some c.2 := by
  simp [Memory.wf]

theorem Memory.wf_nil (sp : Space) : Memory.wf sp [] = true := rfl

theorem Memory.wf_erase (sp : Space) (a : Nat) (m : Memory) (h : Memory.wf sp m = true) :
    Memory.wf sp (Memory.erase a m) = true := by
  rw [Memory.wf_iff] at h ⊢
  exact ⟨Memory.rising_erase a m h.1, fun c hc => h.2 c (Memory.mem_erase hc)⟩

/-- A write keeps the canonical form. -/
theorem Memory.wf_write (sp : Space) (m : Memory) (a : Nat) (b : Byte) (h : Memory.wf sp m = true) :
    Memory.wf sp (Memory.write sp m a b) = true := by
  unfold Memory.write
  split
  · exact Memory.wf_erase sp a m h
  · rename_i hne
    rw [Memory.wf_iff] at h ⊢
    refine ⟨Memory.rising_insert a b m h.1, fun c hc => ?_⟩
    rcases Memory.mem_insert hc with rfl | hc
    · exact hne
    · exact h.2 c hc

/-- Freeing keeps the canonical form. -/
theorem Memory.wf_free (sp : Space) (a n : Nat) (m : Memory) (h : Memory.wf sp m = true) :
    Memory.wf sp (Memory.free m a n) = true := by
  induction n generalizing m with
  | zero => exact h
  | succ n ih => exact ih _ (Memory.wf_erase sp _ m h)

theorem Memory.find_erase_self (a : Nat) (m : Memory) : Memory.find a (Memory.erase a m) = none := by
  induction m with
  | nil => rfl
  | cons c m ih => by_cases h : c.1 = a <;> simp [Memory.erase, Memory.find, h, ih]

theorem Memory.find_erase_ne {a a' : Nat} (h : a' ≠ a) (m : Memory) :
    Memory.find a' (Memory.erase a m) = Memory.find a' m := by
  induction m with
  | nil => rfl
  | cons c m ih =>
    by_cases hc : c.1 = a
    · have h' : a ≠ a' := Ne.symm h
      simp [Memory.erase, Memory.find, hc, ih, h']
    · simp [Memory.erase, Memory.find, hc, ih]

theorem Memory.find_insert_self (a : Nat) (b : Byte) (m : Memory) : Memory.find a (Memory.insert a b m) = some b := by
  induction m with
  | nil => simp [Memory.insert, Memory.find]
  | cons c m ih =>
    simp only [Memory.insert]
    split
    · simp [Memory.find]
    · split
      · simp [Memory.find]
      · rename_i h
        have h' : c.1 ≠ a := Ne.symm h
        simp [Memory.find, ih, h']

theorem Memory.find_insert_ne {a a' : Nat} (h : a' ≠ a) (b : Byte) (m : Memory) :
    Memory.find a' (Memory.insert a b m) = Memory.find a' m := by
  have h' : a ≠ a' := fun e => h e.symm
  induction m with
  | nil => simp [Memory.insert, Memory.find, h']
  | cons c m ih =>
    simp only [Memory.insert]
    split
    · simp [Memory.find, h']
    · split
      · rename_i hc
        simp [Memory.find, h', ← hc]
      · simp [Memory.find, ih]

/-- A read after a write to the same address gives the byte written. -/
theorem Memory.read_write_self (sp : Space) (m : Memory) (a : Nat) (b : Byte) :
    Memory.read sp (Memory.write sp m a b) a = some b := by
  unfold Memory.write
  split
  · rename_i h
    simp [Memory.read, Memory.find_erase_self, h]
  · simp [Memory.read, Memory.find_insert_self]

/-- A write leaves every other address as it was. -/
theorem Memory.read_write_ne (sp : Space) (m : Memory) {a a' : Nat} (h : a' ≠ a) (b : Byte) :
    Memory.read sp (Memory.write sp m a b) a' = Memory.read sp m a' := by
  unfold Memory.write
  split
  · simp [Memory.read, Memory.find_erase_ne h]
  · simp [Memory.read, Memory.find_insert_ne h]

end Sys2Proof.Machine
end

