-- ==== Sys2Proof/Laws/Flow.lean ====
section
/-! SUPPORT. How operations compose: a sequence returns, hangs or faults as its parts do; a property kept by the parts is
kept by the whole. -/

namespace Sys2Proof.Machine

variable {α β : Type}

@[simp] theorem Flow.bind_done (a : α) (s : State) (k : α → State → Flow β) : (Flow.done a s).bind k = k a s := rfl
@[simp] theorem Flow.bind_hang (s : State) (k : α → State → Flow β) : (Flow.hang s).bind k = .hang s := rfl
@[simp] theorem Flow.bind_fault (e : Fault) (k : α → State → Flow β) : (Flow.fault e).bind k = .fault e := rfl

@[simp] theorem Flow.finish_done (reply : α → Reply) (a : α) (s : State) :
    (Flow.done a s).finish reply = .next (s.addReply (reply a)) := rfl
@[simp] theorem Flow.finish_hang (reply : α → Reply) (s : State) :
    (Flow.hang s).finish reply = .next (s.setFg .hung) := rfl
@[simp] theorem Flow.finish_fault (reply : α → Reply) (e : Fault) : (Flow.fault e).finish reply = .fault e := rfl

/-- The state an operation leaves, returned or stuck, has `P`. -/
def Flow.All (P : State → Prop) : Flow α → Prop
  | .done _ s => P s
  | .hang s => P s
  | .fault _ => True

theorem Flow.All.done {P : State → Prop} {s : State} (a : α) (h : P s) : (Flow.done a s).All P := h

theorem Flow.All.bind {P : State → Prop} {f : Flow α} {k : α → State → Flow β} (hf : f.All P)
    (hk : ∀ a s, P s → (k a s).All P) : (f.bind k).All P := by
  cases f with
  | done a s => exact hk a s hf
  | hang s => exact hf
  | fault e => trivial

theorem Flow.All.imp {P Q : State → Prop} {f : Flow α} (hf : f.All P) (h : ∀ s, P s → Q s) : f.All Q := by
  cases f with
  | done a s => exact h s hf
  | hang s => exact h s hf
  | fault e => trivial

/-- What a next state after an operation is: the result returned on a state with `P`, or such a state with FG stuck. -/
theorem Flow.All.of_finish {P : State → Prop} {f : Flow α} {reply : α → Reply} {t : State} (hf : f.All P)
    (h : f.finish reply = .next t) : ∃ u, P u ∧ ((∃ a, t = u.addReply (reply a)) ∨ t = u.setFg .hung) := by
  cases f with
  | done a s =>
    cases h
    exact ⟨s, hf, .inl ⟨a, rfl⟩⟩
  | hang s =>
    cases h
    exact ⟨s, hf, .inr rfl⟩
  | fault e => cases h

/-- A sequence that has returned: its first part has, and then the rest. -/
theorem Flow.of_bind_done {f : Flow α} {k : α → State → Flow β} {b : β} {t : State} (h : f.bind k = .done b t) :
    ∃ a s, f = .done a s ∧ k a s = .done b t := by
  cases f with
  | done a s => exact ⟨a, s, rfl, h⟩
  | hang s => cases h
  | fault e => cases h

/-- An operation after which FG is free has returned. -/
theorem Flow.of_finish_running {f : Flow α} {reply : α → Reply} {t : State} (h : f.finish reply = .next t)
    (hr : t.fg = .running) : ∃ a u, f = .done a u ∧ t = u.addReply (reply a) := by
  cases f with
  | done a u => cases h; exact ⟨a, u, rfl, rfl⟩
  | hang u => cases h; cases hr
  | fault e => cases h

end Sys2Proof.Machine
end

