-- ==== Sys2Proof/Laws/Env.lean ====
section
/-! SUPPORT. What ENV can change: the peer, host memory, the notifications, the bus and the pending event; nothing else.
What waiting for the bus does (40 R112). -/

namespace Sys2Proof.Machine

/-- Everything ENV leaves alone during an operation. -/
structure EnvOnly (s t : State) : Prop where
  params : t.params = s.params
  bus : t.bus = s.bus
  txn : t.txn = s.txn
  spi : t.spi = { s.spi with byteReady := t.spi.byteReady }
  irqMasked : t.irqMasked = s.irqMasked
  ctl : t.ctl = s.ctl
  fg : t.fg = s.fg
  wire : t.wire = s.wire
  replies : t.replies = s.replies
  wireEnd : t.wireEnd = s.wireEnd
  answers : t.answers = s.answers
  draws : t.draws = s.draws
  agenda : t.agenda = s.agenda

theorem EnvOnly.refl (s : State) : EnvOnly s s := by constructor <;> rfl

theorem EnvOnly.trans {s t u : State} (h : EnvOnly s t) (h' : EnvOnly t u) : EnvOnly s u := by
  constructor
  · exact h'.params.trans h.params
  · exact h'.bus.trans h.bus
  · exact h'.txn.trans h.txn
  · rw [h'.spi, h.spi]
  · exact h'.irqMasked.trans h.irqMasked
  · exact h'.ctl.trans h.ctl
  · exact h'.fg.trans h.fg
  · exact h'.wire.trans h.wire
  · exact h'.replies.trans h.replies
  · exact h'.wireEnd.trans h.wireEnd
  · exact h'.answers.trans h.answers
  · exact h'.draws.trans h.draws
  · exact h'.agenda.trans h.agenda

theorem EnvOnly.txIE {s t : State} (h : EnvOnly s t) : t.spi.txIE = s.spi.txIE := by rw [h.spi]

/-- Once for ENV: one action changes only what ENV may change, leaves the plan, and the bus as `busUpAfter` says. -/
theorem applyEvent_spec (s : State) (e : EnvEvent) :
    EnvOnly s (applyEvent s e) ∧ (applyEvent s e).plan = s.plan ∧ (applyEvent s e).busUp = busUpAfter s.busUp [e] := by
  cases e with
  | byteReady =>
    by_cases h : (s.spi.txIE || s.irqMasked) = true
    · simp only [applyEvent, raiseByteReady, h, if_true]
      exact ⟨by constructor <;> rfl, rfl, rfl⟩
    · simp only [applyEvent, raiseByteReady, h]
      exact ⟨EnvOnly.refl s, rfl, rfl⟩
  | peerTxDone =>
    by_cases h : s.peer.transmitting s.params = true
    · simp only [applyEvent, peerTxDone, h, if_true]
      exact ⟨by constructor <;> rfl, rfl, rfl⟩
    · simp only [applyEvent, peerTxDone, h]
      exact ⟨EnvOnly.refl s, rfl, rfl⟩
  | busStuck => exact ⟨by constructor <;> rfl, rfl, rfl⟩
  | busResponds => exact ⟨by constructor <;> rfl, rfl, rfl⟩
  | peerDeliver _ => exact ⟨by constructor <;> rfl, rfl, rfl⟩
  | setLink _ => exact ⟨by constructor <;> rfl, rfl, rfl⟩
  | setReadyDelay _ => exact ⟨by constructor <;> rfl, rfl, rfl⟩
  | hostStore _ _ => exact ⟨by constructor <;> rfl, rfl, rfl⟩
  | hostFree _ _ => exact ⟨by constructor <;> rfl, rfl, rfl⟩
  | notify _ => exact ⟨by constructor <;> rfl, rfl, rfl⟩

theorem busUpAfter_cons (up : Bool) (e : EnvEvent) (es : List EnvEvent) :
    busUpAfter up (e :: es) = busUpAfter (busUpAfter up [e]) es := by
  cases e <;> rfl

theorem busUpAfter_append (up : Bool) (es fs : List EnvEvent) :
    busUpAfter up (es ++ fs) = busUpAfter (busUpAfter up es) fs := by
  induction es generalizing up with
  | nil => rfl
  | cons e es ih => rw [List.cons_append, busUpAfter_cons, ih, ← busUpAfter_cons]

theorem applyEvents_cons (e : EnvEvent) (es : List EnvEvent) (s : State) :
    applyEvents (e :: es) s = applyEvents es (applyEvent s e) := rfl

theorem applyEvents_spec (es : List EnvEvent) (s : State) :
    EnvOnly s (applyEvents es s) ∧ (applyEvents es s).plan = s.plan
      ∧ (applyEvents es s).busUp = busUpAfter s.busUp es := by
  induction es generalizing s with
  | nil => exact ⟨EnvOnly.refl s, rfl, rfl⟩
  | cons e es ih =>
    obtain ⟨h1, h2, h3⟩ := applyEvent_spec s e
    obtain ⟨g1, g2, g3⟩ := ih (applyEvent s e)
    rw [applyEvents_cons]
    refine ⟨h1.trans g1, g2.trans h2, ?_⟩
    rw [g3, h3, ← busUpAfter_cons]

theorem EnvOnly.setPlan (s : State) (p : List (List EnvEvent)) : EnvOnly s (s.setPlan p) := by constructor <;> rfl

theorem State.setPlan_self {s : State} {p : List (List EnvEvent)} (h : s.plan = p) : s.setPlan p = s := by
  subst h; rfl

/-- Waiting, returned or stuck for ever, changes only what ENV may change. -/
theorem awaitBus_envOnly (plan : List (List EnvEvent)) (s : State) : (awaitBus plan s).All (EnvOnly s) := by
  induction plan generalizing s with
  | nil =>
    unfold awaitBus
    split <;> exact EnvOnly.setPlan s []
  | cons es rest ih =>
    unfold awaitBus
    split
    · exact (applyEvents_spec es s).1.trans (EnvOnly.setPlan _ rest)
    · exact (ih _).imp fun t ht => (applyEvents_spec es s).1.trans ht

/-- Waiting ends, with the bus answering, exactly if the bus answers in the end. -/
theorem awaitBus_returns (plan : List (List EnvEvent)) (s : State) (h : busUpAfter s.busUp plan.flatten = true) :
    ∃ t, awaitBus plan s = .done () t ∧ t.busUp = true ∧ BusResponsive t := by
  induction plan generalizing s with
  | nil =>
    have h : s.busUp = true := h
    exact ⟨s.setPlan [], by simp [awaitBus, h], h, h⟩
  | cons es rest ih =>
    have hup := (applyEvents_spec es s).2.2
    rw [List.flatten_cons, busUpAfter_append, ← hup] at h
    by_cases hu : (applyEvents es s).busUp = true
    · exact ⟨(applyEvents es s).setPlan rest, by simp [awaitBus, hu], hu, h⟩
    · obtain ⟨t, ht⟩ := ih _ h
      exact ⟨t, by simp [awaitBus, hu, ht.1], ht.2⟩

/-- A bus that does not answer in the end leaves FG without a step. -/
theorem awaitBus_hangs (plan : List (List EnvEvent)) (s : State) (hdown : s.busUp = false)
    (h : ∀ es ∈ plan, .busResponds ∉ es) : ∃ t, awaitBus plan s = .hang t ∧ EnvOnly s t := by
  have down : ∀ (es : List EnvEvent), EnvEvent.busResponds ∉ es → busUpAfter false es = false := by
    intro es
    induction es with
    | nil => intro _; rfl
    | cons e es ih =>
      intro hm
      cases e <;> simp_all [busUpAfter]
  have key : ∃ t, awaitBus plan s = .hang t := by
    induction plan generalizing s with
    | nil => exact ⟨s.setPlan [], by simp [awaitBus, hdown]⟩
    | cons es rest ih =>
      have hup : (applyEvents es s).busUp = false := by
        rw [(applyEvents_spec es s).2.2, hdown]
        exact down es (h es List.mem_cons_self)
      obtain ⟨t, ht⟩ := ih (applyEvents es s) hup fun fs hf => h fs (List.mem_cons_of_mem _ hf)
      exact ⟨t, by simp [awaitBus, hup, ht]⟩
  obtain ⟨t, ht⟩ := key
  have := awaitBus_envOnly plan s
  rw [ht] at this
  exact ⟨t, ht, this⟩

end Sys2Proof.Machine
end

