-- ==== Sys2Proof/Laws/Ops.lean ====
section
/-! SUPPORT. Once for each shared operation on the wire: what it does where FG may use the wire (`WireFree`), and what it
keeps whatever happens. -/

namespace Sys2Proof.Machine

variable {α β : Type}

/-- What an operation that uses only the wire keeps. -/
structure WireOnly (s t : State) : Prop where
  kept : Kept s t
  ctl : t.ctl = s.ctl
  replies : t.replies = s.replies

theorem Kept.refl (s : State) : Kept s s := by constructor <;> (try rfl); intro h; exact ⟨rfl, rfl, rfl, h⟩

theorem Kept.trans {s t u : State} (h : Kept s t) (h' : Kept t u) : Kept s u := by
  constructor
  · exact h'.params.trans h.params
  · exact h'.bus.trans h.bus
  · exact h'.txn.trans h.txn
  · exact h'.txIE.trans h.txIE
  · exact h'.irqMasked.trans h.irqMasked
  · exact h'.fg.trans h.fg
  · exact h'.agenda.trans h.agenda
  · exact h'.wireEnd.trans h.wireEnd
  · intro hp
    obtain ⟨a, b, c, d⟩ := h.env hp
    obtain ⟨a', b', c', d'⟩ := h'.env d
    exact ⟨a'.trans a, b'.trans b, c'.trans c, d'⟩

theorem WireOnly.refl (s : State) : WireOnly s s := ⟨Kept.refl s, rfl, rfl⟩

theorem WireOnly.trans {s t u : State} (h : WireOnly s t) (h' : WireOnly t u) : WireOnly s u :=
  ⟨h.kept.trans h'.kept, h'.ctl.trans h.ctl, h'.replies.trans h.replies⟩

/-- The wait of `Xchg`: ENV has acted, FG goes on with the bus answering. -/
theorem awaitBus_wireOnly (s : State) : (awaitBus s.plan s).All (WireOnly s) := by
  by_cases hp : s.plan = []
  · rw [hp]
    unfold awaitBus
    rw [State.setPlan_self hp]
    split <;> exact WireOnly.refl s
  · refine (awaitBus_envOnly s.plan s).imp fun t h => ⟨?_, h.ctl, h.replies⟩
    constructor
    · exact h.params
    · exact h.bus
    · exact h.txn
    · exact h.txIE
    · exact h.irqMasked
    · exact h.fg
    · exact h.agenda
    · exact h.wireEnd
    · intro h'; exact absurd h' hp

/-- One byte out, one byte in. -/
theorem clockByte_wireOnly (d : Byte) (s : State) : WireOnly s (clockByte d s) := by
  unfold clockByte wireEndAfter
  cases h : s.wireEnd <;> exact ⟨by constructor <;> first | rfl | exact fun hp => ⟨rfl, rfl, rfl, hp⟩, rfl, rfl⟩

@[simp] theorem clockByte_wire (d : Byte) (s : State) :
    (clockByte d s).wire = s.wire ++ [.byte d (wireAnswer d s)] := by
  unfold clockByte wireEndAfter; cases h : s.wireEnd <;> rfl

@[simp] theorem clockByte_plan (d : Byte) (s : State) : (clockByte d s).plan = s.plan := by
  unfold clockByte wireEndAfter; cases h : s.wireEnd <;> rfl

@[simp] theorem clockByte_busUp (d : Byte) (s : State) : (clockByte d s).busUp = s.busUp := by
  unfold clockByte wireEndAfter; cases h : s.wireEnd <;> rfl

@[simp] theorem clockByte_spi (d : Byte) (s : State) : (clockByte d s).spi =
    { dataOut := d, dataIn := wireAnswer d s, byteReady := false, rxAvail := false, txIE := s.spi.txIE } := by
  unfold clockByte wireEndAfter; cases h : s.wireEnd <;> rfl

theorem emitBegin_wireOnly (s : State) : WireOnly s (emitBegin s) := by
  unfold emitBegin
  cases h : s.wireEnd <;> exact ⟨by constructor <;> first | rfl | exact fun hp => ⟨rfl, rfl, rfl, hp⟩, rfl, rfl⟩

theorem emitEnd_wireOnly (s : State) : WireOnly s (emitEnd s) := by
  unfold emitEnd
  cases h : s.wireEnd <;> exact ⟨by constructor <;> first | rfl | exact fun hp => ⟨rfl, rfl, rfl, hp⟩, rfl, rfl⟩

theorem emitBegin_spec (s : State) : (emitBegin s).wire = s.wire ++ [.begin] ∧ (emitBegin s).plan = s.plan
    ∧ (emitBegin s).busUp = s.busUp := by
  unfold emitBegin; cases h : s.wireEnd <;> exact ⟨rfl, rfl, rfl⟩

theorem emitEnd_spec (s : State) : (emitEnd s).wire = s.wire ++ [.finish] ∧ (emitEnd s).plan = s.plan
    ∧ (emitEnd s).busUp = s.busUp := by
  unfold emitEnd; cases h : s.wireEnd <;> exact ⟨rfl, rfl, rfl⟩

/-- `Xchg`, returned or stuck, keeps what it does not own. -/
theorem xchg_wireOnly (d : Byte) (s : State) : (xchg d s).All (WireOnly s) :=
  (awaitBus_wireOnly s).bind fun _ t h => h.trans (clockByte_wireOnly d t)

/-- `Xchg` on a responsive bus: after ENV's actions the byte is exchanged. -/
theorem xchg_returns (d : Byte) (s : State) (h : BusResponsive s) :
    ∃ u, EnvOnly s u ∧ WireOnly s u ∧ BusResponsive u ∧ xchg d s = .done (wireAnswer d u) (clockByte d u) := by
  obtain ⟨u, hu, -, hr⟩ := awaitBus_returns s.plan s h
  have he := awaitBus_envOnly s.plan s
  have hw := awaitBus_wireOnly s
  rw [hu] at he hw
  exact ⟨u, he, hw, hr, by simp [xchg, hu]⟩

theorem unlessTransmitting_free {s : State} (h : s.bus ≠ .txBusy) (f : Flow α) : unlessTransmitting s f = f := by
  simp [unlessTransmitting, h]

theorem unlessTransmitting_fault {s : State} (h : s.bus = .txBusy) (f : Flow α) :
    unlessTransmitting s f = .fault .busInterleave := by
  simp [unlessTransmitting, h]

theorem unlessTransmitting_all {P : State → Prop} (s : State) {f : Flow α} (hf : f.All P) :
    (unlessTransmitting s f).All P := by
  unfold unlessTransmitting
  split
  · trivial
  · exact hf

theorem WireOnly.free {s t : State} (h : WireOnly s t) (hs : WireFree s) (hr : BusResponsive t) : WireFree t :=
  ⟨by rw [h.kept.bus]; exact hs.1, hr⟩

/-- `exchangeByte` where FG may use the wire (40 R111). -/
theorem exchangeByte_returns (d : Byte) (s : State) (h : WireFree s) :
    ∃ r t, exchangeByte d s = .done r t ∧ t.wire = s.wire ++ [.byte d r] ∧ WireOnly s t ∧ WireFree t
      ∧ t.spi = { dataOut := d, dataIn := r, byteReady := false, rxAvail := false, txIE := s.spi.txIE } := by
  obtain ⟨u, he, hw, hr, hx⟩ := xchg_returns d s h.2
  have hw' := hw.trans (clockByte_wireOnly d u)
  refine ⟨wireAnswer d u, clockByte d u, ?_, ?_, hw', hw'.free h ?_, ?_⟩
  · rw [exchangeByte, unlessTransmitting_free h.1, hx]
  · rw [clockByte_wire, he.wire]
  · simpa [BusResponsive] using hr
  · rw [clockByte_spi, he.txIE]

theorem exchangeByte_all (d : Byte) (s : State) : (exchangeByte d s).All (WireOnly s) :=
  unlessTransmitting_all s (xchg_wireOnly d s)

/-- Bytes in a row: each gets its answer, in order. -/
theorem exchangeAll_returns (ds : List Byte) (s : State) (h : WireFree s) :
    ∃ rs t, exchangeAll ds s = .done rs t ∧ rs.length = ds.length
      ∧ t.wire = s.wire ++ List.zipWith WireEvent.byte ds rs ∧ WireOnly s t ∧ WireFree t := by
  induction ds generalizing s with
  | nil => exact ⟨[], s, rfl, rfl, by simp, WireOnly.refl s, h⟩
  | cons d ds ih =>
    obtain ⟨r, u, hx, hwire, hk, hf, -⟩ := exchangeByte_returns d s h
    obtain ⟨rs, t, hx', hl, hwire', hk', hf'⟩ := ih u hf
    refine ⟨r :: rs, t, by simp [exchangeAll, hx, hx'], by simp [hl], ?_, hk.trans hk', hf'⟩
    simp [hwire', hwire]

theorem exchangeAll_all (ds : List Byte) (s : State) : (exchangeAll ds s).All (WireOnly s) := by
  induction ds generalizing s with
  | nil => exact WireOnly.refl s
  | cons d ds ih =>
    exact (exchangeByte_all d s).bind fun _ t ht =>
      ((ih t).imp fun u hu => ht.trans hu).bind fun _ u hu => hu

/-- One command frame (30_encoding R92, 41 R130): the events of the frame are what `W` gains. -/
theorem framed_returns (bytes : List Byte) (s : State) (h : WireFree s) :
    ∃ rs t, framed bytes s = .done rs t ∧ rs.length = bytes.length
      ∧ t.wire = s.wire ++ frameEvents bytes rs ∧ WireOnly s t ∧ WireFree t := by
  have hb := emitBegin_spec s
  have hbw := emitBegin_wireOnly s
  have hbf : WireFree (emitBegin s) := hbw.free h (by simpa [BusResponsive, hb.2.1, hb.2.2] using h.2)
  obtain ⟨rs, t, hx, hl, hwire, hk, hf⟩ := exchangeAll_returns bytes (emitBegin s) hbf
  have he := emitEnd_spec t
  have hew := emitEnd_wireOnly t
  refine ⟨rs, emitEnd t, ?_, hl, ?_, (hbw.trans hk).trans hew,
    hew.free hf (by simpa [BusResponsive, he.2.1, he.2.2] using hf.2)⟩
  · simp [framed, frameBegin, frameEnd, unlessTransmitting_free h.1, unlessTransmitting_free hf.1, hx]
  · rw [he.1, hwire, hb.1]; simp [frameEvents]

theorem framed_all (bytes : List Byte) (s : State) : (framed bytes s).All (WireOnly s) :=
  (unlessTransmitting_all s (Flow.All.done () (emitBegin_wireOnly s))).bind fun _ t ht =>
    ((exchangeAll_all bytes t).imp fun _ hu => ht.trans hu).bind fun _ u hu =>
      (unlessTransmitting_all u (Flow.All.done () (hu.trans (emitEnd_wireOnly u)))).bind fun _ _ hv => hv

/-- A frame while a transmit is in flight is the fault, before any byte moves (41 R130). -/
theorem framed_fault (bytes : List Byte) {s : State} (h : s.bus = .txBusy) : framed bytes s = .fault .busInterleave := by
  simp [framed, frameBegin, unlessTransmitting_fault h]

theorem framesEvents_append (fs gs as bs : List (List Byte)) (h : fs.length = as.length) :
    framesEvents (fs ++ gs) (as ++ bs) = framesEvents fs as ++ framesEvents gs bs := by
  induction fs generalizing as with
  | nil => cases as with
    | nil => rfl
    | cons => simp at h
  | cons f fs ih => cases as with
    | nil => simp at h
    | cons a as =>
      have h : fs.length = as.length := by simpa using h
      simp [framesEvents, ih as h]

@[simp] theorem framesEvents_single (f a : List Byte) : framesEvents [f] [a] = frameEvents f a := by
  simp [framesEvents]

theorem Answers.length {fs as : List (List Byte)} (h : Answers fs as) : fs.length = as.length := by
  simpa using (congrArg List.length h).symm

theorem Answers.append {fs gs as bs : List (List Byte)} (h : Answers fs as) (h' : Answers gs bs) :
    Answers (fs ++ gs) (as ++ bs) := by
  unfold Answers at *; simp [h, h']

theorem Answers.nil : Answers [] [] := rfl

/-- A one-frame operation as frames. -/
theorem Answers.single {f a : List Byte} (h : a.length = f.length) : Answers [f] [a] := by simp [Answers, h]

/-- `Cmd2` (41 R130): the answer is the byte received with the data byte. -/
theorem cmd2_returns (c d : Byte) (s : State) (h : WireFree s) :
    ∃ r0 r t, cmd2 c d s = .done r t ∧ t.wire = s.wire ++ frameEvents [c, d] [r0, r] ∧ WireOnly s t ∧ WireFree t := by
  obtain ⟨rs, t, hx, hl, hwire, hk, hf⟩ := framed_returns [c, d] s h
  match rs, hl with
  | [r0, r], _ => exact ⟨r0, r, t, by simp [cmd2, hx], hwire, hk, hf⟩

theorem cmd2_all (c d : Byte) (s : State) : (cmd2 c d s).All (WireOnly s) :=
  (framed_all [c, d] s).bind fun _ _ h => h

theorem cmd2_fault (c d : Byte) {s : State} (h : s.bus = .txBusy) : cmd2 c d s = .fault .busInterleave := by
  simp [cmd2, framed_fault _ h]

/-- What a bank switch and more keep: everything of `Kept`, and of `Ctl` all but the cached bank. -/
structure BankOnly (s t : State) : Prop where
  kept : Kept s t
  macAddress : t.ctl.macAddress = s.ctl.macAddress
  state : t.ctl.state = s.ctl.state
  replies : t.replies = s.replies

theorem WireOnly.bankOnly {s t : State} (h : WireOnly s t) : BankOnly s t :=
  ⟨h.kept, by rw [h.ctl], by rw [h.ctl], h.replies⟩

theorem BankOnly.refl (s : State) : BankOnly s s := (WireOnly.refl s).bankOnly

theorem BankOnly.trans {s t u : State} (h : BankOnly s t) (h' : BankOnly t u) : BankOnly s u :=
  ⟨h.kept.trans h'.kept, h'.macAddress.trans h.macAddress, h'.state.trans h.state, h'.replies.trans h.replies⟩

theorem BankOnly.setBank (s : State) (b : BitVec 2) : BankOnly s (s.setBank b) :=
  ⟨by constructor <;> first | rfl | exact fun hp => ⟨rfl, rfl, rfl, hp⟩, rfl, rfl, rfl⟩

theorem BankOnly.free {s t : State} (h : BankOnly s t) (hs : WireFree s) (hr : BusResponsive t) : WireFree t :=
  ⟨by rw [h.kept.bus]; exact hs.1, hr⟩

theorem BankOnly.ctl_eq {s t : State} (h : BankOnly s t) : t.ctl = { s.ctl with currentBank := t.ctl.currentBank } := by
  cases hc : t.ctl with
  | mk m b c =>
    have h1 := h.macAddress
    have h2 := h.state
    rw [hc] at h1 h2
    simp only at h1 h2
    rw [h1, h2]

/-- The bank-select sequence (41 R131): its frames, and the bank afterwards. -/
theorem selectBank_returns (a : RegisterAddress) (s : State) (h : WireFree s) :
    ∃ as t, selectBank a s = .done () t ∧ Answers (bankFrames s.params s.ctl.currentBank a) as
      ∧ t.wire = s.wire ++ framesEvents (bankFrames s.params s.ctl.currentBank a) as
      ∧ t.ctl.currentBank = bankAfter s.ctl.currentBank a ∧ BankOnly s t ∧ WireFree t := by
  cases a with
  | common o => exact ⟨[], s, rfl, rfl, by simp [bankFrames, framesEvents], rfl, BankOnly.refl s, h⟩
  | banked b o =>
    by_cases hb : b = s.ctl.currentBank
    · exact ⟨[], s, by simp [selectBank, hb], by simp [bankFrames, hb, Answers],
        by simp [bankFrames, hb, framesEvents], by simp [bankAfter, hb], BankOnly.refl s, h⟩
    · obtain ⟨r0, r1, u, hx, hwire, hk, hf⟩ :=
        cmd2_returns (commandByte s.params.opcBfc s.params.aEcon1.off) s.params.mBsel s h
      obtain ⟨q0, q1, t, hx', hwire', hk', hf'⟩ :=
        cmd2_returns (commandByte u.params.opcBfs u.params.aEcon1.off) (bankMask b) u hf
      refine ⟨[[r0, r1], [q0, q1]], t.setBank b, ?_, ?_, ?_, rfl,
        (hk.bankOnly.trans hk'.bankOnly).trans (BankOnly.setBank t b), ?_⟩
      · simp [selectBank, hb, hx, hx']
      · simp [bankFrames, hb, Answers]
      · simp [bankFrames, hb, framesEvents, hwire', hwire, hk.kept.params]
      · exact (BankOnly.setBank t b).free hf' hf'.2

theorem selectBank_all (a : RegisterAddress) (s : State) : (selectBank a s).All (BankOnly s) := by
  unfold selectBank
  cases a with
  | common o => exact BankOnly.refl s
  | banked b o =>
    simp only
    split
    · exact ((cmd2_all _ _ s).imp fun _ h => h.bankOnly).bind fun _ t ht =>
        ((cmd2_all _ _ t).imp fun _ h => ht.trans h.bankOnly).bind fun _ u hu => hu.trans (BankOnly.setBank u b)
    · exact BankOnly.refl s

/-- A register command after the bank-select sequence (41 R132 to R135): its frames and the byte received last. -/
theorem registerCommand_returns (opc : Byte) (a : RegisterAddress) (d : Byte) (s : State) (h : WireFree s) :
    ∃ as r0 r t, registerCommand opc a d s = .done r t
      ∧ Answers (bankFrames s.params s.ctl.currentBank a) as
      ∧ t.wire = s.wire ++ framesEvents (bankFrames s.params s.ctl.currentBank a ++ [[commandByte opc a.off, d]])
          (as ++ [[r0, r]])
      ∧ t.ctl.currentBank = bankAfter s.ctl.currentBank a ∧ BankOnly s t ∧ WireFree t := by
  obtain ⟨as, u, hx, ha, hwire, hb, hk, hf⟩ := selectBank_returns a s h
  obtain ⟨r0, r, t, hx', hwire', hk', hf'⟩ := cmd2_returns (commandByte opc a.off) d u hf
  refine ⟨as, r0, r, t, by simp [registerCommand, hx, hx'], ha, ?_, by rw [hk'.ctl, hb], hk.trans hk'.bankOnly, hf'⟩
  rw [framesEvents_append _ _ _ _ ha.length, framesEvents_single, hwire', hwire, List.append_assoc]

theorem registerCommand_all (opc : Byte) (a : RegisterAddress) (d : Byte) (s : State) :
    (registerCommand opc a d s).All (BankOnly s) :=
  (selectBank_all a s).bind fun _ t ht => (cmd2_all _ _ t).imp fun _ h => ht.trans h.bankOnly

/-- A register command that reaches the wire while a transmit is in flight is the fault (41 R130). -/
theorem registerCommand_fault (opc : Byte) (a : RegisterAddress) (d : Byte) {s : State} (h : s.bus = .txBusy) :
    registerCommand opc a d s = .fault .busInterleave := by
  unfold registerCommand selectBank
  cases a with
  | common o => simp [cmd2_fault _ _ h]
  | banked b o =>
    by_cases hb : b = s.ctl.currentBank
    · simp [hb, cmd2_fault _ _ h]
    · simp [hb, cmd2_fault _ _ h]

/-- `A_ECON1` names the bank-select register. -/
@[simp] theorem namesBankRegister_econ1 (p : Params) : namesBankRegister p p.aEcon1 = true := by
  simp [namesBankRegister]

/-- The check of 41 R139 passes where the address is another or the mask misses the field. -/
theorem touchesBankBits_false {s : State} {a : RegisterAddress} {m : Byte}
    (h : namesBankRegister s.params a = false ∨ m &&& s.params.mBsel = 0#8) : touchesBankBits s a m = false := by
  rcases h with h | h <;> simp [touchesBankBits, flagSet, h]

/-- The check of 41 R139 stops where the address is the bank-select register and the mask meets the field. -/
theorem touchesBankBits_true {s : State} {a : RegisterAddress} {m : Byte} (h : namesBankRegister s.params a = true)
    (hm : m &&& s.params.mBsel ≠ 0#8) : touchesBankBits s a m = true := by
  simp [touchesBankBits, flagSet, h, hm]

/-- `readRegister` (41 R132). -/
theorem readRegister_returns (a : RegisterAddress) (s : State) (h : WireFree s) :
    ∃ as r0 r t, readRegister a s = .done r t
      ∧ Answers (bankFrames s.params s.ctl.currentBank a) as
      ∧ t.wire = s.wire ++ framesEvents
          (bankFrames s.params s.ctl.currentBank a ++ [[commandByte s.params.opcRcr a.off, s.params.dummy]])
          (as ++ [[r0, r]])
      ∧ t.ctl.currentBank = bankAfter s.ctl.currentBank a ∧ BankOnly s t ∧ WireFree t :=
  registerCommand_returns _ a _ s h

theorem readRegister_all (a : RegisterAddress) (s : State) : (readRegister a s).All (BankOnly s) :=
  registerCommand_all _ a _ s

/-- The claim (40 R114): from Idle it takes the bus; else the state is as before, with the interrupt unmasked. -/
theorem claimBus_idle {s : State} (h : s.bus = .idle) : claimBus s = (true, (s.setBus .txBusy).setMask false) := by
  unfold claimBus atomically
  simp [h]
  rfl

theorem claimBus_busy {s : State} (h : s.bus ≠ .idle) : claimBus s = (false, s.setMask false) := by
  unfold claimBus atomically
  simp [h]
  rfl

end Sys2Proof.Machine
end

