-- ==== Sys2Proof/Laws/Params.lean ====
section
/-! SUPPORT. The constraints of 00_scope R8 taken apart, and what they give: an offset and an opcode base share no bit, so
the command byte of a register command is read back. -/

namespace Sys2Proof

/-- The constraints of 00_scope R8, each under a name. -/
structure Params.Fits (p : Params) : Prop where
  addrBits : 1 ≤ p.addrBits ∧ p.addrBits ≤ 7
  rcr : p.opcRcr &&& p.offMask = 0#8
  wcr : p.opcWcr &&& p.offMask = 0#8
  bfs : p.opcBfs &&& p.offMask = 0#8
  bfc : p.opcBfc &&& p.offMask = 0#8
  fullBytes : p.fullBytes.Nodup
  fullApart : p.fullBytes.all (fun c => !p.bases.contains c) = true
  econ1 : p.aEcon1.isCommon = true
  estat : p.aEstat.isCommon = true
  mBsel : p.mBsel = 0x03#8
  mRxen : p.mRxen &&& p.mBsel = 0#8
  mTxrts : p.mTxrts &&& p.mBsel = 0#8
  mClkrdy : isPowerOfTwo p.mClkrdy.toNat = true
  mLink : p.mLink ≠ 0#8
  addresses : ∀ a ∈ p.addresses, p.offsetOk a.off = true
  resetPollMax : 1 ≤ p.resetPollMax
  maxFrame : 1 ≤ p.maxFrame
  header : p.hdrLenOff + 2 ≤ p.hdrBytes
  lenBits : 16 ≤ p.lenBits
  commonLo : p.commonLo ≤ 2 ^ p.addrBits - 1
  bufSize : isPowerOfTwo p.bufSize = true
  txBase : p.txBase < p.bufSize

theorem Params.fits {p : Params} (h : p.ok = true) : p.Fits := by
  simp only [Params.ok, Bool.and_eq_true, decide_eq_true_eq, List.all_eq_true, beq_iff_eq, bne_iff_ne] at h
  obtain ⟨⟨⟨⟨⟨⟨⟨⟨⟨⟨⟨⟨⟨⟨⟨⟨⟨⟨⟨h1, h2⟩, h3⟩, h4⟩, h4'⟩, h5⟩, h6⟩, h7⟩, h8⟩, h9⟩, h10⟩, h11⟩, h12⟩, h13⟩, h14⟩, h15⟩, h16⟩, h17⟩, h18⟩, h19⟩ := h
  have hb := fun b hb => h3 b hb
  exact { addrBits := ⟨h1, h2⟩, rcr := hb _ (by simp [Params.bases]), wcr := hb _ (by simp [Params.bases]),
          bfs := hb _ (by simp [Params.bases]), bfc := hb _ (by simp [Params.bases]), fullBytes := h4, fullApart := by simpa [List.all_eq_true] using h4', econ1 := h5, estat := h6,
          mBsel := h7, mRxen := h8, mTxrts := h9, mClkrdy := h10, mLink := h11, addresses := h12, resetPollMax := h13,
          maxFrame := h14, header := h15, lenBits := h16, commonLo := h17, bufSize := h18, txBase := h19 }

/-- BUF_SIZE is not zero. -/
theorem Params.Fits.bufSize_pos {p : Params} (h : p.Fits) : 0 < p.bufSize := Nat.lt_of_le_of_lt (Nat.zero_le _) h.txBase

theorem Params.Fits.offset {p : Params} (h : p.Fits) {a : RegisterAddress} (ha : a ∈ p.addresses) :
    p.offsetOk a.off = true := h.addresses a ha

/-- An offset below `2^ADDR_BITS` lies in the low bits. -/
theorem Params.and_offMask (p : Params) (o : Byte) (h1 : p.addrBits ≤ 7) (h : p.offsetOk o = true) :
    o &&& p.offMask = o := by
  have h : o.toNat < 2 ^ p.addrBits := by simpa [Params.offsetOk] using h
  apply BitVec.eq_of_toNat_eq
  unfold Params.offMask
  have hm : (BitVec.ofNat 8 (2 ^ p.addrBits - 1)).toNat = 2 ^ p.addrBits - 1 := by
    rw [BitVec.toNat_ofNat]
    apply Nat.mod_eq_of_lt
    have := Nat.pow_le_pow_right (show 0 < 2 by decide) h1
    omega
  rw [BitVec.toNat_and, hm, Nat.and_two_pow_sub_one_eq_mod, Nat.mod_eq_of_lt h]

/-- A base without the low bits and an offset within them are read apart (30_encoding R95). -/
theorem base_or_offset (b o m : Byte) (hb : b &&& m = 0#8) (ho : o &&& m = o) :
    (b ||| o) &&& ~~~ m = b ∧ (b ||| o) &&& m = o := by
  constructor <;>
  · apply BitVec.eq_of_getElem_eq
    intro i hi
    have h1 := congrArg (fun x : Byte => x.getLsbD i) hb
    have h2 := congrArg (fun x : Byte => x.getLsbD i) ho
    simp only [BitVec.getLsbD_and, BitVec.getLsbD_zero] at h1 h2
    simp only [BitVec.getElem_and, BitVec.getElem_or, BitVec.getElem_not]
    simp only [BitVec.getLsbD_eq_getElem hi] at h1 h2
    revert h1 h2
    cases b[i] <;> cases o[i] <;> cases m[i] <;> simp

/-- A byte is its two fields put together (30_encoding R91). -/
theorem or_fields (c m : Byte) : (c &&& ~~~ m) ||| (c &&& m) = c := by
  apply BitVec.eq_of_getElem_eq
  intro i hi
  simp only [BitVec.getElem_and, BitVec.getElem_or, BitVec.getElem_not]
  rw [← Bool.and_or_distrib_left]
  simp

/-- The command bytes of the four register commands are decoded back (30_encoding R95, R98). -/
theorem decodeCommand_base {p : Params} (hok : p.Fits) (hno : p.noOverlap = true) {o : Byte} (ho : p.offsetOk o = true) :
    decodeCommand p (commandByte p.opcRcr o) = .rcr o ∧ decodeCommand p (commandByte p.opcWcr o) = .wcr o
    ∧ decodeCommand p (commandByte p.opcBfs o) = .bfs o ∧ decodeCommand p (commandByte p.opcBfc o) = .bfc o := by
  have hm := p.and_offMask o hok.addrBits.2 ho
  simp only [Params.noOverlap, Params.bases, Params.fullBytes, List.all_cons, List.all_nil, Bool.and_true, Bool.and_eq_true,
    bne_iff_ne, decide_eq_true_eq, List.nodup_cons, List.mem_cons, not_or] at hno
  obtain ⟨⟨⟨d1, d2, d3, -⟩, ⟨d4, d5, -⟩, ⟨d6, -⟩, -⟩, hno⟩ := hno
  have key : ∀ b, b &&& p.offMask = 0#8 → p.opcSrc &&& p.opMask ≠ b → p.opcRbm &&& p.opMask ≠ b →
      p.opcWbm &&& p.opMask ≠ b → b ||| o ≠ p.opcSrc ∧ b ||| o ≠ p.opcRbm ∧ b ||| o ≠ p.opcWbm
        ∧ (b ||| o) &&& p.opMask = b ∧ (b ||| o) &&& p.offMask = o := by
    intro b hb n1 n2 n3
    obtain ⟨e1, e2⟩ := base_or_offset b o p.offMask hb hm
    exact ⟨fun e => n1 (e ▸ e1), fun e => n2 (e ▸ e1), fun e => n3 (e ▸ e1), e1, e2⟩
  obtain ⟨⟨a1, a2, a3, a4⟩, ⟨b1, b2, b3, b4⟩, c1, c2, c3, c4⟩ := hno
  obtain ⟨r1, r2, r3, r4, r5⟩ := key _ hok.rcr a1 b1 c1
  obtain ⟨w1, w2, w3, w4, w5⟩ := key _ hok.wcr a2 b2 c2
  obtain ⟨s1, s2, s3, s4, s5⟩ := key _ hok.bfs a3 b3 c3
  obtain ⟨k1, k2, k3, k4, k5⟩ := key _ hok.bfc a4 b4 c4
  refine ⟨?_, ?_, ?_, ?_⟩
  · simp [decodeCommand, commandByte, r1, r2, r3, r4, r5]
  · simp [decodeCommand, commandByte, w1, w2, w3, w4, w5, Ne.symm d1]
  · simp [decodeCommand, commandByte, s1, s2, s3, s4, s5, Ne.symm d2, Ne.symm d4]
  · simp [decodeCommand, commandByte, k1, k2, k3, k4, k5, Ne.symm d3, Ne.symm d5, Ne.symm d6]

/-- The three full command bytes are decoded back (30_encoding R98). -/
theorem decodeCommand_full {p : Params} (hok : p.Fits) :
    decodeCommand p p.opcSrc = .src ∧ decodeCommand p p.opcRbm = .rbm ∧ decodeCommand p p.opcWbm = .wbm := by
  have h := hok.fullBytes
  simp only [Params.fullBytes, List.nodup_cons, List.mem_cons, not_or] at h
  obtain ⟨⟨e1, e2, -⟩, ⟨e3, -⟩, -⟩ := h
  simp [decodeCommand, Ne.symm e1, Ne.symm e2, Ne.symm e3]

end Sys2Proof
end

