-- ==== Sys2Proof/Laws/Peer.lean ====
section
/-! SUPPORT. The reference peer: its cells as a map, what each small operation on it changes, and a frame sent byte by byte
as the whole command. -/

namespace Sys2Proof.Machine

/-- Two cells never share a key: `reg b o` lies below 1024, `com o` from 1024 up. -/
theorem CellId.key_injective {i j : CellId} (h : i.key = j.key) : i = j := by
  cases i with
  | reg b o => cases j with
    | reg b' o' =>
      simp only [CellId.key] at h
      have h1 := o.isLt; have h2 := o'.isLt
      have e1 : b.toNat = b'.toNat := by omega
      have e2 : o.toNat = o'.toNat := by omega
      rw [BitVec.eq_of_toNat_eq e1, BitVec.eq_of_toNat_eq e2]
    | com o' =>
      simp only [CellId.key] at h
      have h1 := o.isLt; have h2 := b.isLt
      omega
  | com o => cases j with
    | reg b' o' =>
      simp only [CellId.key] at h
      have h1 := o'.isLt; have h2 := b'.isLt
      omega
    | com o' =>
      simp only [CellId.key] at h
      have e : o.toNat = o'.toNat := by omega
      rw [BitVec.eq_of_toNat_eq e]

/-- A cell just stored reads as stored. -/
@[simp] theorem Peer.stored_store_self (c : Peer) (i : CellId) (v : Byte) : (c.store i v).stored i = v := by
  simp [Peer.stored, Peer.store, Memory.read_write_self]

/-- A store leaves every other cell. -/
theorem Peer.stored_store_ne (c : Peer) {i j : CellId} (h : j ≠ i) (v : Byte) : (c.store i v).stored j = c.stored j := by
  have h' : j.key ≠ i.key := fun e => h (CellId.key_injective e)
  simp [Peer.stored, Peer.store, Memory.read_write_ne _ _ h']

/-- Writing a byte of the buffer memory, as the reads of `bufByte` see it. -/
theorem bufByte_write (m : Memory) (a a' : Nat) (b : Byte) :
    (Memory.read .controller (Memory.write .controller m a b) a').getD 0#8
      = if a' = a then b else (Memory.read .controller m a').getD 0#8 := by
  by_cases h : a' = a
  · subst h; simp [Memory.read_write_self]
  · simp [h, Memory.read_write_ne _ _ h]

/-- `writeCell` changes the cells alone. -/
theorem Peer.writeCell_cells (p : Params) (c : Peer) (o v : Byte) :
    c.writeCell p o v = { c with cells := (c.writeCell p o v).cells } := by
  unfold Peer.writeCell; split <;> rfl

/-- What `writeCell` leaves in each cell (44 R183, R186). -/
theorem Peer.writeCell_stored (p : Params) (c : Peer) (o v : Byte) (i : CellId) :
    (c.writeCell p o v).stored i
      = if i = cellOf p (c.bank p) o ∧ reaches p (c.bank p) o p.aEpktcnt = false
        then writeExcept (c.ownBits p o) (c.stored i) v else c.stored i := by
  unfold Peer.writeCell
  by_cases h : reaches p (c.bank p) o p.aEpktcnt = true
  · simp [h]
  · by_cases hi : i = cellOf p (c.bank p) o
    · subst hi; simp [h]
    · simp [h, hi, Peer.stored_store_ne]

/-- `setCell` is `writeCell` and perhaps one more packet in `sent`. -/
theorem Peer.setCell_eq (p : Params) (free : List Byte) (c : Peer) (o m : Byte) :
    c.setCell p free o m
      = { c.writeCell p o (setField (c.stored (cellOf p (c.bank p) o)) m) with
          sent := if c.startsTransmission p (c.writeCell p o (setField (c.stored (cellOf p (c.bank p) o)) m))
            then c.sent ++ [c.staged p free] else c.sent } := by
  have hs : (c.writeCell p o (setField (c.stored (cellOf p (c.bank p) o)) m)).sent = c.sent := by
    rw [Peer.writeCell_cells]
  unfold Peer.setCell
  rw [← hs]
  generalize c.writeCell p o (setField (c.stored (cellOf p (c.bank p) o)) m) = d
  cases h : c.startsTransmission p d <;> simp [h]

/-- A write to a cell leaves the cell that its offset reaches where it is: a write that changes the bank goes to the common
area, which is the same in every bank. -/
theorem Peer.writeCell_place (p : Params) (c : Peer) (o v : Byte) :
    cellOf p ((c.writeCell p o v).bank p) o = cellOf p (c.bank p) o
      ∧ ∀ a, reaches p ((c.writeCell p o v).bank p) o a = reaches p (c.bank p) o a := by
  by_cases h : p.commonLo ≤ o.toNat
  · exact ⟨by simp [cellOf, h], fun a => by simp [reaches, h]⟩
  · have hb : (c.writeCell p o v).bank p = c.bank p := by
      have hne : econ1Cell p ≠ cellOf p (c.bank p) o := by simp [econ1Cell, cellOf, h]
      unfold Peer.bank
      rw [Peer.writeCell_stored]
      simp [hne]
    rw [hb]; exact ⟨rfl, fun _ => rfl⟩

/-- A second write to a cell changes nothing if it would leave the byte that the first one left. -/
theorem Peer.writeCell_again {p : Params} {c : Peer} {o v v' : Byte}
    (h : writeExcept (c.ownBits p o) (writeExcept (c.ownBits p o) (c.stored (cellOf p (c.bank p) o)) v) v'
      = writeExcept (c.ownBits p o) (c.stored (cellOf p (c.bank p) o)) v) :
    (c.writeCell p o v).writeCell p o v' = c.writeCell p o v := by
  obtain ⟨h1, h2⟩ := Peer.writeCell_place p c o v
  by_cases hr : reaches p (c.bank p) o p.aEpktcnt = true
  · rw [show c.writeCell p o v = c by simp [Peer.writeCell, hr]]
    simp [Peer.writeCell, hr]
  · have hd : c.writeCell p o v
        = c.store (cellOf p (c.bank p) o) (writeExcept (c.ownBits p o) (c.stored (cellOf p (c.bank p) o)) v) := by
      simp [Peer.writeCell, hr]
    have ho : (c.writeCell p o v).ownBits p o = c.ownBits p o := by simp [Peer.ownBits, h2]
    rw [hd] at h1 h2 ho ⊢
    rw [Peer.writeCell, h1, h2, ho]
    simp only [hr, Bool.false_eq_true, if_false, Peer.stored_store_self, h]
    simp [Peer.store, Memory.write_write]

/-- A bit-field set repeated leaves the byte as it is, whatever bits are kept. -/
theorem writeExcept_set_again (k x m : Byte) :
    writeExcept k (writeExcept k x (setField x m)) (setField (writeExcept k x (setField x m)) m)
      = writeExcept k x (setField x m) := by
  unfold writeExcept setField
  apply BitVec.eq_of_getElem_eq
  intro i hi
  simp only [BitVec.getElem_and, BitVec.getElem_or, BitVec.getElem_not]
  cases k[i] <;> cases x[i] <;> cases m[i] <;> rfl

/-- A bit-field clear repeated leaves the byte as it is, whatever bits are kept. -/
theorem writeExcept_clear_again (k x m : Byte) :
    writeExcept k (writeExcept k x (clearField x m)) (clearField (writeExcept k x (clearField x m)) m)
      = writeExcept k x (clearField x m) := by
  unfold writeExcept clearField
  apply BitVec.eq_of_getElem_eq
  intro i hi
  simp only [BitVec.getElem_and, BitVec.getElem_or, BitVec.getElem_not]
  cases k[i] <;> cases x[i] <;> cases m[i] <;> rfl

/-- BFC twice equals once (20_memory R67). -/
theorem Peer.clearCell_again (p : Params) (c : Peer) (o m : Byte) :
    (c.clearCell p o m).clearCell p o m = c.clearCell p o m := by
  unfold Peer.clearCell
  rw [(Peer.writeCell_place p c o _).1, Peer.writeCell_stored]
  by_cases hr : reaches p (c.bank p) o p.aEpktcnt = false
  · simp only [hr, and_self, if_true]
    exact Peer.writeCell_again (writeExcept_clear_again _ _ _)
  · simp [hr, Peer.writeCell]

/-- The write of a BFS repeated changes nothing. -/
theorem Peer.bfsWrite_again (p : Params) (c : Peer) (o m : Byte) :
    (c.writeCell p o (setField (c.stored (cellOf p (c.bank p) o)) m)).writeCell p o
        (setField ((c.writeCell p o (setField (c.stored (cellOf p (c.bank p) o)) m)).stored
          (cellOf p ((c.writeCell p o (setField (c.stored (cellOf p (c.bank p) o)) m)).bank p) o)) m)
      = c.writeCell p o (setField (c.stored (cellOf p (c.bank p) o)) m) := by
  rw [(Peer.writeCell_place p c o _).1, Peer.writeCell_stored]
  by_cases hr : reaches p (c.bank p) o p.aEpktcnt = false
  · simp only [hr, and_self, if_true]
    exact Peer.writeCell_again (writeExcept_set_again _ _ _)
  · simp [hr, Peer.writeCell]

/-- BFS twice equals once (20_memory R67): the second sets no bit, so it starts no transmission. -/
theorem Peer.setCell_again (p : Params) (free free' : List Byte) (c : Peer) (o m : Byte) :
    (c.setCell p free o m).setCell p free' o m = c.setCell p free o m := by
  have hw : ∀ (d : Peer) (x : List (List Byte)) (v : Byte),
      ({ d with sent := x } : Peer).writeCell p o v = { d.writeCell p o v with sent := x } := fun d x v => by
    unfold Peer.writeCell
    show (if reaches p (d.bank p) o p.aEpktcnt then _ else _) = _
    split <;> rfl
  have ha := Peer.bfsWrite_again p c o m
  rw [Peer.setCell_eq p free c]
  generalize c.writeCell p o (setField (c.stored (cellOf p (c.bank p) o)) m) = d at ha ⊢
  generalize (if c.startsTransmission p d then c.sent ++ [c.staged p free] else c.sent) = x
  have hd : ({ d with sent := x } : Peer).writeCell p o
      (setField (({ d with sent := x } : Peer).stored (cellOf p (({ d with sent := x } : Peer).bank p) o)) m)
      = { d with sent := x } := by
    rw [hw]; exact congrArg (fun e : Peer => { e with sent := x }) ha
  unfold Peer.setCell
  rw [hd]
  simp [Peer.startsTransmission]

/-! ### The place in the frame is seen by nothing but `onBegin`, `onByte` and `onEnd` -/

/-- The peer at another place in its frame. -/
def Peer.withFrame (c : Peer) (f : FramePos) : Peer := { c with frame := f }

@[simp] theorem Peer.withFrame_frame (c : Peer) (f : FramePos) : (c.withFrame f).frame = f := rfl
@[simp] theorem Peer.withFrame_withFrame (c : Peer) (f g : FramePos) : (c.withFrame f).withFrame g = c.withFrame g := rfl
@[simp] theorem Peer.stored_withFrame (c : Peer) (f : FramePos) (i : CellId) : (c.withFrame f).stored i = c.stored i := rfl
@[simp] theorem Peer.bank_withFrame (p : Params) (c : Peer) (f : FramePos) : (c.withFrame f).bank p = c.bank p := rfl

/-- One data byte commutes with the place in the frame. -/
theorem Peer.dataByte_withFrame (p : Params) (free : List Byte) (c : Peer) (cmd : WireCmd) (first : Bool) (d : Byte)
    (f : FramePos) : (c.withFrame f).dataByte p free cmd first d
      = ((c.dataByte p free cmd first d).1, (c.dataByte p free cmd first d).2.withFrame f) := by
  have hw : ∀ o v, (c.withFrame f).writeCell p o v = (c.writeCell p o v).withFrame f := by
    intro o v
    unfold Peer.writeCell
    show (if reaches p (c.bank p) o p.aEpktcnt then _ else _) = _
    split <;> rfl
  cases cmd with
  | rcr o =>
    show (_, Peer.countPoll p (c.withFrame f) o) = (_, (c.countPoll p o).withFrame f)
    unfold Peer.countPoll
    show (_, if reaches p (c.bank p) o p.aEstat then _ else _) = _
    split <;> rfl
  | rbm =>
    obtain ⟨cells, buf, rdpt, wrpt, rxw, pend, eaten, sent, polls, wasReset, readyDelay, linkUp, frame⟩ := c
    cases pend with
    | nil => rfl
    | cons n rest =>
      by_cases h : n ≤ eaten + 1 <;>
        simp [Peer.dataByte, Peer.advanceRead, Peer.release, Peer.withFrame, Peer.bufHead, h]
  | wcr o => cases first <;> simp [Peer.dataByte, hw]
  | wbm => rfl
  | bfs o =>
    cases first
    · rfl
    · simp only [Peer.dataByte, if_true, Peer.setCell_eq, Peer.bank_withFrame, Peer.stored_withFrame, hw]
      rfl
  | bfc o => cases first <;> simp [Peer.dataByte, Peer.clearCell, hw]
  | src => rfl
  | unknown => rfl

/-- Data bytes of a command in a row; the counter numbers the free values. -/
def Peer.dataBytes (p : Params) (cmd : WireCmd) : Nat → Bool → Peer → List Byte → List Byte × Peer
  | _, _, c, [] => ([], c)
  | n, first, c, d :: ds =>
    ((c.dataByte p (Config.freeBytes n) cmd first d).1
        :: (Peer.dataBytes p cmd (n + 1) false (c.dataByte p (Config.freeBytes n) cmd first d).2 ds).1,
      (Peer.dataBytes p cmd (n + 1) false (c.dataByte p (Config.freeBytes n) cmd first d).2 ds).2)

theorem Peer.dataBytes_withFrame (p : Params) (cmd : WireCmd) (n : Nat) (first : Bool) (c : Peer) (f : FramePos)
    (ds : List Byte) : ((c.withFrame f).dataBytes p cmd n first ds).1 = (c.dataBytes p cmd n first ds).1
      ∧ ((c.withFrame f).dataBytes p cmd n first ds).2.withFrame .outside
        = (c.dataBytes p cmd n first ds).2.withFrame .outside := by
  induction ds generalizing n c first with
  | nil => exact ⟨rfl, rfl⟩
  | cons d ds ih =>
    simp only [Peer.dataBytes, Peer.dataByte_withFrame]
    exact ⟨by rw [(ih _ _ _).1], (ih _ _ _).2⟩

/-- A whole frame as the peer sees it: the answers to the data bytes and the peer at the end (44 R184). -/
def Peer.frameOf (p : Params) (n : Nat) (c : Peer) (b : Byte) (ds : List Byte) : List Byte × Peer :=
  ((c.dataBytes p (decodeCommand p b) (n + 1) true ds).1,
    (match decodeCommand p b with
      | .src => (c.dataBytes p (decodeCommand p b) (n + 1) true ds).2.softReset p
      | _ => (c.dataBytes p (decodeCommand p b) (n + 1) true ds).2).withFrame .outside)

end Sys2Proof.Machine
end

