-- ==== Sys2Proof/Laws/Frame.lean ====
section
/-! SUPPORT. With the reference peer and nothing from ENV meanwhile: a frame sent byte by byte is answered as the peer
answers the whole command (44 R184 to R193). -/

namespace Sys2Proof.Machine

theorem Quiet.responsive {s : State} (h : Quiet s) : BusResponsive s := by
  simp [BusResponsive, h.1, busUpAfter, h.2]

theorem Kept.quiet {s t : State} (h : Kept s t) (hq : Quiet s) : Quiet t :=
  ⟨(h.env hq.1).2.2.2, by rw [(h.env hq.1).2.2.1]; exact hq.2⟩

/-- One byte to the reference peer. -/
theorem exchangeByte_reference (d : Byte) {s : State} (hq : Quiet s) (hb : s.bus ≠ .txBusy) :
    exchangeByte d s = .done (wireAnswer d s) (clockByte d s) := by
  simp [exchangeByte, unlessTransmitting_free hb, xchg, hq.1, awaitBus, hq.2, State.setPlan_self hq.1]

theorem clockByte_reference (d : Byte) {s : State} (hr : s.wireEnd = .reference) :
    (clockByte d s).peer = (s.peer.onByte s.params (Config.freeBytes s.draws) d).2
      ∧ (clockByte d s).draws = s.draws + 1
      ∧ wireAnswer d s = (s.peer.onByte s.params (Config.freeBytes s.draws) d).1 := by
  simp [clockByte, wireEndAfter, wireAnswer, hr]

/-- The data bytes of a command, one by one. -/
theorem exchangeAll_data (cmd : WireCmd) (ds : List Byte) (first : Bool) (s : State) (hq : Quiet s)
    (hb : s.bus ≠ .txBusy) (hr : s.wireEnd = .reference) (hf : s.peer.frame = .data cmd first) :
    ∃ t, exchangeAll ds s = .done (s.peer.dataBytes s.params cmd s.draws first ds).1 t
      ∧ t.peer.withFrame .outside = (s.peer.dataBytes s.params cmd s.draws first ds).2.withFrame .outside
      ∧ (∃ f, t.peer.frame = .data cmd f) ∧ t.draws = s.draws + ds.length := by
  induction ds generalizing first s with
  | nil => exact ⟨s, rfl, rfl, ⟨first, hf⟩, rfl⟩
  | cons d ds ih =>
    have hk := clockByte_wireOnly d s
    obtain ⟨h1, h2, h3⟩ := clockByte_reference d hr
    have ho : s.peer.onByte s.params (Config.freeBytes s.draws) d
        = ((s.peer.dataByte s.params (Config.freeBytes s.draws) cmd first d).1,
          (s.peer.dataByte s.params (Config.freeBytes s.draws) cmd first d).2.withFrame (.data cmd false)) := by
      simp [Peer.onByte, hf, Peer.withFrame]
    rw [ho] at h1 h3
    obtain ⟨t, g1, g2, g3, g4⟩ := ih false (clockByte d s) (hk.kept.quiet hq) (by rw [hk.kept.bus]; exact hb)
      (by rw [hk.kept.wireEnd]; exact hr) (by rw [h1]; rfl)
    rw [h1, h2, hk.kept.params] at g1 g2
    refine ⟨t, ?_, ?_, g3, by rw [g4, h2]; simp; omega⟩
    · simp [exchangeAll, exchangeByte_reference d hq hb, g1, h3, Peer.dataBytes, (Peer.dataBytes_withFrame _ _ _ _ _ _ _).1]
    · rw [g2, (Peer.dataBytes_withFrame _ _ _ _ _ _ _).2]; rfl

/-- A whole frame, byte by byte. -/
theorem framed_reference (b : Byte) (ds : List Byte) (s : State) (hq : Quiet s) (hb : s.bus ≠ .txBusy)
    (hr : s.wireEnd = .reference) :
    ∃ t, framed (b :: ds) s = .done (0#8 :: (s.peer.frameOf s.params s.draws b ds).1) t
      ∧ t.peer = (s.peer.frameOf s.params s.draws b ds).2 ∧ t.draws = s.draws + (1 + ds.length)
      ∧ t.wire = s.wire ++ frameEvents (b :: ds) (0#8 :: (s.peer.frameOf s.params s.draws b ds).1)
      ∧ WireOnly s t := by
  obtain ⟨rs, t, hx, -, hwire, hk, -⟩ := framed_returns (b :: ds) s ⟨hb, hq.responsive⟩
  have hbw := emitBegin_wireOnly s
  have hb1 : (emitBegin s).peer = s.peer.withFrame .opened := by simp [emitBegin, hr, Peer.onBegin, Peer.withFrame]
  have hb2 : (emitBegin s).draws = s.draws := by simp [emitBegin, hr]
  have hb3 : (emitBegin s).bus ≠ .txBusy := by rw [hbw.kept.bus]; exact hb
  have hb4 : (emitBegin s).wireEnd = .reference := by rw [hbw.kept.wireEnd]; exact hr
  have hcw := clockByte_wireOnly b (emitBegin s)
  obtain ⟨h1, h2, h3⟩ := clockByte_reference b hb4
  rw [hb1, hb2, hbw.kept.params] at h1 h3
  rw [hb2] at h2
  obtain ⟨u, g1, g2, ⟨f, g3⟩, g4⟩ := exchangeAll_data (decodeCommand s.params b) ds true (clockByte b (emitBegin s))
    (hcw.kept.quiet (hbw.kept.quiet hq)) (by rw [hcw.kept.bus]; exact hb3) (by rw [hcw.kept.wireEnd]; exact hb4)
    (by rw [h1]; rfl)
  have hp : (clockByte b (emitBegin s)).params = s.params := hcw.kept.params.trans hbw.kept.params
  rw [h1, h2, hp] at g1 g2
  have ho : ((s.peer.withFrame .opened).onByte s.params (Config.freeBytes s.draws) b).2
      = s.peer.withFrame (.data (decodeCommand s.params b) true) := rfl
  have ho' : ((s.peer.withFrame .opened).onByte s.params (Config.freeBytes s.draws) b).1 = 0#8 := rfl
  rw [ho, (Peer.dataBytes_withFrame _ _ _ _ _ _ _).1] at g1
  rw [ho, (Peer.dataBytes_withFrame _ _ _ _ _ _ _).2] at g2
  have hall : exchangeAll (b :: ds) (emitBegin s)
      = .done (0#8 :: (s.peer.dataBytes s.params (decodeCommand s.params b) (s.draws + 1) true ds).1) u := by
    simp [exchangeAll, exchangeByte_reference b (hbw.kept.quiet hq) hb3, g1, h3, ho']
  have hu : WireOnly (emitBegin s) u := by
    have := exchangeAll_all (b :: ds) (emitBegin s)
    rw [hall] at this
    exact this
  have hfr : framed (b :: ds) s
      = .done (0#8 :: (s.peer.dataBytes s.params (decodeCommand s.params b) (s.draws + 1) true ds).1) (emitEnd u) := by
    have hub : u.bus ≠ .txBusy := by rw [hu.kept.bus]; exact hb3
    simp [framed, frameBegin, frameEnd, unlessTransmitting_free hb, unlessTransmitting_free hub, hall]
  rw [hfr] at hx
  cases hx
  have hur : u.wireEnd = .reference := by rw [hu.kept.wireEnd]; exact hb4
  have hup : u.params = s.params := hu.kept.params.trans hbw.kept.params
  refine ⟨emitEnd u, hfr, ?_, ?_, hwire, hk⟩
  · have he : (emitEnd u).peer = u.peer.onEnd s.params := by simp [emitEnd, hur, hup]
    rw [he]
    unfold Peer.onEnd
    rw [g3]
    unfold Peer.frameOf
    have key : ∀ c c' : Peer, c.withFrame .outside = c'.withFrame .outside →
        (c.softReset s.params).withFrame .outside = (c'.softReset s.params).withFrame .outside := by
      intro c c' h
      have := congrArg (fun x : Peer => (x.softReset s.params).withFrame .outside) h
      exact this
    generalize decodeCommand s.params b = cmd at g2 ⊢
    cases cmd <;> first | exact g2 | exact key _ _ g2
  · have he : (emitEnd u).draws = u.draws := by simp [emitEnd, hur]
    rw [he, g4, h2]; omega

/-! ### The frame of each command, as the meaning of the wire command has it -/

theorem Peer.dataBytes_rcr (p : Params) (o : Byte) (n : Nat) (first : Bool) (c : Peer) (ds : List Byte) :
    c.dataBytes p (.rcr o) n first ds = rcrAnswers p o ds c := by
  induction ds generalizing n first c with
  | nil => rfl
  | cons d ds ih => simp only [Peer.dataBytes, Peer.dataByte, rcrAnswers, ih]

theorem Peer.dataBytes_rbm (p : Params) (n : Nat) (first : Bool) (c : Peer) (ds : List Byte) :
    c.dataBytes p .rbm n first ds = rbmAnswers p ds c := by
  induction ds generalizing n first c with
  | nil => rfl
  | cons d ds ih => simp only [Peer.dataBytes, Peer.dataByte, rbmAnswers, ih]

theorem Peer.dataBytes_wbm (p : Params) (n : Nat) (first : Bool) (c : Peer) (ds : List Byte) :
    c.dataBytes p .wbm n first ds = (zeroAnswers ds, ds.foldl (fun c d => c.stage p d) c) := by
  induction ds generalizing n first c with
  | nil => rfl
  | cons d ds ih => simp only [Peer.dataBytes, Peer.dataByte, ih, zeroAnswers, List.map_cons, List.foldl_cons]

/-- Later data bytes of a command that takes one do nothing (44 R186 to R188, R191, R192). -/
theorem Peer.dataBytes_later (p : Params) (cmd : WireCmd) (h : ∀ o, cmd ≠ .rcr o) (h' : cmd ≠ .rbm) (h'' : cmd ≠ .wbm)
    (n : Nat) (c : Peer) (ds : List Byte) : c.dataBytes p cmd n false ds = (zeroAnswers ds, c) := by
  induction ds generalizing n with
  | nil => rfl
  | cons d ds ih =>
    cases cmd with
    | rcr o => exact absurd rfl (h o)
    | rbm => exact absurd rfl h'
    | wbm => exact absurd rfl h''
    | _ => simp [Peer.dataBytes, Peer.dataByte, ih, zeroAnswers]

/-- The peer after the first data byte of a command that takes one. -/
theorem Peer.dataBytes_first (p : Params) (cmd : WireCmd) (h : ∀ o, cmd ≠ .rcr o) (h' : cmd ≠ .rbm) (h'' : cmd ≠ .wbm)
    (n : Nat) (c : Peer) (d : Byte) (ds : List Byte) : c.dataBytes p cmd n true (d :: ds)
      = ((c.dataByte p (Config.freeBytes n) cmd true d).1 :: zeroAnswers ds,
        (c.dataByte p (Config.freeBytes n) cmd true d).2) := by
  simp only [Peer.dataBytes, Peer.dataBytes_later p cmd h h' h'']

end Sys2Proof.Machine
end

