-- ==== Sys2Proof/Laws/Bank.lean ====
section
/-! SUPPORT. With the reference peer and nothing from ENV meanwhile: one register command, and the bank-select sequence,
as they leave the peer (41 R131, R138; 10_state R31). -/

namespace Sys2Proof.Machine

/-- A command with one data byte, on the reference peer. -/
theorem cmd2_reference (c d : Byte) (s : State) (hq : Quiet s) (hb : s.bus ≠ .txBusy) (hr : s.wireEnd = .reference)
    (hs : decodeCommand s.params c ≠ .src) :
    ∃ t, cmd2 c d s
        = .done (s.peer.dataByte s.params (Config.freeBytes (s.draws + 1)) (decodeCommand s.params c) true d).1 t
      ∧ t.peer = (s.peer.dataByte s.params (Config.freeBytes (s.draws + 1)) (decodeCommand s.params c) true d).2.withFrame
          .outside
      ∧ WireOnly s t := by
  obtain ⟨t, h1, h2, -, -, h5⟩ := framed_reference c [d] s hq hb hr
  refine ⟨t, ?_, ?_, h5⟩
  · simp [cmd2, h1, Peer.frameOf, Peer.dataBytes]
  · rw [h2]
    unfold Peer.frameOf
    generalize decodeCommand s.params c = cmd at hs ⊢
    cases cmd <;> first | rfl | exact absurd rfl hs

/-- The conditions under which the block and the reference peer work together undisturbed. -/
structure Together (s : State) : Prop where
  fits : s.params.Fits
  noOverlap : s.params.noOverlap = true
  map : PeerFits s.params
  reference : s.wireEnd = .reference
  quiet : Quiet s
  free : s.bus ≠ .txBusy

theorem Together.kept {s t : State} (h : Together s) (hk : Kept s t) : Together t :=
  ⟨by rw [hk.params]; exact h.fits, by rw [hk.params]; exact h.noOverlap, by rw [hk.params]; exact h.map,
    by rw [hk.wireEnd]; exact h.reference, hk.quiet h.quiet, by rw [hk.bus]; exact h.free⟩

theorem PeerFits.econ1_reaches {p : Params} (h : PeerFits p) (bank : BitVec 2) :
    reaches p bank p.aEcon1.off p.aEpktcnt = false ∧ reaches p bank p.aEcon1.off p.aEstat = false
      ∧ reaches p bank p.aEcon1.off p.aPhystat = false := by
  have h1 := h.econ1Apart p.aEpktcnt (by simp)
  have h2 := h.econ1Apart p.aEstat (by simp)
  have h3 := h.econ1Apart p.aPhystat (by simp)
  exact ⟨by simp [reaches, Ne.symm h1], by simp [reaches, Ne.symm h2], by simp [reaches, Ne.symm h3]⟩

theorem PeerFits.econ1_cell {p : Params} (h : PeerFits p) (bank : BitVec 2) : cellOf p bank p.aEcon1.off = econ1Cell p := by
  simp [cellOf, h.econ1Common, econ1Cell]

/-- Where `A_ECON1` is common, the addresses that name it are those of its offset. -/
theorem PeerFits.namesBankRegister {p : Params} (h : PeerFits p) (a : RegisterAddress) :
    namesBankRegister p a = decide (a.off = p.aEcon1.off) := by
  have hc := h.econ1Common
  unfold Sys2Proof.Machine.namesBankRegister
  by_cases he : a.off = p.aEcon1.off
  · simp [he, hc]
  · have : a ≠ p.aEcon1 := fun e => he (by rw [e])
    simp [he, this]

/-- A write to `A_ECON1` on the reference peer reaches its cell whole. -/
theorem Peer.writeCell_econ1 {p : Params} (h : PeerFits p) (c : Peer) (v : Byte) (i : CellId) :
    (c.writeCell p p.aEcon1.off v).stored i = if i = econ1Cell p then v else c.stored i := by
  obtain ⟨h1, h2, h3⟩ := h.econ1_reaches (c.bank p)
  rw [Peer.writeCell_stored, h.econ1_cell, h1]
  by_cases hi : i = econ1Cell p
  · have hv : ∀ v : Byte, v &&& 255#8 = v := fun v => BitVec.and_allOnes
    simp [hi, Peer.ownBits, h2, h3, writeExcept, hv]
  · simp [hi]

/-- The peer but for the cell of `A_ECON1` and the place in the frame. -/
structure SameButEcon1 (p : Params) (c d : Peer) : Prop where
  buffers : SameBuffers c d
  sent : d.sent = c.sent
  polls : d.polls = c.polls
  cells : ∀ i, i ≠ econ1Cell p → d.stored i = c.stored i
  econ1 : d.stored (econ1Cell p) &&& ~~~ p.mBsel = c.stored (econ1Cell p) &&& ~~~ p.mBsel

theorem SameButEcon1.refl (p : Params) (c : Peer) : SameButEcon1 p c c :=
  ⟨by constructor <;> rfl, rfl, rfl, fun _ _ => rfl, rfl⟩

theorem SameBuffers.trans {c d e : Peer} (h : SameBuffers c d) (h' : SameBuffers d e) : SameBuffers c e :=
  ⟨h'.buf.trans h.buf, h'.rdpt.trans h.rdpt, h'.wrpt.trans h.wrpt, h'.rxw.trans h.rxw, h'.pend.trans h.pend,
    h'.eaten.trans h.eaten, h'.wasReset.trans h.wasReset, h'.readyDelay.trans h.readyDelay, h'.linkUp.trans h.linkUp⟩

theorem SameButEcon1.trans {p : Params} {c d e : Peer} (h : SameButEcon1 p c d) (h' : SameButEcon1 p d e) :
    SameButEcon1 p c e :=
  ⟨h.buffers.trans h'.buffers, h'.sent.trans h.sent, h'.polls.trans h.polls,
    fun i hi => (h'.cells i hi).trans (h.cells i hi), h'.econ1.trans h.econ1⟩

/-- Bits cleared in a field and set again within it: the field is what was set, the rest as before. -/
theorem set_within (x m b : Byte) (h : b &&& m = b) :
    ((x &&& ~~~ m ||| b) &&& m) = b ∧ ((x &&& ~~~ m ||| b) &&& ~~~ m) = x &&& ~~~ m := by
  constructor <;>
  · apply BitVec.eq_of_getElem_eq
    intro i hi
    have h1 := congrArg (fun y : Byte => y.getLsbD i) h
    simp only [BitVec.getLsbD_eq_getElem hi, BitVec.getElem_and] at h1
    simp only [BitVec.getElem_and, BitVec.getElem_or, BitVec.getElem_not]
    generalize x[i] = u at *
    generalize m[i] = v at *
    generalize b[i] = w at *
    revert h1
    cases u <;> cases v <;> cases w <;> simp

theorem bankMask_and (b : BitVec 2) : bankMask b &&& 0x03#8 = bankMask b ∧ (bankMask b).setWidth 2 = b := by
  revert b; decide

/-- The bank-select sequence leaves the bank selected in the controller and everything else of the peer (41 R131). -/
theorem selectBank_reference (a : RegisterAddress) (s : State) (h : Together s) (hc : BankCoherent s) :
    ∃ t, selectBank a s = .done () t ∧ BankOnly s t ∧ t.ctl.currentBank = bankAfter s.ctl.currentBank a
      ∧ BankCoherent t ∧ SameButEcon1 s.params s.peer t.peer := by
  cases a with
  | common o => exact ⟨s, rfl, BankOnly.refl s, rfl, hc, SameButEcon1.refl _ _⟩
  | banked b o =>
    by_cases hb : b = s.ctl.currentBank
    · exact ⟨s, by simp [selectBank, hb], BankOnly.refl s, by simp [bankAfter, hb], hc, SameButEcon1.refl _ _⟩
    · have ho : s.params.offsetOk s.params.aEcon1.off = true := h.fits.offset (by simp [Params.addresses])
      obtain ⟨-, -, d3, d4⟩ := decodeCommand_base h.fits h.noOverlap ho
      obtain ⟨u, u1, u2, u3⟩ := cmd2_reference (commandByte s.params.opcBfc s.params.aEcon1.off) s.params.mBsel s h.quiet
        h.free h.reference (by rw [d4]; simp)
      have hu := h.kept u3.kept
      have hup := u3.kept.params
      obtain ⟨t, t1, t2, t3⟩ := cmd2_reference (commandByte u.params.opcBfs u.params.aEcon1.off) (bankMask b) u hu.quiet
        hu.free hu.reference (by rw [hup, d3]; simp)
      rw [d4] at u2
      rw [hup, d3] at t2
      simp only [Peer.dataByte, if_true, Peer.clearCell, h.map.econ1_cell] at u2
      have tr : u.peer.startsTransmission s.params (u.peer.writeCell s.params s.params.aEcon1.off
          (setField (u.peer.stored (econ1Cell s.params)) (bankMask b))) = false := by
        have h1 := h.fits.mTxrts
        rw [h.fits.mBsel] at h1
        have hz : bankMask b &&& s.params.mTxrts = 0#8 := by
          rw [← (bankMask_and b).1, BitVec.and_assoc, BitVec.and_comm 0x03#8, h1]; simp
        have hor : ∀ x : Byte, setField x (bankMask b) &&& s.params.mTxrts = x &&& s.params.mTxrts := fun x => by
          rw [setField, BitVec.and_comm, BitVec.and_or_distrib_left, BitVec.and_comm _ (bankMask b), hz,
            BitVec.or_zero, BitVec.and_comm]
        simp [Peer.startsTransmission, flagSet, Peer.writeCell_econ1 h.map, hor]
      simp only [Peer.dataByte, if_true, Peer.setCell_eq, h.map.econ1_cell, tr, Bool.false_eq_true, if_false] at t2
      have us : ∀ i, u.peer.stored i = if i = econ1Cell s.params
          then clearField (s.peer.stored (econ1Cell s.params)) s.params.mBsel else s.peer.stored i := by
        intro i; rw [u2, Peer.stored_withFrame, Peer.writeCell_econ1 h.map]
      have ts : ∀ i, t.peer.stored i = if i = econ1Cell s.params
          then setField (clearField (s.peer.stored (econ1Cell s.params)) s.params.mBsel) (bankMask b)
          else s.peer.stored i := by
        intro i
        have hs : t.peer.stored i = (u.peer.writeCell s.params s.params.aEcon1.off
            (setField (u.peer.stored (econ1Cell s.params)) (bankMask b))).stored i := by rw [t2]; rfl
        rw [hs, Peer.writeCell_econ1 h.map, us]
        by_cases hi : i = econ1Cell s.params
        · simp [hi]
        · simp [hi, us]
      refine ⟨t.setBank b, ?_, (u3.bankOnly.trans t3.bankOnly).trans (BankOnly.setBank t b), rfl, ?_, ?_⟩
      · simp [selectBank, hb, u1, t1]
      · show b = t.peer.bank t.params
        rw [t3.kept.params, hup]
        simp only [Peer.bank, ts, if_true, setField, clearField, h.fits.mBsel]
        rw [(set_within _ _ _ (bankMask_and b).1).1, (bankMask_and b).2]
      · show SameButEcon1 s.params s.peer t.peer
        rw [Peer.writeCell_cells] at u2
        rw [Peer.writeCell_cells] at t2
        refine ⟨?_, by rw [t2, u2]; rfl, by rw [t2, u2]; rfl, fun i hi => by rw [ts]; simp [hi], ?_⟩
        · rw [t2, u2]; constructor <;> rfl
        · rw [ts]
          simp only [if_true, setField, clearField, h.fits.mBsel]
          exact (set_within _ _ _ (bankMask_and b).1).2

/-- A register read on the reference peer: the register as the peer answers it with the bank of the address selected. -/
theorem readRegister_reference (a : RegisterAddress) (s : State) (h : Together s) (hc : BankCoherent s)
    (ha : a.ok s.params = true) :
    ∃ u t : State, readRegister a s = .done (u.peer.readValue s.params a.off) t ∧ BankOnly s t
      ∧ t.ctl.currentBank = bankAfter s.ctl.currentBank a ∧ BankCoherent t ∧ SameButEcon1 s.params s.peer u.peer
      ∧ u.peer.bank s.params = bankAfter s.ctl.currentBank a
      ∧ t.peer = (u.peer.countPoll s.params a.off).withFrame .outside := by
  obtain ⟨u, u1, u2, u3, u4, u5⟩ := selectBank_reference a s h hc
  have hu := h.kept u2.kept
  have hup := u2.kept.params
  have d1 := (decodeCommand_base h.fits h.noOverlap ha).1
  obtain ⟨t, t1, t2, t3⟩ := cmd2_reference (commandByte s.params.opcRcr a.off) s.params.dummy u hu.quiet hu.free
    hu.reference (by rw [hup, d1]; simp)
  rw [hup, d1] at t1 t2
  refine ⟨u, t, ?_, u2.trans t3.bankOnly, by rw [t3.ctl, u3], ?_, u5, ?_, t2⟩
  · simp [readRegister, registerCommand, u1, t1, Peer.dataByte]
  · show t.ctl.currentBank = t.peer.bank t.params
    rw [t3.ctl, t3.kept.params, hup, t2]
    have hp : (Peer.withFrame (u.peer.countPoll s.params a.off) .outside).bank s.params = u.peer.bank s.params := by
      unfold Peer.countPoll; split <;> rfl
    simp only [Peer.dataByte]
    rw [hp, ← hup]
    exact u4
  · rw [← hup, ← u3]
    exact u4.symm

end Sys2Proof.Machine
end

