-- ==== Sys2Proof/Laws/Operands.lean ====
section
/-! SUPPORT. Operand assembly as arithmetic (30_encoding R95, 42 R154), flags forced and tested (30_encoding R104), and the
header of a stored packet (44 R195). -/

namespace Sys2Proof.Machine

/-- The 16-bit length of two bytes, low byte first, as a number. -/
theorem word16_eq (lo hi : Byte) : word16 lo hi = lo.toNat + 256 * hi.toNat := by
  have h1 := lo.isLt
  have h2 := hi.isLt
  have hor : (lo.setWidth 16 ||| hi.setWidth 16 <<< 8) = lo.setWidth 16 + hi.setWidth 16 <<< 8 := by
    rw [← BitVec.add_eq_or_of_and_eq_zero]
    apply BitVec.eq_of_getElem_eq
    intro i hi'
    simp only [BitVec.getElem_and, BitVec.getElem_setWidth, BitVec.getElem_shiftLeft, BitVec.getElem_zero]
    by_cases h8 : i < 8
    · simp [h8]
    · rw [BitVec.getLsbD_of_ge lo i (by omega), Bool.false_and]
  unfold word16
  rw [hor, BitVec.toNat_add, BitVec.toNat_shiftLeft, BitVec.toNat_setWidth, BitVec.toNat_setWidth, Nat.shiftLeft_eq]
  omega

/-- A length of at most 65535 is its two bytes. -/
theorem lo8_hi8 {n : Nat} (h : n ≤ 65535) : (lo8 n).toNat + 256 * (hi8 n).toNat = n := by
  simp only [lo8, hi8, BitVec.toNat_ofNat]
  omega

@[simp] theorem packetHeader_length (p : Params) (n : Nat) : (packetHeader p n).length = p.hdrBytes := by
  simp [packetHeader]

theorem packetHeader_get (p : Params) (n j : Nat) (h : j < p.hdrBytes) : (packetHeader p n)[j]?
    = some (if j = p.hdrLenOff then lo8 n else if j = p.hdrLenOff + 1 then hi8 n else 0#8) := by
  simp [packetHeader, h]

/-- A flag forced reads as forced. -/
theorem flagSet_putFlag (v m : Byte) (hm : m ≠ 0#8) (on : Bool) : flagSet (putFlag v m on) m = on := by
  cases on
  · have h : v &&& ~~~ m &&& m = 0#8 := by
      apply BitVec.eq_of_getElem_eq
      intro i hi
      simp
    simp [putFlag, flagSet, clearField, h]
  · have h : (v ||| m) &&& m = m := by
      apply BitVec.eq_of_getElem_eq
      intro i hi
      simp only [BitVec.getElem_and, BitVec.getElem_or]
      cases v[i] <;> cases m[i] <;> rfl
    simp [putFlag, flagSet, setField, h, hm]

theorem isPowerOfTwo_ne_zero {n : Nat} (h : isPowerOfTwo n = true) : n ≠ 0 := by
  intro e
  subst e
  simp [isPowerOfTwo] at h

end Sys2Proof.Machine
end

