-- ==== Sys2Proof/Laws/PerInstr.lean ====
section
/-! SUPPORT. Statements made of each instruction in turn: who executes an encoded instruction is who executes the
instruction (30_encoding R99, the context column). -/

namespace Sys2Proof.Laws.EncodedAgent

/-- The agent read off the encoding is the instruction's. -/
def Statement (i : Instr) : Prop := ∀ p : Params, (encode p i).agent = i.agent

theorem rcr (o : Byte) (data : List Byte) : Statement (.rcr o data) := fun _ => rfl
theorem rbm (data : List Byte) : Statement (.rbm data) := fun _ => rfl
theorem wcr (o : Byte) (data : List Byte) : Statement (.wcr o data) := fun _ => rfl
theorem wbm (data : List Byte) : Statement (.wbm data) := fun _ => rfl
theorem bfs (o : Byte) (data : List Byte) : Statement (.bfs o data) := fun _ => rfl
theorem bfc (o : Byte) (data : List Byte) : Statement (.bfc o data) := fun _ => rfl
theorem src (data : List Byte) : Statement (.src data) := fun _ => rfl
theorem exchangeByte (data : Byte) : Statement (.exchangeByte data) := fun _ => rfl
theorem beginTransmit (buffer : Option Nat) (length : Nat) : Statement (.beginTransmit buffer length) := fun _ => rfl
theorem isBusy : Statement .isBusy := fun _ => rfl
theorem irqStep : Statement .irqStep := fun _ => rfl
theorem frameBegin : Statement .frameBegin := fun _ => rfl
theorem frameEnd : Statement .frameEnd := fun _ => rfl
theorem selectBank (addr : RegisterAddress) : Statement (.selectBank addr) := fun _ => rfl
theorem readRegister (addr : RegisterAddress) : Statement (.readRegister addr) := fun _ => rfl
theorem writeRegister (addr : RegisterAddress) (value : Byte) : Statement (.writeRegister addr value) := fun _ => rfl
theorem setBits (addr : RegisterAddress) (mask : Byte) : Statement (.setBits addr mask) := fun _ => rfl
theorem clearBits (addr : RegisterAddress) (mask : Byte) : Statement (.clearBits addr mask) := fun _ => rfl
theorem softReset : Statement .softReset := fun _ => rfl
theorem writePacket (payload : Option (List Byte)) : Statement (.writePacket payload) := fun _ => rfl
theorem readPacket (capacity : Nat) : Statement (.readPacket capacity) := fun _ => rfl
theorem initializeOp (mac : Option (Six Byte)) : Statement (.initializeOp mac) := fun _ => rfl
theorem send (payload : Option (List Byte)) : Statement (.send payload) := fun _ => rfl
theorem receive (capacity : Nat) : Statement (.receive capacity) := fun _ => rfl
theorem pollLinkUp : Statement .pollLinkUp := fun _ => rfl
theorem supIsBusy : Statement .supIsBusy := fun _ => rfl
theorem txComplete : Statement .txComplete := fun _ => rfl
theorem hardwareFault : Statement .hardwareFault := fun _ => rfl

end Sys2Proof.Laws.EncodedAgent
end

