-- ==== Sys2Proof/Laws/Run.lean ====
section
/-! SUPPORT. What one step can be, and runs of steps: they compose, and what every step keeps a run keeps. -/

namespace Sys2Proof.Machine

theorem State.setNotices_self (s : State) : s.setNotices s.notices = s := rfl

/-- An agent running what is encoded has run an instruction, or an unknown frame has crossed the wire. -/
theorem runEncoded_next {who : Agent} {w : Encoded} {s t : State} (h : runEncoded who w s = .next t) :
    (∃ i, decode s.params w = .ok i ∧ who = i.agent ∧ exec i s = .next t)
      ∨ ∃ bytes, w = .frame bytes ∧ who = .peer ∧ runUnknownFrame bytes s = .next t := by
  unfold runEncoded at h
  split at h
  · rename_i i hi
    unfold runInstr at h
    split at h
    · cases h
    · rename_i ha
      split at h
      · exact .inl ⟨i, hi, not_not.1 ha, h⟩
      · cases h
  · split at h
    · rename_i bytes _
      split at h
      · rename_i hp; exact .inr ⟨bytes, rfl, hp, h⟩
      · cases h
    · cases h

/-- What a step that answers a next state can be: none at all, an ENV action, an instruction (a notification handed over is
one, its entry gone from the list), or an unknown frame. -/
theorem step_cases {s t : State} (h : step s = .next t) :
    t = s ∨ ∃ it rest, s.fg = .running ∧ s.agenda = it :: rest ∧
      (t = s.setAgenda rest
        ∨ (∃ e, it = .env e ∧ t = applyEvent (s.setAgenda rest) e)
        ∨ (∃ i ns, exec i ((s.setAgenda rest).setNotices ns) = .next t)
        ∨ ∃ bytes, it = .instr .peer (.frame bytes) ∧ runUnknownFrame bytes (s.setAgenda rest) = .next t) := by
  unfold step runNext at h
  split at h
  · cases h; exact .inl rfl
  · rename_i hf
    split at h
    · cases h; exact .inl rfl
    · rename_i it rest ha
      refine .inr ⟨it, rest, hf, ha, ?_⟩
      cases it with
      | env e => cases h; exact .inr (.inl ⟨e, rfl, rfl⟩)
      | deliver =>
        simp only [runItem, deliverNotice] at h
        split at h
        · cases h; exact .inl rfl
        · rename_i ns _; exact .inr (.inr (.inl ⟨_, ns, h⟩))
        · rename_i ns _; exact .inr (.inr (.inl ⟨_, ns, h⟩))
      | instr who w =>
        obtain ⟨i, -, -, hi⟩ | ⟨bytes, rfl, rfl, hb⟩ := runEncoded_next h
        · exact .inr (.inr (.inl ⟨i, s.notices, hi⟩))
        · exact .inr (.inr (.inr ⟨bytes, rfl, hb⟩))

theorem Later.refl (s : State) : Later s s := ⟨0, rfl⟩

theorem runSteps_add (n m : Nat) {s t : State} (h : runSteps n s = .next t) : runSteps (n + m) s = runSteps m t := by
  induction n generalizing s with
  | zero => cases h; rw [Nat.zero_add]
  | succ n ih =>
    rw [show n + 1 + m = n + m + 1 by omega, runSteps]
    rw [runSteps] at h
    cases hs : step s with
    | next u => rw [hs] at h; exact ih h
    | fault e => rw [hs] at h; cases h
    | refused r => rw [hs] at h; cases h

theorem Later.trans {s t u : State} (h : Later s t) (h' : Later t u) : Later s u := by
  obtain ⟨n, hn⟩ := h
  obtain ⟨m, hm⟩ := h'
  exact ⟨n + m, by rw [runSteps_add n m hn, hm]⟩

theorem Later.of_step {s t : State} (h : step s = .next t) : Later s t := ⟨1, by simp [runSteps, h]⟩

/-- A state that steps to itself is where its runs stay. -/
theorem Later.idle {s u : State} (hs : step s = .next s) (h : Later s u) : u = s := by
  obtain ⟨n, hn⟩ := h
  induction n with
  | zero => cases hn; rfl
  | succ n ih => rw [runSteps, hs] at hn; exact ih hn

/-- The induction over a run: it is over, or its first step has been taken. -/
theorem Later.cases {s u : State} (h : Later s u) : u = s ∨ ∃ t, step s = .next t ∧ Later t u := by
  obtain ⟨n, hn⟩ := h
  cases n with
  | zero => cases hn; exact .inl rfl
  | succ n =>
    unfold runSteps at hn
    split at hn
    · rename_i t ht; exact .inr ⟨t, ht, n, hn⟩
    · cases hn
    · cases hn

/-- What every step keeps, a run keeps, or leaves for the first time somewhere on its way: either `P` holds at the end, or
some state of the run has `P` and its step leads to one without. -/
theorem Later.first_exit {P : State → Prop} {s u : State} (h : Later s u) (hs : P s) :
    P u ∨ ∃ t t', Later s t ∧ P t ∧ step t = .next t' ∧ ¬ P t' := by
  obtain ⟨n, hn⟩ := h
  induction n generalizing s with
  | zero => cases hn; exact .inl hs
  | succ n ih =>
    unfold runSteps at hn
    split at hn
    · rename_i t ht
      by_cases hp : P t
      · obtain h | ⟨v, v', hv, h⟩ := ih hp hn
        · exact .inl h
        · exact .inr ⟨v, v', (Later.of_step ht).trans hv, h⟩
      · exact .inr ⟨s, t, Later.refl s, hs, ht, hp⟩
    · cases hn
    · cases hn

end Sys2Proof.Machine
end

