-- ==== Sys2Proof/Laws/WireLog.lean ====
section
/-! SUPPORT. A wire log read back (30_encoding R98): the frames that were sent are the frames that are read. -/

namespace Sys2Proof.Machine

/-- Bytes inside a frame are gathered until its `End`. -/
theorem splitFrames_bytes (f bytes answers : List Byte) (w : List WireEvent) (h : answers.length = bytes.length) :
    splitFrames (some f) (List.zipWith WireEvent.byte bytes answers ++ .finish :: w) = (f ++ bytes) :: splitFrames none w := by
  induction bytes generalizing f answers with
  | nil => simp [splitFrames]
  | cons b bs ih =>
    cases answers with
    | nil => simp at h
    | cons a as =>
      have h : as.length = bs.length := by simpa using h
      simp [splitFrames, ih (f ++ [b]) as h]

/-- One frame in front of a log. -/
theorem splitFrames_frame (bytes answers : List Byte) (w : List WireEvent) (h : answers.length = bytes.length) :
    splitFrames none (frameEvents bytes answers ++ w) = bytes :: splitFrames none w := by
  have := splitFrames_bytes [] bytes answers w h
  simpa [frameEvents, splitFrames] using this

/-- Frames in order. -/
theorem splitFrames_frames (frames answers : List (List Byte)) (h : Answers frames answers) :
    splitFrames none (framesEvents frames answers) = frames := by
  induction frames generalizing answers with
  | nil => cases answers <;> rfl
  | cons f fs ih =>
    cases answers with
    | nil => simp [Answers] at h
    | cons a as =>
      simp only [Answers, List.map_cons, List.cons.injEq] at h
      rw [framesEvents, splitFrames_frame f a _ h.1, ih as h.2]

end Sys2Proof.Machine
end

