-- ==== Sys2Proof/Tests/Slice0.lean ====
section
/-! SUPPORT. Tests: the well-formedness checks, the decoding of words written out from 30_encoding R93 and R99, one step of
each instruction against the vectors of 95_test_vectors.md (the vector is named in each comment), and for each obligation a
state and operands that meet its hypotheses. No expected value here comes from running the model. -/

set_option maxRecDepth 8000

namespace Sys2Proof.Tests

open Sys2Proof Sys2Proof.Machine

/-! ### Helpers -/

/-- What a next state shows. -/
def shown {β : Type} (o : Host.Outcome State Fault Refusal) (f : State → β) : Option β :=
  match o with
  | .next t => some (f t)
  | .fault _ => none
  | .refused _ => none

/-- The fault an outcome is. -/
def faultOf (o : Host.Outcome State Fault Refusal) : Option Fault :=
  match o with
  | .next _ => none
  | .fault f => some f
  | .refused _ => none

/-- The refusal an outcome is. -/
def refusalOf (o : Host.Outcome State Fault Refusal) : Option Refusal :=
  match o with
  | .next _ => none
  | .fault _ => none
  | .refused r => some r

/-- The block with `Ctl.state` and `Ctl.currentBank` as given, a peer that answers `answers`. -/
def blockAt (st : CtlState) (bank : BitVec 2) (answers : List Byte) : State :=
  { State.reset with
    ctl := { State.reset.ctl with state := st, currentBank := bank }, wireEnd := .arbitrary, answers := answers }

/-- Reset with the reference peer as given. -/
def withPeer (c : Peer) : State := { State.reset with peer := c }

/-- Host memory of program P3: `01 02 03` at 16, `10 11 12 13 14` at 32. -/
def hostP3 : Memory :=
  [(16, 0x01#8), (17, 0x02#8), (18, 0x03#8), (32, 0x10#8), (33, 0x11#8), (34, 0x12#8), (35, 0x13#8), (36, 0x14#8)]

/-- A transmit of `01 02 03` with the cursor as given, its event pending or not. -/
def sending (cursor : Nat) (event : Bool) : State :=
  { State.reset with
    bus := .txBusy, txn := { buffer := some 16, length := 3, cursor := cursor }, hostMem := hostP3,
    spi := { State.reset.spi with txIE := true, byteReady := event }, wireEnd := .arbitrary, answers := [] }

/-- The bus does not answer. -/
def wedged : State := { State.reset with busUp := false }

/-- The peer with one cell stored. -/
def peerWith (cells : Memory) : Peer := { Peer.created Params.p0 with cells := cells }

/-- The reference peer with `Com[0x1F]` as given (key 1024 + 0x1F). -/
def econ1At (v : Byte) : Peer := peerWith [(1055, v)]

/-- The peer of V-PEER5: `Buf[0..1] = 04 00`, `pend = [6]`. -/
def peerPending : Peer :=
  { econ1At 0x05#8 with buf := [(0, 0x04#8), (2, 0xDE#8), (3, 0xAD#8), (4, 0xBE#8), (5, 0xEF#8)], rxw := 6, pend := [6] }

/-- The MAC address of the source's scenario. -/
def mac : Six Byte := { x0 := 0x54#8, x1 := 0x55#8, x2 := 0x58#8, x3 := 0x10#8, x4 := 0x00#8, x5 := 0x24#8 }

/-- A payload of `n` bytes. -/
def bytesOf (n : Nat) : List Byte := List.replicate n 0xAA#8

/-- FG with an agenda. -/
def withAgenda (items : List Item) (s : State) : State := { s with agenda := items }

/-! ### Parameters and well-formedness (10_state R30, 30_encoding R94, R100) -/

theorem test_p0_fits : Params.p0.ok = true ∧ Params.p0.noOverlap = true := by decide
theorem test_params_refuse_bank_mask : { Params.p0 with mBsel := 0x30#8 }.ok = false := by decide
theorem test_params_refuse_base_with_low_bits : { Params.p0 with opcWcr := 0x41#8 }.ok = false := by decide
theorem test_params_allow_equal_bases : { Params.p0 with addrBits := 7, opcWcr := 0x00#8, opcBfc := 0x80#8 }.ok = true := by
  decide
theorem test_params_refuse_two_bit_ready_flag : { Params.p0 with mClkrdy := 0x03#8 }.ok = false := by decide

theorem test_wf_offset : (Instr.rcr 0x1F#8 [0#8]).wf Params.p0 = true ∧ (Instr.rcr 0x20#8 [0#8]).wf Params.p0 = false
    ∧ (Instr.wcr 0x20#8 [0#8]).wf Params.p0 = false ∧ (Instr.bfs 0x20#8 [0#8]).wf Params.p0 = false
    ∧ (Instr.bfc 0x20#8 [0#8]).wf Params.p0 = false := by decide
theorem test_wf_address : (Instr.selectBank (.banked 3#2 0x1F#8)).wf Params.p0 = true
    ∧ (Instr.selectBank (.common 0x20#8)).wf Params.p0 = false
    ∧ (Instr.readRegister (.banked 0#2 0x20#8)).wf Params.p0 = false
    ∧ (Instr.writeRegister (.common 0x20#8) 0#8).wf Params.p0 = false
    ∧ (Instr.setBits (.common 0x20#8) 0#8).wf Params.p0 = false
    ∧ (Instr.clearBits (.common 0x20#8) 0#8).wf Params.p0 = false := by decide
theorem test_wf_length : (Instr.beginTransmit none 65535).wf Params.p0 = true
    ∧ (Instr.beginTransmit none 65536).wf Params.p0 = false ∧ (Instr.readPacket 65536).wf Params.p0 = false
    ∧ (Instr.receive 65536).wf Params.p0 = false := by decide
theorem test_wf_data_bytes : (Instr.rcr 0#8 []).wf Params.p0 = false ∧ (Instr.rcr 0#8 [0#8, 0#8]).wf Params.p0 = false
    ∧ (Instr.wcr 0#8 []).wf Params.p0 = false ∧ (Instr.bfs 0#8 []).wf Params.p0 = false
    ∧ (Instr.bfc 0#8 []).wf Params.p0 = false ∧ (Instr.rbm []).wf Params.p0 = false ∧ (Instr.wbm []).wf Params.p0 = false
    ∧ (Instr.src [0#8]).wf Params.p0 = false := by decide
theorem test_ill_formed_is_refused :
    refusalOf (step (withAgenda [.instr .fg (.call 0x06#5 [.reg (.common 0x20#8)])] State.reset)) = some .illFormed := by
  decide

/-! ### Decoding: a word of each constructor, from 30_encoding R93 and R99 (V-DEC1 to V-DEC14) -/

theorem test_decode_rcr : decode Params.p0 (.frame [0b00011001#8, 0#8]) = .ok (.rcr 0x19#8 [0#8]) := by decide
theorem test_decode_rcr_bounds : decodeCommand Params.p0 0x00#8 = .rcr 0x00#8 ∧ decodeCommand Params.p0 0x1F#8 = .rcr 0x1F#8 := by
  decide
theorem test_decode_rbm : decode Params.p0 (.frame [0b00111010#8, 0#8]) = .ok (.rbm [0#8]) := by decide
theorem test_decode_wcr : decode Params.p0 (.frame [0b01000100#8, 0x54#8]) = .ok (.wcr 0x04#8 [0x54#8]) := by decide
theorem test_decode_wcr_top : decodeCommand Params.p0 0x5F#8 = .wcr 0x1F#8 := by decide
theorem test_decode_wbm : decode Params.p0 (.frame [0b01111010#8, 0xDE#8]) = .ok (.wbm [0xDE#8]) := by decide
theorem test_decode_bfs : decode Params.p0 (.frame [0b10011111#8, 0x08#8]) = .ok (.bfs 0x1F#8 [0x08#8]) := by decide
theorem test_decode_bfc : decode Params.p0 (.frame [0b10111111#8, 0x03#8]) = .ok (.bfc 0x1F#8 [0x03#8]) := by decide
theorem test_decode_src : decode Params.p0 (.frame [0b11111111#8]) = .ok (.src []) := by decide
theorem test_decode_unknown : [0x3B#8, 0x60#8, 0xC0#8, 0xDF#8, 0xE0#8, 0xFE#8].map (decodeCommand Params.p0)
    = List.replicate 6 .unknown := by decide
theorem test_decode_exchangeByte : decode Params.p0 (.call 0b00000#5 [.byte 0x5A#8]) = .ok (.exchangeByte 0x5A#8) := by decide
theorem test_decode_beginTransmit :
    decode Params.p0 (.call 0b00001#5 [.hostAddr (some 16), .num 3]) = .ok (.beginTransmit (some 16) 3) := by decide
theorem test_decode_isBusy : decode Params.p0 (.call 0b00010#5 []) = .ok .isBusy := by decide
theorem test_decode_irqStep : decode Params.p0 (.call 0b00011#5 []) = .ok .irqStep := by decide
theorem test_decode_frameBegin : decode Params.p0 (.call 0b00100#5 []) = .ok .frameBegin := by decide
theorem test_decode_frameEnd : decode Params.p0 (.call 0b00101#5 []) = .ok .frameEnd := by decide
theorem test_decode_selectBank :
    decode Params.p0 (.call 0b00110#5 [.reg (.banked 3#2 4#8)]) = .ok (.selectBank (.banked 3#2 4#8)) := by decide
theorem test_decode_readRegister :
    decode Params.p0 (.call 0b00111#5 [.reg (.common 0x1D#8)]) = .ok (.readRegister (.common 0x1D#8)) := by decide
theorem test_decode_writeRegister : decode Params.p0 (.call 0b01000#5 [.reg (.banked 3#2 4#8), .byte 0x54#8])
    = .ok (.writeRegister (.banked 3#2 4#8) 0x54#8) := by decide
theorem test_decode_setBits : decode Params.p0 (.call 0b01001#5 [.reg (.common 0x1F#8), .byte 4#8])
    = .ok (.setBits (.common 0x1F#8) 4#8) := by decide
theorem test_decode_clearBits : decode Params.p0 (.call 0b01010#5 [.reg (.common 0x1F#8), .byte 4#8])
    = .ok (.clearBits (.common 0x1F#8) 4#8) := by decide
theorem test_decode_softReset : decode Params.p0 (.call 0b01011#5 []) = .ok .softReset := by decide
theorem test_decode_writePacket :
    decode Params.p0 (.call 0b01100#5 [.bytes (some [0xDE#8])]) = .ok (.writePacket (some [0xDE#8])) := by decide
theorem test_decode_readPacket : decode Params.p0 (.call 0b01101#5 [.num 128]) = .ok (.readPacket 128) := by decide
theorem test_decode_initialize : decode Params.p0 (.call 0b01110#5 [.mac none]) = .ok (.initializeOp none) := by decide
theorem test_decode_send : decode Params.p0 (.call 0b01111#5 [.bytes none]) = .ok (.send none) := by decide
theorem test_decode_receive : decode Params.p0 (.call 0b10000#5 [.num 128]) = .ok (.receive 128) := by decide
theorem test_decode_pollLinkUp : decode Params.p0 (.call 0b10001#5 []) = .ok .pollLinkUp := by decide
theorem test_decode_supIsBusy : decode Params.p0 (.call 0b10010#5 []) = .ok .supIsBusy := by decide
theorem test_decode_txComplete : decode Params.p0 (.call 0b10011#5 []) = .ok .txComplete := by decide
theorem test_decode_hardwareFault : decode Params.p0 (.call 0b10100#5 []) = .ok .hardwareFault := by decide
theorem test_decode_unassigned : decode Params.p0 (.call 0b10101#5 []) = .error .unassignedSelector := by decide
theorem test_decode_bad_operands : decode Params.p0 (.call 0b00000#5 []) = .error .badOperands := by decide

/-- The table's words through the two functions the host asks for, both kinds. -/
theorem test_table_words : decodeTableWord 8 0x3A = some (.rbm [0#8]) ∧ decodeTableWord 5 0x14 = some .hardwareFault
    ∧ decodeTableWord 8 0x15 = some (.rcr 0x15#8 [0#8]) ∧ decodeTableWord 8 0xC0 = none := by decide

/-! ### One step of each instruction (vectors of 95_test_vectors.md) -/

/-- V-BE1. -/
theorem test_exchangeByte : shown (exec (.exchangeByte 0x5A#8) (blockAt .uninitialized 0#2 [0xC3#8]))
    (fun t => (t.replies, t.wire)) = some ([.byte 0xC3#8], [.byte 0x5A#8 0xC3#8]) := by decide
/-- V-BE2. -/
theorem test_exchangeByte_interleaved : faultOf (exec (.exchangeByte 0#8) (sending 2 false)) = some .busInterleave := by
  decide
/-- V-BE3. -/
theorem test_beginTransmit : shown (exec (.beginTransmit (some 16) 3) { blockAt .uninitialized 0#2 [0x77#8] with hostMem := hostP3 })
    (fun t => (t.bus, t.txn, t.spi.txIE, t.wire, t.replies))
    = some (.txBusy, { buffer := some 16, length := 3, cursor := 1 }, true, [.byte 0x01#8 0x77#8], [.ok]) := by decide
/-- V-BE8. -/
theorem test_beginTransmit_busy : shown (exec (.beginTransmit (some 32) 5) (sending 2 false))
    (fun t => (t.txn, t.spi.txIE, t.wire, t.replies))
    = some ({ buffer := some 16, length := 3, cursor := 2 }, true, [], [.err .busy]) := by decide
/-- V-BE13, V-BE14. -/
theorem test_isBusy : shown (exec .isBusy State.reset) (·.replies) = some [.flag false]
    ∧ shown (exec .isBusy (sending 1 false)) (·.replies) = some [.flag true] := by decide
/-- V-BE4. -/
theorem test_irqStep_sends : shown (exec .irqStep { sending 1 true with answers := [0x77#8] })
    (fun t => (t.txn.cursor, t.wire, t.bus)) = some (2, [.byte 0x02#8 0x77#8], .txBusy) := by decide
/-- V-BE6. -/
theorem test_irqStep_finishes : shown (exec .irqStep (sending 3 true)) (fun t => (t.txn, t.wire, t.bus, t.spi.txIE))
    = some ({ buffer := some 16, length := 3, cursor := 0 }, [], .idle, false) := by decide
/-- V-BE15. -/
theorem test_frame_delimiters : shown (exec .frameBegin State.reset) (·.wire) = some [.begin]
    ∧ shown (exec .frameEnd State.reset) (·.wire) = some [.finish] := by decide
/-- V-RAP1. -/
theorem test_selectBank : shown (exec (.selectBank (.banked 3#2 0x04#8)) (blockAt .ready 0#2 [0x01#8, 0x02#8, 0x03#8, 0x04#8]))
    (fun t => (t.ctl.currentBank, t.wire)) = some (3#2,
      [.begin, .byte 0xBF#8 0x01#8, .byte 0x03#8 0x02#8, .finish, .begin, .byte 0x9F#8 0x03#8, .byte 0x03#8 0x04#8, .finish]) := by
  decide
/-- V-RAP2. -/
theorem test_selectBank_zero : shown (exec (.selectBank (.banked 0#2 0x08#8)) (blockAt .ready 2#2 [0#8, 0#8, 0#8, 0#8]))
    (fun t => (t.ctl.currentBank, t.wire)) = some (0#2,
      [.begin, .byte 0xBF#8 0#8, .byte 0x03#8 0#8, .finish, .begin, .byte 0x9F#8 0#8, .byte 0x00#8 0#8, .finish]) := by decide
/-- V-RAP4 from its bank on. -/
theorem test_readRegister : shown (exec (.readRegister (.banked 1#2 0x19#8)) (blockAt .ready 1#2 [0x55#8, 0x02#8]))
    (fun t => (t.replies, t.wire)) = some ([.byte 0x02#8], [.begin, .byte 0x19#8 0x55#8, .byte 0x00#8 0x02#8, .finish]) := by
  decide
/-- V-RAP6. -/
theorem test_writeRegister : shown (exec (.writeRegister (.banked 3#2 0x04#8) 0x54#8) (blockAt .ready 3#2 [0#8, 0#8]))
    (fun t => (t.replies, t.wire)) = some ([.returned], [.begin, .byte 0x44#8 0#8, .byte 0x54#8 0#8, .finish]) := by decide
/-- V-RAP11. -/
theorem test_writeRegister_forbidden :
    faultOf (exec (.writeRegister (.common 0x1F#8) 0#8) State.reset) = some .forbiddenBankWrite := by decide
/-- `A_ECON1` spelled with a bank is refused too (70 R243). -/
theorem test_writeRegister_alias :
    faultOf (exec (.writeRegister (.banked 2#2 0x1F#8) 0#8) State.reset) = some .forbiddenBankWrite := by decide
/-- V-RAP7, V-RAP12. -/
theorem test_setBits : shown (exec (.setBits (.common 0x1F#8) 0x04#8) (blockAt .ready 2#2 [0#8, 0#8]))
      (fun t => (t.ctl.currentBank, t.wire)) = some (2#2, [.begin, .byte 0x9F#8 0#8, .byte 0x04#8 0#8, .finish])
    ∧ faultOf (exec (.setBits (.common 0x1F#8) 0x05#8) State.reset) = some .forbiddenBankWrite := by decide
/-- V-RAP7. -/
theorem test_clearBits : shown (exec (.clearBits (.common 0x1F#8) 0x04#8) (blockAt .ready 2#2 [0#8, 0#8]))
      (fun t => (t.ctl.currentBank, t.wire)) = some (2#2, [.begin, .byte 0xBF#8 0#8, .byte 0x04#8 0#8, .finish]) := by decide
/-- V-RAP9. -/
theorem test_softReset_second_poll : shown (exec .softReset (withPeer { Peer.created Params.p0 with readyDelay := some 1 }))
    (fun t => (t.replies, t.ctl.currentBank, t.wire)) = some ([.ok], 0#2,
      [.begin, .byte 0xFF#8 0#8, .finish, .begin, .byte 0x1D#8 0#8, .byte 0#8 0#8, .finish,
        .begin, .byte 0x1D#8 0#8, .byte 0#8 0x01#8, .finish]) := by decide
/-- V-RAP8, with `RESET_POLL_MAX = 3`. -/
theorem test_softReset_timeout : shown (exec .softReset { blockAt .uninitialized 2#2 (List.replicate 7 0#8) with
      params := { Params.p0 with resetPollMax := 3 } })
    (fun t => (t.replies, t.ctl.currentBank, t.ctl.state, t.wire.length)) = some ([.err .timeout], 0#2, .uninitialized, 15) := by
  decide
/-- V-BMP1. -/
theorem test_writePacket : shown (exec (.writePacket (some [0xDE#8, 0xAD#8])) (blockAt .ready 0#2 [0#8, 0#8, 0#8]))
    (fun t => (t.replies, t.wire)) = some ([.ok], [.begin, .byte 0x7A#8 0#8, .byte 0xDE#8 0#8, .byte 0xAD#8 0#8, .finish]) := by
  decide
/-- V-BMP3: the state check comes first. -/
theorem test_writePacket_order : shown (exec (.writePacket (some [])) (blockAt .txBusy 0#2 [])) (·.replies)
    = some [.err .notReady] := by decide
/-- V-BMP6. -/
theorem test_readPacket_truncated : shown (exec (.readPacket 2)
      (blockAt .ready 1#2 [0#8, 0x01#8, 0#8, 0x04#8, 0#8, 0#8, 0xDE#8, 0xAD#8, 0xBE#8, 0xEF#8]))
    (fun t => (t.replies, t.answers, t.wire.length)) = some ([.packet [0xDE#8, 0xAD#8] .truncated], [], 16) := by decide
/-- V-BMP9: `L = 0`, no second frame. -/
theorem test_readPacket_empty : shown (exec (.readPacket 128) (blockAt .ready 1#2 [0#8, 0x01#8, 0#8, 0#8, 0#8]))
    (fun t => (t.replies, t.wire.length)) = some ([.packet [] .ok], 9) := by decide
/-- P1 (V-SUP1): the block's end state and the 29 bytes. -/
theorem test_initialize : shown (exec (.initializeOp (some mac)) State.reset)
    (fun t => (t.replies, t.ctl, t.wire.filterMap fun e => match e with | .byte d _ => some d | _ => none))
    = some ([.ok], { macAddress := mac, currentBank := 3#2, state := .ready },
      [0xFF#8, 0x1D#8, 0#8, 0x48#8, 0#8, 0x49#8, 0#8, 0x4A#8, 0xFF#8, 0x4B#8, 0x19#8, 0xBF#8, 0x03#8, 0x9F#8, 0x03#8,
        0x44#8, 0x54#8, 0x45#8, 0x55#8, 0x42#8, 0x58#8, 0x43#8, 0x10#8, 0x40#8, 0#8, 0x41#8, 0x24#8, 0x9F#8, 0x04#8]) := by
  decide
/-- V-SUP2, V-SUP4. -/
theorem test_initialize_rejected : shown (exec (.initializeOp none) State.reset) (fun t => (t.replies, t.ctl.state))
      = some ([.errAt .invalidArgument .validate], .error)
    ∧ shown (exec (.initializeOp (some mac)) (blockAt .ready 0#2 [])) (fun t => (t.replies, t.ctl.state))
      = some ([.errAt .notReady .notStarted], .ready) := by decide
/-- V-SUP5 with two bytes. -/
theorem test_send : shown (exec (.send (some [0xAA#8, 0xAA#8])) (blockAt .ready 3#2 (List.replicate 5 0#8)))
    (fun t => (t.replies, t.ctl.state, t.wire)) = some ([.ok], .txBusy,
      [.begin, .byte 0x7A#8 0#8, .byte 0xAA#8 0#8, .byte 0xAA#8 0#8, .finish, .begin, .byte 0x9F#8 0#8, .byte 0x08#8 0#8, .finish]) := by
  decide
/-- V-SUP7, with `MAX_FRAME = 4`. -/
theorem test_send_too_long : shown (exec (.send (some (bytesOf 5)))
      { blockAt .ready 3#2 [] with params := { Params.p0 with maxFrame := 4 } })
    (fun t => (t.replies, t.ctl.state, t.wire)) = some ([.err .invalidArgument], .ready, []) := by decide
/-- V-SUP19. -/
theorem test_receive : shown (exec (.receive 2)
      (blockAt .txBusy 1#2 [0#8, 0x01#8, 0#8, 0x04#8, 0#8, 0#8, 0xDE#8, 0xAD#8, 0xBE#8, 0xEF#8]))
    (fun t => (t.replies, t.ctl.state)) = some ([.packet [0xDE#8, 0xAD#8] .truncated], .txBusy) := by decide
/-- V-SUP20. -/
theorem test_receive_rejected : shown (exec (.receive 128) State.reset) (fun t => (t.replies, t.wire))
    = some ([.err .notReady], []) := by decide
/-- V-SUP15. -/
theorem test_pollLinkUp : shown (exec .pollLinkUp (blockAt .ready 2#2 [0#8, 0xFB#8])) (fun t => (t.replies, t.wire))
    = some ([.flag false], [.begin, .byte 0x19#8 0#8, .byte 0#8 0xFB#8, .finish]) := by decide
/-- V-SUP21. -/
theorem test_supIsBusy : shown (exec .supIsBusy (blockAt .txBusy 0#2 [])) (·.replies) = some [.flag true]
    ∧ shown (exec .supIsBusy (blockAt .error 0#2 [])) (·.replies) = some [.flag false]
    ∧ shown (exec .supIsBusy (sending 1 false)) (·.replies) = some [.flag true] := by decide
/-- V-SUP10, V-SUP11. -/
theorem test_txComplete : shown (exec .txComplete (blockAt .txBusy 0#2 [])) (·.ctl.state) = some .ready
    ∧ shown (exec .txComplete (blockAt .error 0#2 [])) (·.ctl.state) = some .error := by decide
/-- V-SUP12, V-SUP13. -/
theorem test_hardwareFault : shown (exec .hardwareFault (blockAt .ready 0#2 [])) (·.ctl.state) = some .error
    ∧ shown (exec .hardwareFault (blockAt .uninitialized 0#2 [])) (·.ctl.state) = some .uninitialized := by decide

/-- V-PEER1. -/
theorem test_rcr_ready_flag : shown (exec (.rcr 0x1D#8 [0#8]) (withPeer { Peer.created Params.p0 with wasReset := true }))
    (fun t => (t.wire, t.peer.polls)) = some ([.begin, .byte 0x1D#8 0#8, .byte 0#8 0x01#8, .finish], 1) := by decide
/-- V-PEER15: the link bit from `linkUp`, the rest as stored (key of `Reg[2][0x19]`: 512 + 25). -/
theorem test_rcr_link_bit : shown (exec (.rcr 0x19#8 [0#8])
      (withPeer { peerWith [(537, 0xFF#8), (1055, 0x02#8)] with linkUp := false })) (·.wire)
    = some [.begin, .byte 0x19#8 0#8, .byte 0#8 0xFB#8, .finish] := by decide
/-- V-PEER2 (key of `Reg[3][0x04]`: 768 + 4). -/
theorem test_wcr : shown (exec (.wcr 0x04#8 [0x54#8]) (withPeer (econ1At 0x03#8))) (fun t => t.peer.cells)
    = some [(772, 0x54#8), (1055, 0x03#8)] := by decide
/-- V-PEER9: a write to the packet count is ignored. -/
theorem test_wcr_packet_count : shown (exec (.wcr 0x19#8 [0x07#8]) (withPeer { econ1At 0x01#8 with pend := [6] }))
    (fun t => (t.peer.cells, t.peer.pend)) = some ([(1055, 0x01#8)], [6]) := by decide
/-- V-PEER3. -/
theorem test_bfs : shown (exec (.bfs 0x1F#8 [0x03#8]) (withPeer (Peer.created Params.p0)))
    (fun t => (t.peer.cells, t.peer.bank Params.p0)) = some ([(1055, 0x03#8)], 3#2) := by decide
/-- V-PEER13: setting the transmit-request bit sends what is staged. -/
theorem test_bfs_sends : shown (exec (.bfs 0x1F#8 [0x08#8])
      (withPeer { econ1At 0x07#8 with buf := [(0x1A00, 0xDE#8), (0x1A01, 0xAD#8)], wrpt := 0x1A02 }))
    (fun t => (t.peer.cells, t.peer.sent)) = some ([(1055, 0x0F#8)], [[0xDE#8, 0xAD#8]]) := by decide
/-- V-PEER4. -/
theorem test_bfc : shown (exec (.bfc 0x1F#8 [0x03#8]) (withPeer (econ1At 0x07#8)))
    (fun t => (t.peer.cells, t.peer.bank Params.p0)) = some ([(1055, 0x04#8)], 0#2) := by decide
/-- V-PEER5. -/
theorem test_rbm : shown (exec (.rbm [0#8, 0#8]) (withPeer peerPending)) (fun t => (t.wire, t.peer.rdpt, t.peer.eaten))
    = some ([.begin, .byte 0x3A#8 0#8, .byte 0#8 0x04#8, .byte 0#8 0#8, .finish], 2, 2) := by decide
/-- 44 R183: the packet is released with its last byte. -/
theorem test_rbm_release : shown (exec (.rbm [0#8]) (withPeer { peerPending with rdpt := 5, eaten := 5 }))
    (fun t => (t.peer.pend, t.peer.eaten, t.peer.rdpt)) = some ([], 0, 6) := by decide
/-- V-PEER6. -/
theorem test_wbm : shown (exec (.wbm [0xDE#8, 0xAD#8]) State.reset) (fun t => (t.peer.buf, t.peer.wrpt))
    = some ([(0x1A00, 0xDE#8), (0x1A01, 0xAD#8)], 0x1A02) := by decide
/-- 44 R190: the write pointer wraps. -/
theorem test_wbm_wraps : shown (exec (.wbm [0x11#8, 0x22#8]) (withPeer { Peer.created Params.p0 with wrpt := 8191 }))
    (fun t => (t.peer.buf, t.peer.wrpt)) = some ([(0, 0x22#8), (8191, 0x11#8)], 1) := by decide
/-- V-PEER7. -/
theorem test_src : shown (exec (.src []) (withPeer { econ1At 0x07#8 with wrpt := 0x1A02, pend := [6], buf := [(0, 0x04#8)] }))
    (fun t => (t.peer.cells, t.peer.wrpt, t.peer.pend, t.peer.buf)) = some ([], 0x1A00, [], [(0, 0x04#8)]) := by decide
/-- 30_encoding R98: a log read back, frame by frame. -/
theorem test_readLog : readLog Params.p0 [.begin, .byte 0xFF#8 0#8, .finish, .byte 0x55#8 0#8, .begin, .byte 0x1D#8 0#8,
    .byte 0#8 1#8, .finish] = [.ok (.src []), .ok (.rcr 0x1D#8 [0#8])] := by decide
/-- V-PEER10. -/
theorem test_unknown_frame : shown (step (withAgenda [.instr .peer (.frame [0xC5#8, 0x12#8])] State.reset)) (·.wire)
    = some [.begin, .byte 0xC5#8 0#8, .byte 0x12#8 0#8, .finish] := by decide
/-- V-PEER11. -/
theorem test_peerDeliver : shown (step (withAgenda [.env (.peerDeliver [0xDE#8, 0xAD#8])] (withPeer (econ1At 0x07#8))))
    (fun t => (t.peer.buf, t.peer.rxw, t.peer.pend)) = some ([(0, 0x02#8), (2, 0xDE#8), (3, 0xAD#8)], 4, [4]) := by decide
/-- V-PEER14. -/
theorem test_peerTxDone : shown (step (withAgenda [.env .peerTxDone] (withPeer { econ1At 0x0F#8 with wrpt := 0x1A02 })))
    (fun t => (t.peer.cells, t.peer.wrpt, t.notices)) = some ([(1055, 0x07#8)], 0x1A00, [.txComplete]) := by decide
/-- V-BE16: an event with `TxIE = 0` is not remembered. -/
theorem test_event_forgotten : shown (step (withAgenda [.env .byteReady] State.reset)) (·.spi.byteReady) = some false := by
  decide
/-- 60_exceptions R216. -/
theorem test_wrong_context : refusalOf (step (withAgenda [.instr .irq (.call 0x02#5 [])] State.reset)) = some .wrongContext := by
  decide
/-- 40 R112: a stuck bus, FG hung. -/
theorem test_stuck_bus : shown (exec (.exchangeByte 0#8) wedged) (fun t => (t.fg, t.wire)) = some (.hung, []) := by decide

/-! ### Witnesses: for each obligation with hypotheses, a state and operands that meet them -/

/-- The reference peer with reception enabled, bank 0 selected, nothing pending; the block is Ready. -/
def readyState : State := { withPeer (econ1At 0x04#8) with ctl := { State.reset.ctl with state := .ready } }

/-- Ready, with a transmit of the Bus Engine in flight. -/
def readyBusy : State := { sending 1 false with ctl := { State.reset.ctl with state := .ready } }

/-- FG may use the wire from a state like reset. -/
theorem witness_WireFree : WireFree State.reset ∧ WireFree readyState ∧ Quiet readyState := ⟨⟨by decide, rfl⟩, ⟨by decide, rfl⟩, rfl, rfl⟩
/-- A plan that stops the bus and starts it again leaves it responsive. -/
theorem witness_BusResponsive : BusResponsive { wedged with plan := [[.busStuck], [.busResponds]] } := rfl
theorem witness_PeerFits : PeerFits Params.p0 := ⟨by decide, by decide, by decide⟩
theorem witness_BankCoherent : BankCoherent readyState := by unfold BankCoherent; decide
theorem witness_PeerInv : PeerInv readyState := ⟨by decide, by decide, by decide⟩
theorem witness_PlainRegister : PlainRegister Params.p0 3#2 0x1A#8 ∧ PlainRegister Params.p0 0#2 0x00#8 := by
  unfold PlainRegister; decide
theorem witness_BusInv : BusInv (withAgenda [.instr .irq (.call 0x03#5 [])] (sending 3 true)) :=
  ⟨by decide, by decide, by decide, by decide⟩

/-- `irqStep` in flight: a state with the invariant and a step. -/
theorem witness_StepKeepsInv : Inv (withAgenda [.instr .irq (.call 0x03#5 [])] (sending 3 true))
    ∧ ∃ t, step (withAgenda [.instr .irq (.call 0x03#5 [])] (sending 3 true)) = .next t :=
  ⟨⟨by decide, by unfold MemoryWf; decide, witness_BusInv, ⟨by decide, by decide, by decide⟩⟩, _, rfl⟩
theorem witness_StepNeverChangesTheParameters : ∃ t, step (withAgenda [.env (.setLink false)] State.reset) = .next t := ⟨_, rfl⟩
theorem witness_BusStateMovesOnlyBetweenIdleAndTxBusy :
    (∃ t, step (withAgenda [.instr .irq (.call 0x03#5 [])] (sending 3 true)) = .next t ∧ t.bus = .idle)
    ∧ { State.reset with bus := .rxBusy }.bus = .rxBusy ∧ { State.reset with bus := .error }.bus = .error :=
  ⟨⟨_, rfl, rfl⟩, rfl, rfl⟩
theorem witness_NoInstructionWritesHostMemory : ∃ t, (sending 2 true).plan = [] ∧ exec .irqStep (sending 2 true) = .next t :=
  ⟨_, rfl, rfl⟩

theorem witness_DecodeOfEncodeIsTheInstruction : Params.p0.ok = true ∧ Params.p0.noOverlap = true
    ∧ (Instr.wcr 0x1F#8 [0xFF#8]).wf Params.p0 = true ∧ (Instr.beginTransmit (some 0) 65535).wf Params.p0 = true := by decide
theorem witness_EncodeOfDecodedIsTheWord : decode Params.p0 (.frame [0x5F#8, 1#8, 2#8]) = .ok (.wcr 0x1F#8 [1#8, 2#8])
    ∧ decode Params.p0 (.call 0x12#5 []) = .ok .supIsBusy := by decide
/-- A log of two frames; each command byte. -/
theorem witness_FullCommandBytesAreReadFirst : Answers [[0xFF#8], [0x1D#8, 0#8]] [[0#8], [0#8, 1#8]] ∧ Params.p0.ok = true ∧ 0xFF#8 = Params.p0.opcSrc ∧ 0x3A#8 = Params.p0.opcRbm
    ∧ 0x7A#8 = Params.p0.opcWbm ∧ (0xFE#8 ∉ Params.p0.fullBytes ∧ 0xFE#8 &&& Params.p0.opMask ∉ Params.p0.bases)
    ∧ (0x1F#8 ∉ Params.p0.fullBytes ∧ 0x1F#8 &&& Params.p0.opMask = Params.p0.opcRcr)
    ∧ (0x5F#8 ∉ Params.p0.fullBytes ∧ 0x5F#8 &&& Params.p0.opMask = Params.p0.opcWcr)
    ∧ (0x9F#8 ∉ Params.p0.fullBytes ∧ 0x9F#8 &&& Params.p0.opMask = Params.p0.opcBfs)
    ∧ 0xBF#8 ∉ Params.p0.fullBytes ∧ 0xBF#8 &&& Params.p0.opMask = Params.p0.opcBfc
    ∧ 0xBF#8 &&& Params.p0.opMask ∉ [Params.p0.opcRcr, Params.p0.opcWcr, Params.p0.opcBfs] := by unfold Answers; decide
/-- Two bases equal: the earlier command of the order. -/
theorem test_decode_equal_bases : { Params.p0 with opcBfc := 0x80#8 }.ok = true
    ∧ decode { Params.p0 with opcBfc := 0x80#8 } (.frame [0x9F#8, 0x03#8]) = .ok (.bfs 0x1F#8 [0x03#8]) := by decide
/-- Both sides of each clause, at the neighbours of the assigned bytes. -/
theorem witness_ReservedCommandBytesAreRefused :
    [0xC0#8, 0xDF#8, 0x39#8, 0x3B#8, 0x79#8, 0x7B#8, 0xE0#8, 0xFE#8].map (decodeCommand Params.p0)
      = List.replicate 8 .unknown ∧ decodeCommand Params.p0 0xBF#8 = .bfc 0x1F#8 := by decide
theorem witness_UnassignedSelectorsAreRefused : 0x14 < (0x15#5).toNat ∧ (0x14#5).toNat ≤ 0x14 ∧ (0x03#5).toNat ≤ 0x14 := by decide

/-- An operation, the interrupt step and a wire command. -/
theorem witness_StepRunsTheDecodedInstruction :
    (withAgenda [.instr .fg (.call 0x0B#5 [])] State.reset).fg = .running
    ∧ decode Params.p0 (.call 0x0B#5 []) = .ok .softReset ∧ Instr.softReset.agent = .fg ∧ Instr.softReset.wf Params.p0 = true
    ∧ decode Params.p0 (.call 0x03#5 []) = .ok .irqStep ∧ Instr.irqStep.agent = .irq ∧ Instr.irqStep.wf Params.p0 = true
    ∧ decode Params.p0 (.frame [0x3A#8, 0#8]) = .ok (.rbm [0#8]) ∧ (Instr.rbm [0#8]).agent = .peer
    ∧ (Instr.rbm [0#8]).wf Params.p0 = true := by decide
/-- Stuck; nothing to do; an operation called from the interrupt; a call without a meaning; an offset out of range, at its
bound; a frame of no known command given to FG. -/
theorem witness_StepIdlesOrRefuses : { wedged with fg := .hung }.fg = .hung ∧ State.reset.agenda = []
    ∧ State.reset.fg = .running ∧ decode Params.p0 (.call 0x02#5 []) = .ok .isBusy ∧ Agent.irq ≠ Instr.isBusy.agent
    ∧ decode Params.p0 (.call 0x15#5 []) = .error .unassignedSelector
    ∧ decode Params.p0 (.call 0x07#5 [.reg (.common 0x20#8)]) = .ok (.readRegister (.common 0x20#8))
    ∧ (Instr.readRegister (.common 0x20#8)).operandsOk Params.p0 = false
    ∧ Agent.fg ≠ Agent.peer ∧ decode Params.p0 (.frame [0xC5#8]) = .error .unknownCommand := by decide
theorem witness_UnknownFrameChangesNothing :
    (withAgenda [.instr .peer (.frame [0xC5#8, 0x12#8])] State.reset).fg = .running
    ∧ decode Params.p0 (.frame [0xC5#8, 0x12#8]) = .error .unknownCommand := by decide
theorem witness_NotificationsAreDeliveredInForeground :
    (withAgenda [.env (.notify .txComplete)] State.reset).fg = .running
    ∧ (withAgenda [.deliver] { State.reset with notices := [.hardwareFault] }).notices = [.hardwareFault] := by decide

/-- A transmit in flight; a bus that answers; a bus that never answers, whatever else ENV does. -/
theorem witness_ExchangeByteExchangesOneByte : (sending 2 false).bus = .txBusy
    ∧ WireFree (blockAt .ready 0#2 [0xC3#8])
    ∧ (wedged.bus ≠ .txBusy ∧ wedged.busUp = false
      ∧ ∀ es ∈ { wedged with plan := [[.setLink false]] }.plan, EnvEvent.busResponds ∉ es) :=
  ⟨rfl, ⟨by decide, rfl⟩, by decide⟩
theorem witness_ExchangedByteStandsInTheSpiRegisters : WireFree (blockAt .ready 0#2 [0xC3#8]) ∧ Quiet (blockAt .ready 0#2 [0xC3#8])
    ∧ (blockAt .ready 0#2 [0xC3#8]).wireEnd = .arbitrary ∧ (blockAt .ready 0#2 [0xC3#8]).answers = 0xC3#8 :: [] :=
  ⟨⟨by decide, rfl⟩, ⟨rfl, rfl⟩, rfl, rfl⟩
theorem witness_FrameDelimitersOnlyShapeTheWire : (sending 2 false).bus = .txBusy ∧ wedged.bus ≠ .txBusy
    ∧ { State.reset with bus := .error }.bus ≠ .txBusy := by decide
theorem witness_BeginTransmitChecksItsArgumentFirst :
    (none : Option Nat) = none ∧ (0 : Nat) = 0 ∧ (sending 2 false).bus = .txBusy := by decide
/-- From TxBusy, RxBusy and Idle, with one byte. -/
theorem witness_BeginTransmitClaimsTheBusOrReportsBusy : (1 : Nat) ≠ 0 ∧ (sending 2 false).bus ≠ .idle
    ∧ { State.reset with bus := .rxBusy }.bus ≠ .idle ∧ State.reset.bus = .idle := by decide
theorem witness_AcceptedTransmitSendsByteZero : State.reset.bus = .idle ∧ BusResponsive State.reset
    ∧ Memory.read .host { State.reset with hostMem := hostP3 }.hostMem 16 = some 0x01#8
    ∧ wedged.bus = .idle ∧ wedged.busUp = false ∧ wedged.plan = [] := ⟨rfl, rfl, by decide, rfl, rfl, rfl⟩
theorem witness_IsBusyForetellsAcceptance : BusResponsive State.reset ∧ BusResponsive (sending 1 false) := ⟨rfl, rfl⟩
/-- The last byte; no byte left. -/
theorem witness_IrqStepSendsTheNextByteOrFinishes :
    (irqEnabled (sending 2 true) = true ∧ (sending 2 true).txn.cursor < (sending 2 true).txn.length
      ∧ Memory.read .host (sending 2 true).hostMem (16 + 2) = some 0x03#8)
    ∧ (irqEnabled (sending 3 true) = true ∧ (sending 3 true).txn.length ≤ (sending 3 true).txn.cursor) := by decide
theorem witness_ByteReadyEventsPendOnlyWhileEnabledOrMasked : (sending 1 false).spi.txIE = true
    ∧ { State.reset with irqMasked := true }.irqMasked = true ∧ State.reset.spi.txIE = false ∧ State.reset.irqMasked = false
    ∧ (withAgenda [.env .byteReady] State.reset).fg = .running ∧ irqEnabled { sending 2 true with irqMasked := true } = false
    ∧ irqEnabled (sending 2 false) = false := by decide
theorem witness_TransmitOfNBytesTakesNInterruptSteps : Quiet { State.reset with hostMem := hostP3 }
    ∧ ∀ k (h : k < 3), Memory.read .host { State.reset with hostMem := hostP3 }.hostMem (16 + k)
      = some ([0x01#8, 0x02#8, 0x03#8][k]) := ⟨⟨rfl, rfl⟩, by decide⟩

/-- A run of one round that ends the transaction in flight. -/
def lastRound : State := withAgenda [.env .byteReady, .instr .irq (.call 0x03#5 [])] (sending 3 false)
/-- The premise `ByteReadyFair` is met by a run that raises the event and takes the step. -/
theorem witness_ByteReadyFair : BusInv lastRound ∧ lastRound.spi.txIE = true ∧ ByteReadyFair lastRound := by
  refine ⟨⟨by decide, by decide, by decide, by decide⟩, rfl, ?_⟩
  have h1 : step lastRound = .next (withAgenda [.instr .irq (.call 0x03#5 [])] (sending 3 true)) := rfl
  have fair : irqEnabled (withAgenda [.instr .irq (.call 0x03#5 [])] (sending 3 true)) = true := rfl
  intro t ht hie
  obtain rfl | ⟨u, hu, ht⟩ := Later.cases ht
  · exact ⟨_, [], Later.of_step h1, fair, rfl, rfl⟩
  cases h1.symm.trans hu
  obtain rfl | ⟨v, hv, ht⟩ := Later.cases ht
  · exact ⟨_, [], Later.refl _, fair, rfl, rfl⟩
  cases hv
  cases Later.idle rfl ht
  cases hie

/-- The selected bank, a common address; another bank, with and without a transmit in flight. -/
theorem witness_SelectBankSendsClearThenSet : bankFrames Params.p0 0#2 (.banked 0#2 0x1F#8) = []
    ∧ bankFrames Params.p0 3#2 (.common 0x1F#8) = []
    ∧ bankFrames Params.p0 (sending 1 false).ctl.currentBank (.banked 3#2 0x04#8) ≠ [] ∧ (sending 1 false).bus = .txBusy := by
  decide
theorem witness_ReadRegisterReturnsTheByteOfTheDummy : (sending 1 false).bus = .txBusy ∧ State.reset.bus ≠ .txBusy := by decide
/-- The bank register itself, and other registers, with and without a transmit. -/
theorem witness_WriteRegisterSendsTheValue : RegisterAddress.common 0x1F#8 = State.reset.params.aEcon1
    ∧ namesBankRegister (sending 1 false).params (.common 0x1E#8) = false ∧ (sending 1 false).bus = .txBusy
    ∧ namesBankRegister State.reset.params (.banked 3#2 0x04#8) = false := by decide
/-- A mask with one bank bit; the bank register without one; another register with both. -/
theorem witness_SetAndClearBitsSendTheMask : RegisterAddress.common 0x1F#8 = State.reset.params.aEcon1
    ∧ 0x02#8 &&& State.reset.params.mBsel ≠ 0#8 ∧ 0xFC#8 &&& State.reset.params.mBsel = 0#8
    ∧ namesBankRegister State.reset.params (.common 0x1E#8) = false ∧ (sending 1 false).bus = .txBusy := by decide
theorem witness_SoftResetPollsWithinTheBound : State.reset.params.ok = true ∧ (sending 1 false).params.ok = true
    ∧ (sending 1 false).bus = .txBusy ∧ { Params.p0 with resetPollMax := 1 }.ok = true := by decide
theorem witness_BankedWriteReadsBackAfterOtherAccesses : readyState.params.ok = true ∧ readyState.params.noOverlap = true
    ∧ readyState.wireEnd = .reference ∧ readyState.bus ≠ .txBusy ∧ readyState.params.offsetOk 0x1A#8 = true
    ∧ UnrelatedAccess readyState.params 3#2 0x1A#8 (.readRegister (.banked 3#2 0x1A#8))
    ∧ UnrelatedAccess readyState.params 3#2 0x1A#8 (.writeRegister (.banked 2#2 0x1A#8) 0xFF#8)
    ∧ UnrelatedAccess readyState.params 3#2 0x1A#8 (.setBits (.common 0x1F#8) 0x04#8)
    ∧ UnrelatedAccess readyState.params 3#2 0x1A#8 (.clearBits (.banked 3#2 0x19#8) 0xFF#8) := by
  refine ⟨by decide, by decide, by decide, by decide, by decide, ?_, ⟨?_, .inr ⟨2#2, ?_, ?_⟩, ?_⟩, ⟨?_, .inl ?_, .inr ?_⟩,
    ⟨?_, .inl ?_, .inl ?_⟩⟩ <;> first | rfl | decide
/-- `A_ECON1` under another name and a mask that meets the bank bits; a write to another bank. -/
theorem witness_CachedBankIsTheSelectedBank : RegisterAddress.banked 2#2 0x1F#8 ≠ readyState.params.aEcon1
    ∧ namesBankRegister readyState.params (.banked 2#2 0x1F#8) = true ∧ 0x01#8 &&& readyState.params.mBsel ≠ 0#8
    ∧ RegisterAddress.ok readyState.params (.banked 3#2 0x04#8) = true
    ∧ ∃ t, exec (.writeRegister (.banked 3#2 0x04#8) 0x54#8) readyState = .next t ∧ t.fg = .running :=
  ⟨by decide, by decide, by decide, by decide, _, rfl, rfl⟩

/-- Not Ready; Ready with null and with the empty payload; with one byte during a transmit and without. -/
theorem witness_WritePacketStagesOneFrame : State.reset.ctl.state ≠ .ready ∧ readyState.ctl.state = .ready
    ∧ (none : Option (List Byte)).getD [] = [] ∧ (some []).getD ([] : List Byte) = [] ∧ (some [0xDE#8]).getD [] ≠ []
    ∧ readyBusy.ctl.state = .ready ∧ readyBusy.bus = .txBusy := by decide
theorem witness_ReadPacketReadsCountHeaderPayload : readyBusy.params.ok = true ∧ readyBusy.bus = .txBusy
    ∧ readyState.params.ok = true := by decide
/-- No byte wanted, one wanted and more there. -/
theorem witness_ReceiveNeverReturnsMoreThanCapacity :
    shown (exec (.receive 0) (blockAt .ready 1#2 [0#8, 1#8, 0#8, 1#8, 0#8, 0#8, 0xDE#8])) (·.replies) = some [.packet [] .truncated]
    ∧ shown (exec (.readPacket 1) (blockAt .ready 1#2 [0#8, 1#8, 0#8, 1#8, 0#8, 0#8, 0xDE#8])) (·.replies)
      = some [.packet [0xDE#8] .ok] := by decide
theorem witness_DeliveredPacketIsReceived : flagSet (readyState.peer.stored (econ1Cell readyState.params)) readyState.params.mRxen = true
    ∧ readyState.peer.pend = [] ∧ readyState.peer.eaten = 0 ∧ readyState.peer.rdpt = readyState.peer.rxw
    ∧ readyState.bus ≠ .txBusy ∧ readyState.wireEnd = .reference ∧ ([0xDE#8, 0xAD#8] : List Byte).length ≤ 65535
    ∧ readyState.params.hdrBytes + 2 ≤ readyState.params.bufSize ∧ acceptsReceive readyState.ctl.state = true := by decide

theorem witness_InitializeBringsTheControllerUp : (∀ w ∈ Params.p0.rxcfg, namesBankRegister Params.p0 w.1 = false)
    ∧ (∀ a ∈ Params.p0.aMaadr.toList, namesBankRegister Params.p0 a = false) ∧ acceptsInitialize readyState.ctl.state = false
    ∧ acceptsInitialize (blockAt .resetting 0#2 []).ctl.state = false
    ∧ acceptsInitialize State.reset.ctl.state = true ∧ acceptsInitialize (blockAt .error 0#2 []).ctl.state = true
    ∧ acceptsInitialize (sending 1 false).ctl.state = true ∧ (sending 1 false).bus = .txBusy ∧ some mac ≠ none := by decide
theorem witness_BringUpSucceedsWithAReadyController : Quiet State.reset ∧ acceptsInitialize State.reset.ctl.state = true
    ∧ (∃ d, State.reset.peer.readyDelay = some d ∧ d < State.reset.params.resetPollMax) ∧ State.reset.params.mRxen ≠ 0#8
    ∧ ∀ a ∈ [Params.p0.aEpktcnt, Params.p0.aPhystat], a.off ≠ Params.p0.aEstat.off :=
  ⟨⟨rfl, rfl⟩, by decide, ⟨0, by decide, by decide⟩, by decide, by decide⟩
/-- Not Ready; one byte too many; null; the longest payload allowed, during a transmit and without. -/
theorem witness_SendStagesThenRequestsTransmission : State.reset.ctl.state ≠ .ready ∧ readyState.ctl.state = .ready
    ∧ readyState.params.maxFrame < ((some (bytesOf 1519)).getD []).length
    ∧ ((some (bytesOf 1518)).getD []).length ≤ readyState.params.maxFrame ∧ (some [0xAA#8]).getD [] ≠ []
    ∧ readyBusy.ctl.state = .ready ∧ readyBusy.bus = .txBusy := by
  simp [bytesOf, readyState, withPeer, readyBusy, sending, State.reset, Params.p0]
theorem witness_SecondSendIsRejectedUntilCompletion : readyState.params.ok = true ∧ readyState.ctl.state = .ready
    ∧ (some [0xAA#8]).getD [] ≠ [] ∧ ((some [0xAA#8]).getD []).length ≤ readyState.params.maxFrame := by decide
/-- The premise `TxCompleteFair` is met by a run that makes the call. -/
theorem witness_TxCompleteFair : (withAgenda [.instr .fg (.call 0x13#5 [])] (blockAt .txBusy 0#2 [])).ctl.state = .txBusy
    ∧ TxCompleteFair (withAgenda [.instr .fg (.call 0x13#5 [])] (blockAt .txBusy 0#2 [])) := by
  refine ⟨rfl, fun t ht hb => ?_⟩
  obtain rfl | ⟨u, hu, ht⟩ := Later.cases ht
  · exact ⟨_, Later.refl _, .inr ⟨rfl, [], .inl rfl⟩⟩
  cases hu
  cases Later.idle rfl ht
  cases hb

theorem witness_ReceiveIsReadPacketWhereValid : State.reset.ctl.state ≠ .ready ∧ State.reset.ctl.state ≠ .txBusy
    ∧ readyBusy.ctl.state = .ready ∧ readyBusy.bus = .txBusy ∧ (blockAt .txBusy 0#2 []).ctl.state = .txBusy := by decide
theorem witness_PollLinkUpReadsTheLinkBit : State.reset.ctl.state = .uninitialized
    ∧ (blockAt .error 0#2 []).ctl.state ≠ .uninitialized ∧ readyBusy.ctl.state ≠ .uninitialized ∧ readyBusy.bus = .txBusy := by decide
theorem witness_NotificationsMoveTheStateAndCommute : (blockAt .txBusy 0#2 []).ctl.state = .txBusy
    ∧ readyState.ctl.state = .ready ∧ readyState.ctl.state ≠ .txBusy ∧ (blockAt .resetting 0#2 []).ctl.state ≠ .ready
    ∧ (blockAt .resetting 0#2 []).ctl.state ≠ .txBusy := by decide
/-- A change of state; a state that stays; an `initialize` that never ends. -/
theorem witness_CtlStateFollowsTheDiagram :
    shown (exec .hardwareFault (blockAt .txBusy 0#2 [])) (·.ctl.state) = some .error
    ∧ shown (exec .hardwareFault (blockAt .resetting 0#2 [])) (·.ctl.state) = some .resetting
    ∧ shown (exec (.initializeOp (some mac)) wedged) (fun t => (t.ctl.state, t.fg)) = some (.resetting, .hung) := by decide
/-- Each code that can be reported, and `initialize`'s. -/
theorem witness_EachOperationReportsOnlyItsErrors :
    shown (exec (.beginTransmit none 1) State.reset) (·.replies) = some [.err .invalidArgument]
    ∧ shown (exec (.send none) State.reset) (·.replies) = some [.err .notReady]
    ∧ shown (exec (.initializeOp none) State.reset) (·.replies) = some [.errAt .invalidArgument .validate] := by decide
theorem witness_ReportedErrorsChangeNothing : State.reset.irqMasked = false
    ∧ shown (exec .pollLinkUp State.reset) (·.replies) = some (State.reset.replies ++ [.err .notReady]) := by decide

/-- A plain register; the packet count, which is none of the peer's own-bit registers. -/
theorem witness_RcrAnswersTheRegister : reaches Params.p0 3#2 0x1A#8 Params.p0.aEpktcnt = false
    ∧ reaches Params.p0 1#2 0x19#8 Params.p0.aEpktcnt = true ∧ reaches Params.p0 1#2 0x19#8 Params.p0.aEstat = false
    ∧ reaches Params.p0 1#2 0x19#8 Params.p0.aPhystat = false := by decide
theorem witness_RcrAnswersThePeersOwnBits : reaches Params.p0 0#2 0x1D#8 Params.p0.aEstat = true
    ∧ reaches Params.p0 0#2 0x1D#8 Params.p0.aPhystat = false ∧ reaches Params.p0 2#2 0x19#8 Params.p0.aPhystat = true := by decide
theorem witness_WcrWritesOneCell : Params.p0.commonLo ≤ (0x1F#8).toNat ∧ 0x1F#8 = Params.p0.aEcon1.off
    ∧ reaches Params.p0 0#2 0x1F#8 Params.p0.aEpktcnt = false ∧ reaches Params.p0 0#2 0x1F#8 Params.p0.aEstat = false
    ∧ reaches Params.p0 0#2 0x1F#8 Params.p0.aPhystat = false := by decide
/-- A transmission started; one already on; another register; another mask. -/
theorem witness_BfsSetsBitsAndStartsTransmission : Params.p0.commonLo ≤ (0x1F#8).toNat ∧ 0x1F#8 = Params.p0.aEcon1.off
    ∧ reaches Params.p0 0#2 0x1F#8 Params.p0.aEpktcnt = false ∧ 0#8 &&& Params.p0.mTxrts = 0#8
    ∧ 0x08#8 &&& Params.p0.mTxrts ≠ 0#8 ∧ (econ1At 0x04#8).stored (econ1Cell Params.p0) &&& Params.p0.mTxrts = 0#8
    ∧ Params.p0.txBase ≤ (econ1At 0x04#8).wrpt
    ∧ (econ1At 0x0C#8).stored (econ1Cell Params.p0) &&& Params.p0.mTxrts ≠ 0#8
    ∧ shown (exec (.bfs 0x1F#8 [0x08#8]) (withPeer (econ1At 0x04#8)))
        (fun t => t.peer.stored (econ1Cell Params.p0) &&& Params.p0.mTxrts) = some 0x08#8
    ∧ shown (exec (.bfs 0x1F#8 [0x04#8]) (withPeer (econ1At 0x00#8)))
        (fun t => t.peer.stored (econ1Cell Params.p0) &&& Params.p0.mTxrts) = some 0#8 := by decide
/-- Where the packet count shares the cell of `A_ECON1` the write is ignored, and no transmission starts (R67). -/
theorem test_bfs_ignored_sends_nothing :
    shown (exec (.bfs 0x1F#8 [0x08#8]) { withPeer (econ1At 0x04#8) with params := { Params.p0 with aEpktcnt := .common 0x1F#8 } })
      (fun t => (t.peer.stored (econ1Cell Params.p0), t.peer.sent)) = some (0x04#8, []) := by decide
/-- The register of the packet count and another. -/
theorem witness_BfcClearsBits : reaches Params.p0 1#2 0x19#8 Params.p0.aEpktcnt = true
    ∧ reaches Params.p0 0#2 0x19#8 Params.p0.aEpktcnt = false := by decide
theorem witness_CommandsWithoutDataChangeNothing : Instr.rcr 0x1F#8 [] = .rcr 0x1F#8 []
    ∧ 0x1F#8 = State.reset.params.opcRcr ||| 0x1F#8 ∧ 0x3A#8 = State.reset.params.opcRbm := by decide
/-- Nothing pending; one byte of the packet left over; the last byte. -/
theorem witness_RbmStreamsFromTheReadPointer : (∀ n ∈ [6, 4], 0 < n) ∧ (∀ n, [6, 4].head? = some n → 5 < n) ∧ (withPeer peerPending).params.ok = true ∧ PeerInv (withPeer peerPending)
    ∧ readyState.peer.pend = [] ∧ (withPeer peerPending).peer.pend = [6]
    ∧ (withPeer peerPending).peer.eaten + (bytesOf 5).length < 6 ∧ (withPeer peerPending).peer.eaten + (bytesOf 6).length = 6 :=
  ⟨by decide, by simp, by decide, ⟨by decide, by decide, by decide⟩, by decide⟩
/-- The write pointer at the last byte: two bytes wrap; a byte outside. -/
theorem witness_WbmStagesAtTheWritePointer : PeerInv (withPeer { Peer.created Params.p0 with wrpt := 8191 })
    ∧ [0x11#8, 0x22#8].length ≤ 1 + Params.p0.bufSize ∧ ∀ k, k < 2 → (1 : Nat) ≠ (8191 + k) % Params.p0.bufSize :=
  ⟨⟨by decide, by decide, by decide⟩, by decide, by decide⟩
theorem witness_FrameByteByByteIsTheWireCommand : readyState.wireEnd = .reference ∧ Quiet readyState ∧ readyState.bus ≠ .txBusy :=
  ⟨rfl, ⟨rfl, rfl⟩, by decide⟩
/-- Reception disabled; enabled, with a packet that fits; a header with more than the length. -/
theorem witness_PeerDeliverStoresHeaderAndPacket :
    State.reset.peer.stored (econ1Cell State.reset.params) &&& State.reset.params.mRxen = 0#8
    ∧ (withAgenda [.env (.peerDeliver [0xDE#8, 0xAD#8])] readyState).fg = .running
    ∧ readyState.peer.stored (econ1Cell readyState.params) &&& readyState.params.mRxen ≠ 0#8
    ∧ readyState.params.hdrBytes + 2 ≤ readyState.params.bufSize ∧ { Params.p0 with hdrBytes := 3 }.ok = true := by decide
/-- A packet too long for its header. -/
theorem witness_PeerDeliver_too_long : 65535 < (bytesOf 65536).length := by unfold bytesOf; rw [List.length_replicate]; decide
/-- No transmission on; one on. -/
theorem witness_PeerTxDoneEndsInTxComplete :
    (withAgenda [.env .peerTxDone, .deliver] readyState).notices = []
    ∧ readyState.peer.stored (econ1Cell readyState.params) &&& readyState.params.mTxrts = 0#8
    ∧ (withAgenda [.env .peerTxDone, .deliver] (withPeer (econ1At 0x0C#8))).notices = []
    ∧ (econ1At 0x0C#8).stored (econ1Cell Params.p0) &&& Params.p0.mTxrts ≠ 0#8 := by decide

end Sys2Proof.Tests
end

section
/-! SUPPORT. What every instruction but the two that move `BusState` keeps: the block apart from `Ctl` and the results
(`Kept`), also where FG ends up stuck. Once for each operation, then once for `exec`. -/

namespace Sys2Proof.Machine

variable {α β : Type}

theorem Kept.addReply (s : State) (r : Reply) : Kept s (s.addReply r) :=
  ⟨rfl, rfl, rfl, rfl, rfl, rfl, rfl, rfl, fun hp => ⟨rfl, rfl, rfl, hp⟩⟩

theorem Kept.setCtl (s : State) (c : Ctl) : Kept s (s.setCtl c) :=
  ⟨rfl, rfl, rfl, rfl, rfl, rfl, rfl, rfl, fun hp => ⟨rfl, rfl, rfl, hp⟩⟩

theorem Kept.setCtlState (s : State) (c : CtlState) : Kept s (s.setCtlState c) := Kept.setCtl s _

theorem Flow.All.bankOnly {s : State} {f : Flow α} (hf : f.All (WireOnly s)) : f.All (BankOnly s) :=
  hf.imp fun _ h => h.bankOnly

theorem Flow.All.kept {s : State} {f : Flow α} (hf : f.All (BankOnly s)) : f.All (Kept s) :=
  hf.imp fun _ h => h.kept

/-- A sequence keeps what each of its parts keeps of its own start. -/
theorem Flow.All.bindKept {s : State} {f : Flow α} {k : α → State → Flow β} (hf : f.All (Kept s))
    (hk : ∀ a t, (k a t).All (Kept t)) : (f.bind k).All (Kept s) :=
  hf.bind fun a t ht => (hk a t).imp fun _ hu => ht.trans hu

theorem Flow.All.bindBankOnly {s : State} {f : Flow α} {k : α → State → Flow β} (hf : f.All (BankOnly s))
    (hk : ∀ a t, (k a t).All (BankOnly t)) : (f.bind k).All (BankOnly s) :=
  hf.bind fun a t ht => (hk a t).imp fun _ hu => ht.trans hu

/-! ### The Register Access Protocol (41 R133 to R136) -/

theorem writeRegister_all (a : RegisterAddress) (v : Byte) (s : State) : (writeRegister a v s).All (BankOnly s) := by
  unfold writeRegister
  split
  · trivial
  · exact (registerCommand_all _ a v s).bind fun _ _ h => h

theorem setBits_all (a : RegisterAddress) (m : Byte) (s : State) : (setBits a m s).All (BankOnly s) := by
  unfold setBits
  split
  · trivial
  · exact (registerCommand_all _ a m s).bind fun _ _ h => h

theorem clearBits_all (a : RegisterAddress) (m : Byte) (s : State) : (clearBits a m s).All (BankOnly s) := by
  unfold clearBits
  split
  · trivial
  · exact (registerCommand_all _ a m s).bind fun _ _ h => h

theorem pollReady_all (n : Nat) (s : State) : (pollReady n s).All (BankOnly s) := by
  induction n generalizing s with
  | zero => exact BankOnly.refl s
  | succ n ih =>
    refine (readRegister_all _ s).bindBankOnly fun v t => ?_
    split
    · exact BankOnly.refl t
    · exact ih t

theorem softReset_all (s : State) : (softReset s).All (BankOnly s) :=
  have hsrc : (cmd1 s.params.opcSrc s).All (WireOnly s) := (framed_all _ s).bind fun _ _ h => h
  hsrc.bankOnly.bindBankOnly fun _ t =>
    (pollReady_all _ _).imp fun _ hu => (BankOnly.setBank t 0#2).trans hu

/-! ### The Buffer Memory Protocol (42 R151 to R155) -/

theorem writePacket_all (payload : Option (List Byte)) (s : State) : (writePacket payload s).All (WireOnly s) := by
  unfold writePacket
  split
  · exact WireOnly.refl s
  · split
    · exact WireOnly.refl s
    · exact (framed_all _ s).bind fun _ _ h => h

theorem readHeader_all (s : State) : (readHeader s).All (WireOnly s) := (framed_all _ s).bind fun _ _ h => h

theorem readPayload_all (len n : Nat) (s : State) : (readPayload len n s).All (WireOnly s) := by
  unfold readPayload
  split
  · exact WireOnly.refl s
  · exact (framed_all _ s).bind fun _ _ h => h

theorem readPacket_all (capacity : Nat) (s : State) : (readPacket capacity s).All (BankOnly s) := by
  refine (readRegister_all _ s).bindBankOnly fun cnt t => ?_
  split
  · exact BankOnly.refl t
  · exact (readHeader_all t).bankOnly.bindBankOnly fun h u =>
      (readPayload_all _ _ u).bankOnly.bind fun _ _ h => h

/-! ### The Supervisor (43 R162, R164) -/

theorem writeAll_all (ws : List (RegisterAddress × Byte)) (s : State) : (writeAll ws s).All (BankOnly s) := by
  induction ws generalizing s with
  | nil => exact BankOnly.refl s
  | cons w ws ih => exact (writeRegister_all w.1 w.2 s).bindBankOnly fun _ t => ih t

theorem configure_kept (mac : Six Byte) (s : State) : (configure mac s).All (Kept s) :=
  (writeAll_all _ s).kept.bindKept fun _ t =>
    (writeAll_all _ t).kept.bindKept fun _ u =>
      (setBits_all _ _ u).kept.bindKept fun _ v => Kept.setCtlState v .ready

theorem bringUp_kept (mac : Option (Six Byte)) (s : State) : (bringUp mac s).All (Kept s) := by
  unfold bringUp
  split
  · cases mac with
    | none => exact Kept.setCtlState s .error
    | some m =>
      refine Flow.All.bindKept ((softReset_all _).imp fun _ h => (Kept.setCtl s _).trans h.kept) fun r t => ?_
      split
      · exact Kept.setCtlState t .error
      · exact configure_kept m t
  · exact Kept.refl s

theorem send_kept (payload : Option (List Byte)) (s : State) : (send payload s).All (Kept s) := by
  unfold send
  split
  · exact Kept.refl s
  · split
    · exact Kept.refl s
    · refine (writePacket_all payload s).bankOnly.kept.bindKept fun r t => ?_
      split
      · exact Kept.refl t
      · exact (setBits_all _ _ t).kept.bindKept fun _ u => Kept.setCtlState u .txBusy

/-! ### The wire commands (44 R185 to R192) -/

theorem OnlyPeerAndWire.kept {s t : State} (h : OnlyPeerAndWire s t) : Kept s t :=
  ⟨h.params, h.bus, h.txn, by rw [h.spi], h.irqMasked, h.fg, h.agenda, h.wireEnd,
    fun hp => ⟨h.hostMem, h.notices, h.busUp, h.plan.trans hp⟩⟩

theorem peerFrame_onlyPeerAndWire {c : Byte} {data answers : List Byte} {after : Peer} {s t : State}
    (h : peerFrame c data answers after s = .next t) : OnlyPeerAndWire s t := by
  cases h; constructor <;> rfl

theorem runUnknownFrame_onlyPeerAndWire {bytes : List Byte} {s t : State}
    (h : runUnknownFrame bytes s = .next t) : OnlyPeerAndWire s t := by
  cases h; constructor <;> rfl

/-! ### Every instruction -/

/-- An instruction keeps the block apart from `Ctl` and the results, or FG is stuck (40 R112) in a state that has kept
it. -/
def KeptOrStuck (s t : State) : Prop := Kept s t ∨ ∃ u, Kept s u ∧ t = u.setFg .hung

theorem KeptOrStuck.bus {s t : State} (h : KeptOrStuck s t) : t.bus = s.bus := by
  obtain h | ⟨u, h, rfl⟩ := h <;> exact h.bus

theorem Flow.All.finishKept {s t : State} {f : Flow α} {reply : α → Reply} (hf : f.All (Kept s))
    (h : f.finish reply = .next t) : KeptOrStuck s t := by
  obtain ⟨u, hu, ⟨a, rfl⟩ | rfl⟩ := hf.of_finish h
  · exact .inl (hu.trans (Kept.addReply u _))
  · exact .inr ⟨u, hu, rfl⟩

theorem execReceive_keptOrStuck {n : Nat} {s t : State} (h : execReceive n s = .next t) : KeptOrStuck s t := by
  unfold execReceive at h
  split at h
  · exact (readPacket_all n s).kept.finishKept h
  · cases h; exact .inl (Kept.addReply s _)

theorem execPollLinkUp_keptOrStuck {s t : State} (h : execPollLinkUp s = .next t) : KeptOrStuck s t := by
  unfold execPollLinkUp at h
  split at h
  · cases h; exact .inl (Kept.addReply s _)
  · exact (readRegister_all _ s).kept.finishKept h

theorem execTxComplete_kept {s t : State} (h : execTxComplete s = .next t) : Kept s t := by
  cases h
  split
  · exact (Kept.setCtlState s .ready).trans (Kept.addReply _ _)
  · exact Kept.addReply s _

theorem execHardwareFault_kept {s t : State} (h : execHardwareFault s = .next t) : Kept s t := by
  cases h
  split
  · exact (Kept.setCtlState s .error).trans (Kept.addReply _ _)
  · exact Kept.addReply s _

/-- Only `beginTransmit` and `irqStep` change more of the block than `Ctl` and the results. -/
theorem exec_keptOrStuck {i : Instr} {s t : State} (hb : ∀ a n, i ≠ .beginTransmit a n) (hi : i ≠ .irqStep)
    (h : exec i s = .next t) : KeptOrStuck s t := by
  cases i with
  | rcr o d => exact .inl (peerFrame_onlyPeerAndWire h).kept
  | rbm d => exact .inl (peerFrame_onlyPeerAndWire h).kept
  | wcr o d => exact .inl (peerFrame_onlyPeerAndWire h).kept
  | wbm d => exact .inl (peerFrame_onlyPeerAndWire h).kept
  | bfs o d => exact .inl (peerFrame_onlyPeerAndWire h).kept
  | bfc o d => exact .inl (peerFrame_onlyPeerAndWire h).kept
  | src d => exact .inl (peerFrame_onlyPeerAndWire h).kept
  | exchangeByte d => exact (exchangeByte_all d s).bankOnly.kept.finishKept h
  | beginTransmit a n => exact absurd rfl (hb a n)
  | isBusy => cases h; exact .inl (Kept.addReply s _)
  | irqStep => exact absurd rfl hi
  | frameBegin =>
    exact (unlessTransmitting_all s (Flow.All.done () (emitBegin_wireOnly s).kept)).finishKept h
  | frameEnd =>
    exact (unlessTransmitting_all s (Flow.All.done () (emitEnd_wireOnly s).kept)).finishKept h
  | selectBank a => exact (selectBank_all a s).kept.finishKept h
  | readRegister a => exact (readRegister_all a s).kept.finishKept h
  | writeRegister a v => exact (writeRegister_all a v s).kept.finishKept h
  | setBits a m => exact (setBits_all a m s).kept.finishKept h
  | clearBits a m => exact (clearBits_all a m s).kept.finishKept h
  | softReset => exact (softReset_all s).kept.finishKept h
  | writePacket q => exact (writePacket_all q s).bankOnly.kept.finishKept h
  | readPacket n => exact (readPacket_all n s).kept.finishKept h
  | initializeOp m => exact (bringUp_kept m s).finishKept h
  | send q => exact (send_kept q s).finishKept h
  | receive n => exact execReceive_keptOrStuck h
  | pollLinkUp => exact execPollLinkUp_keptOrStuck h
  | supIsBusy => cases h; exact .inl (Kept.addReply s _)
  | txComplete => exact .inl (execTxComplete_kept h)
  | hardwareFault => exact .inl (execHardwareFault_kept h)

end Sys2Proof.Machine
end

section
/-! PROOF. The state at reset (10_state R41) and the moves of `BusState` (10_state R23). -/

namespace Sys2Proof.Machine

/-- Settles O1: the reset state is a literal, so each row of R41 is the field as written there. -/
theorem resetLeavesTheBlockAsR41Says : Obligations.ResetLeavesTheBlockAsR41Says :=
  ⟨rfl, rfl, rfl, rfl, rfl, rfl, rfl, rfl, rfl, rfl⟩

/-- The moves of `BusState` (10_state R23): none, the claim, the completion. -/
def BusMove (b b' : BusState) : Prop :=
  b' = b ∨ (b = .idle ∧ b' = .txBusy) ∨ (b = .txBusy ∧ b' = .idle)

theorem fetchByte_bus (a : Option Nat) (s : State) : (fetchByte a s).2.bus = s.bus := by
  unfold fetchByte
  split <;> rfl

/-- Accepting a transmit (40 R115) moves a byte but not `BusState`, which the claim has set. -/
theorem acceptTransmit_bus (buffer length : Nat) (s : State) :
    (acceptTransmit buffer length s).All fun t => t.bus = s.bus :=
  Flow.All.bind
    ((xchg_wireOnly _ _).imp fun _ h => h.kept.bus.trans (fetchByte_bus _ _))
    fun _ _ h => h

/-- `beginTransmit` leaves `BusState` alone or claims the bus from Idle (40 R113 to R115). -/
theorem beginTransmit_bus (buffer : Option Nat) (length : Nat) (s : State) :
    (beginTransmit buffer length s).All fun t => t.bus = s.bus ∨ (s.bus = .idle ∧ t.bus = .txBusy) := by
  unfold beginTransmit
  cases buffer with
  | none => exact .inl rfl
  | some a =>
    simp only
    split
    · exact .inl rfl
    · by_cases hidle : s.bus = .idle
      · rw [claimBus_idle hidle]
        exact (acceptTransmit_bus a length _).imp fun _ h => .inr ⟨hidle, h⟩
      · rw [claimBus_busy hidle]
        exact .inl rfl

theorem execBeginTransmit_busMove {buffer : Option Nat} {length : Nat} {s t : State}
    (h : execBeginTransmit buffer length s = .next t) : BusMove s.bus t.bus := by
  obtain ⟨u, hu, ⟨a, rfl⟩ | rfl⟩ := (beginTransmit_bus buffer length s).of_finish h
  · exact hu.imp_right .inl
  · exact hu.imp_right .inl

/-- The interrupt-context step (40 R117) leaves `BusState` alone or ends in Idle. -/
theorem irqBody_bus (s : State) : (irqBody s).bus = s.bus ∨ (irqBody s).bus = .idle := by
  unfold irqBody
  split
  · exact .inl ((clockByte_wireOnly _ _).kept.bus.trans (fetchByte_bus _ s))
  · exact .inr rfl

/-- The interrupt is taken with TxIE = 1 only, so in `TxBusy` by I-BE1: its move to Idle is the completion. -/
theorem takeInterrupt_busMove {s : State} (hbe1 : s.spi.txIE = true → s.bus = .txBusy) :
    BusMove s.bus (takeInterrupt irqBody s).bus := by
  unfold takeInterrupt
  split
  · rename_i hen
    have htx : s.spi.txIE = true := by simp_all [irqEnabled]
    exact (irqBody_bus (s.setSpi { s.spi with byteReady := false })).imp_right fun h => .inr ⟨hbe1 htx, h⟩
  · exact .inl rfl

/-- What an instruction can do to `BusState`, from a state with I-BE1 (10_state R27). -/
theorem exec_busMove {i : Instr} {s t : State} (hbe1 : s.spi.txIE = true → s.bus = .txBusy)
    (h : exec i s = .next t) : BusMove s.bus t.bus := by
  by_cases hb : ∃ a n, i = .beginTransmit a n
  · obtain ⟨a, n, rfl⟩ := hb
    exact execBeginTransmit_busMove h
  · by_cases hi : i = .irqStep
    · subst hi
      cases h
      exact takeInterrupt_busMove hbe1
    · exact .inl (exec_keptOrStuck (fun a n e => hb ⟨a, n, e⟩) hi h).bus

theorem step_busMove {s t : State} (hbe1 : s.spi.txIE = true → s.bus = .txBusy) (h : step s = .next t) :
    BusMove s.bus t.bus := by
  obtain rfl | ⟨it, rest, -, -, rfl | ⟨e, -, rfl⟩ | ⟨i, ns, hi⟩ | ⟨bytes, -, hf⟩⟩ := step_cases h
  · exact .inl rfl
  · exact .inl rfl
  · exact .inl (applyEvent_spec _ e).1.bus
  · exact exec_busMove (s := (s.setAgenda rest).setNotices ns) hbe1 hi
  · exact .inl (runUnknownFrame_onlyPeerAndWire hf).bus

theorem exec_isBusy_of_ne_idle {s : State} (h : s.bus ≠ .idle) :
    exec .isBusy s = .next (s.addReply (.flag true)) := by
  show execIsBusy s = _
  simp [execIsBusy, busBusy, h]

/-- A valid `beginTransmit` outside Idle is `Busy` (40 R114). -/
theorem exec_beginTransmit_of_ne_idle {s : State} (h : s.bus ≠ .idle) (a : Nat) {n : Nat} (hn : n ≠ 0) :
    exec (.beginTransmit (some a) n) s = .next ((s.setMask false).addReply (.err .busy)) := by
  show execBeginTransmit (some a) n s = _
  simp [execBeginTransmit, beginTransmit, hn, claimBus_busy h, codeReply]

/-- Settles O25, by cases on what a step can be: only `beginTransmit` claims the bus, only the interrupt gives it back,
and in `RxBusy` and `Error`, neither of them Idle, both answers are those of a taken bus. -/
theorem busStateMovesOnlyBetweenIdleAndTxBusy : Obligations.BusStateMovesOnlyBetweenIdleAndTxBusy := by
  intro s
  refine ⟨fun t hinv h => step_busMove hinv.be1 h, fun hbus => ?_⟩
  have hne : s.bus ≠ .idle := by rcases hbus with h | h <;> simp [h]
  exact ⟨exec_isBusy_of_ne_idle hne, fun a n hn => exec_beginTransmit_of_ne_idle hne a hn⟩

end Sys2Proof.Machine
end

section
/-! PROOF. The block only reads host memory (20_memory R60 to R62): the operations that fetch from it, then every
instruction. -/

namespace Sys2Proof.Machine

/-- A fetch (20_memory R61) reads: at most a free value is drawn. -/
theorem fetchByte_hostMem (a : Option Nat) (s : State) : (fetchByte a s).2.hostMem = s.hostMem := by
  unfold fetchByte
  split <;> rfl

theorem fetchByte_plan (a : Option Nat) (s : State) : (fetchByte a s).2.plan = s.plan := by
  unfold fetchByte
  split <;> rfl

theorem Kept.hostMem {s t : State} (h : Kept s t) (hp : s.plan = []) : t.hostMem = s.hostMem := (h.env hp).1

theorem KeptOrStuck.hostMem {s t : State} (h : KeptOrStuck s t) (hp : s.plan = []) : t.hostMem = s.hostMem := by
  obtain h | ⟨u, h, rfl⟩ := h <;> exact h.hostMem hp

/-- What uses the wire after a fetch, with nothing from ENV meanwhile, leaves host memory as the fetch found it. -/
theorem Kept.hostMem_of_fetch {a : Option Nat} {s t : State} (h : Kept (fetchByte a s).2 t) (hp : s.plan = []) :
    t.hostMem = s.hostMem :=
  (h.hostMem ((fetchByte_plan a s).trans hp)).trans (fetchByte_hostMem a s)

theorem acceptTransmit_hostMem (buffer length : Nat) {s : State} (hp : s.plan = []) :
    (acceptTransmit buffer length s).All fun t => t.hostMem = s.hostMem :=
  Flow.All.bind
    ((xchg_wireOnly _ _).imp fun _ h =>
      h.kept.hostMem_of_fetch (s := s.setTxn { buffer := some buffer, length := length, cursor := 0 }) hp)
    fun _ _ h => h

theorem beginTransmit_hostMem (buffer : Option Nat) (length : Nat) {s : State} (hp : s.plan = []) :
    (beginTransmit buffer length s).All fun t => t.hostMem = s.hostMem := by
  unfold beginTransmit
  cases buffer with
  | none => exact rfl
  | some a =>
    simp only
    split
    · exact rfl
    · by_cases hidle : s.bus = .idle
      · rw [claimBus_idle hidle]
        exact acceptTransmit_hostMem a length (s := (s.setBus .txBusy).setMask false) hp
      · rw [claimBus_busy hidle]
        exact rfl

theorem execBeginTransmit_hostMem {buffer : Option Nat} {length : Nat} {s t : State} (hp : s.plan = [])
    (h : execBeginTransmit buffer length s = .next t) : t.hostMem = s.hostMem := by
  obtain ⟨u, hu, ⟨a, rfl⟩ | rfl⟩ := (beginTransmit_hostMem buffer length hp).of_finish h <;> exact hu

/-- The interrupt-context step (40 R117) fetches a byte and sends it, or ends the transaction. -/
theorem irqBody_hostMem {s : State} (hp : s.plan = []) : (irqBody s).hostMem = s.hostMem := by
  unfold irqBody
  split
  · exact (clockByte_wireOnly _ _).kept.hostMem_of_fetch hp
  · rfl

theorem takeInterrupt_irqBody_hostMem {s : State} (hp : s.plan = []) :
    (takeInterrupt irqBody s).hostMem = s.hostMem := by
  unfold takeInterrupt
  split
  · exact irqBody_hostMem (s := s.setSpi { s.spi with byteReady := false }) hp
  · rfl

/-- Where ENV does nothing meanwhile, host memory after an instruction, returned or stuck, is host memory before it. -/
theorem exec_hostMem {i : Instr} {s t : State} (hp : s.plan = []) (h : exec i s = .next t) : t.hostMem = s.hostMem := by
  by_cases hb : ∃ a n, i = .beginTransmit a n
  · obtain ⟨a, n, rfl⟩ := hb
    exact execBeginTransmit_hostMem hp h
  · by_cases hi : i = .irqStep
    · subst hi
      cases h
      exact takeInterrupt_irqBody_hostMem hp
    · exact (exec_keptOrStuck (fun a n e => hb ⟨a, n, e⟩) hi h).hostMem hp

/-- Settles O26: the list of host bytes itself is the same after every instruction, so each read of it is. -/
theorem noInstructionWritesHostMemory : Obligations.NoInstructionWritesHostMemory := by
  intro i s t hp h a
  rw [exec_hostMem hp h]

end Sys2Proof.Machine
end

section
/-! SUPPORT. What a fetch, a byte on the wire and a frame delimiter write, in the updates of State; that the wait for the bus
raises no fault; and the exchange of a fetched byte. -/

namespace Sys2Proof.Machine

variable {α β : Type}

/-- A fetch (20_memory R61) draws a free value or writes nothing. -/
theorem fetchByte_draw (a : Option Nat) (s : State) : ∃ n, (fetchByte a s).2 = s.draw n := by
  unfold fetchByte
  split
  · exact ⟨0, rfl⟩
  · exact ⟨1, rfl⟩

/-- A fetch of a listed byte gives it (20_memory R61). -/
theorem fetchByte_of_read {s : State} {a : Nat} {v : Byte} (h : Memory.read .host s.hostMem a = some v) :
    fetchByte (some a) s = (v, s) := by
  simp [fetchByte, h]

theorem txnAddress_of_buffer {s : State} {a : Nat} (h : s.txn.buffer = some a) :
    txnAddress s = some (a + s.txn.cursor) := by
  simp [txnAddress, h]

/-- A byte on the wire (20_memory R66) moves the other end, `W` and the SPI registers. -/
theorem clockByte_updates (d : Byte) (s : State) : ∃ c as, clockByte d s =
    ((((s.setPeer c).setAnswers as).logWire [.byte d (wireAnswer d s)]).setSpi
      { dataOut := d, dataIn := wireAnswer d s, byteReady := false, rxAvail := false, txIE := s.spi.txIE }).draw 1 := by
  unfold clockByte wireEndAfter
  split
  · exact ⟨(s.peer.onByte s.params (Config.freeBytes s.draws) d).2, s.answers, rfl⟩
  · exact ⟨s.peer, s.answers.tail, rfl⟩

/-- A delimiter (40 R120) moves the other end and `W`. -/
theorem emitBegin_updates (s : State) : ∃ c, emitBegin s = (s.setPeer c).logWire [.begin] := by
  unfold emitBegin
  split
  · exact ⟨_, rfl⟩
  · exact ⟨s.peer, rfl⟩

theorem emitEnd_updates (s : State) : ∃ c, emitEnd s = (s.setPeer c).logWire [.finish] := by
  unfold emitEnd
  split
  · exact ⟨_, rfl⟩
  · exact ⟨s.peer, rfl⟩

/-! ### How operations end -/

/-- An operation that raises no fault has a next state. -/
theorem Flow.exists_finish {f : Flow α} (h : ∀ e, f ≠ .fault e) (reply : α → Reply) :
    ∃ t, f.finish reply = .next t := by
  cases f with
  | done a s => exact ⟨_, rfl⟩
  | hang s => exact ⟨_, rfl⟩
  | fault e => exact absurd rfl (h e)

theorem Flow.bind_ne_fault {f : Flow α} {k : α → State → Flow β} (hf : ∀ e, f ≠ .fault e)
    (hk : ∀ a s e, k a s ≠ .fault e) (e : Fault) : f.bind k ≠ .fault e := by
  cases f with
  | done a s => exact hk a s e
  | hang s => nofun
  | fault e' => exact absurd rfl (hf e')

/-- Waiting returns or goes on for ever, which is "not a fault" (40 R112). -/
theorem awaitBus_ne_fault (plan : List (List EnvEvent)) (s : State) (e : Fault) : awaitBus plan s ≠ .fault e := by
  induction plan generalizing s with
  | nil =>
    unfold awaitBus
    split <;> nofun
  | cons es rest ih =>
    unfold awaitBus
    split
    · nofun
    · exact ih _

theorem xchg_ne_fault (d : Byte) (s : State) (e : Fault) : xchg d s ≠ .fault e := by
  refine Flow.bind_ne_fault (awaitBus_ne_fault s.plan s) (fun _ _ e => ?_) e
  nofun

/-- `Xchg` on a bus that never answers (40 R112): only ENV has acted. -/
theorem xchg_hangs (d : Byte) {s : State} (hdown : s.busUp = false)
    (hplan : ∀ es ∈ s.plan, EnvEvent.busResponds ∉ es) : ∃ t, xchg d s = .hang t ∧ EnvOnly s t := by
  obtain ⟨t, ht, henv⟩ := awaitBus_hangs s.plan s hdown hplan
  exact ⟨t, by rw [xchg, ht, Flow.bind_hang], henv⟩

/-! ### The exchange of a fetched byte (40 R115) -/

theorem fetchByte_wireOnly (a : Option Nat) (s : State) : WireOnly s (fetchByte a s).2 := by
  obtain ⟨k, hk⟩ := fetchByte_draw a s
  rw [hk]
  exact ⟨⟨rfl, rfl, rfl, rfl, rfl, rfl, rfl, rfl, fun hp => ⟨rfl, rfl, rfl, hp⟩⟩, rfl, rfl⟩

theorem xchg_fetch_all (a : Option Nat) (s : State) :
    (xchg (fetchByte a s).1 (fetchByte a s).2).All (WireOnly s) :=
  (xchg_wireOnly _ _).imp fun _ h => (fetchByte_wireOnly a s).trans h

theorem xchg_fetch_returns {s : State} (a : Option Nat) (h : BusResponsive s) :
    ∃ r t, xchg (fetchByte a s).1 (fetchByte a s).2 = .done r t ∧ WireOnly s t := by
  have hall := xchg_fetch_all a s
  have hup : BusResponsive (fetchByte a s).2 := by
    obtain ⟨k, hk⟩ := fetchByte_draw a s
    rw [hk]
    exact h
  obtain ⟨u, -, -, -, hx⟩ := xchg_returns (fetchByte a s).1 _ hup
  rw [hx] at hall
  exact ⟨_, _, hx, hall⟩

end Sys2Proof.Machine
end

section
/-! PROOF. The Bus Engine for FG (40 R111, R113 to R116, R120): the exchange of a byte, the delimiters, the claim. -/

namespace Sys2Proof.Machine

/-! ### The exchange of a byte (40 R111) and the delimiters (40 R120) -/

/-- Settles O15: the fault is the check before the wire; then `exchangeByte` is `Xchg`, which returns where the bus answers
in the end and stays where it never does. -/
theorem exchangeByteExchangesOneByte : Obligations.ExchangeByteExchangesOneByte := by
  intro d s
  have hexec : exec (.exchangeByte d) s = (exchangeByte d s).finish .byte := rfl
  rw [hexec]
  refine ⟨fun hbus => ?_, fun hfree => ?_, fun hbus hdown hplan => ?_⟩
  · rw [exchangeByte, unlessTransmitting_fault hbus, Flow.finish_fault]
  · obtain ⟨r, t, hx, hwire, hk, hf, -⟩ := exchangeByte_returns d s hfree
    exact ⟨r, t.addReply (.byte r), by rw [hx, Flow.finish_done], hwire, by simp [hk.replies], hk.ctl,
      hk.kept.trans (Kept.addReply t _), hf.2⟩
  · obtain ⟨t, ht, henv⟩ := xchg_hangs d hdown hplan
    exact ⟨t.setFg .hung, by rw [exchangeByte, unlessTransmitting_free hbus, ht, Flow.finish_hang], rfl, henv.wire,
      henv.replies, henv.ctl, henv.bus⟩

/-- What a delimiter with event `e` leaves, the other end of the wire at `c`. -/
theorem delimiter_returns (s : State) (c : Peer) (e : WireEvent) :
    ∃ t, (Flow.done () ((s.setPeer c).logWire [e])).finish (fun _ => Reply.returned) = .next t
      ∧ t.wire = s.wire ++ [e] ∧ t.replies = s.replies ++ [.returned]
      ∧ t.ctl = s.ctl ∧ t.spi = s.spi ∧ t.hostMem = s.hostMem ∧ Kept s t :=
  ⟨_, rfl, rfl, rfl, rfl, rfl, rfl, ⟨rfl, rfl, rfl, rfl, rfl, rfl, rfl, rfl, fun hp => ⟨rfl, rfl, rfl, hp⟩⟩⟩

/-- Settles O17: both delimiters make the check of `exchangeByte` and then log one event, with no wait. -/
theorem frameDelimitersOnlyShapeTheWire : Obligations.FrameDelimitersOnlyShapeTheWire := by
  intro s
  have hbegin : exec .frameBegin s = (frameBegin s).finish fun _ => .returned := rfl
  have hend : exec .frameEnd s = (frameEnd s).finish fun _ => .returned := rfl
  rw [hbegin, hend, frameBegin, frameEnd]
  refine ⟨fun hbus => ?_, fun hbus => ?_⟩
  · simp only [unlessTransmitting_fault hbus, Flow.finish_fault, and_self]
  · obtain ⟨c, hc⟩ := emitBegin_updates s
    obtain ⟨c', hc'⟩ := emitEnd_updates s
    rw [unlessTransmitting_free hbus, unlessTransmitting_free hbus, hc, hc']
    exact ⟨delimiter_returns s c .begin, delimiter_returns s c' .finish⟩

/-! ### `beginTransmit` (40 R113 to R115) and `isBusy` (40 R116) -/

/-- Settles O18: the argument check comes first, and neither branch of it reads `BusState`. -/
theorem beginTransmitChecksItsArgumentFirst : Obligations.BeginTransmitChecksItsArgumentFirst := by
  rintro b n s (rfl | rfl)
  · rfl
  · cases b <;> rfl

/-- A valid `beginTransmit` from Idle has claimed the bus, and is the acceptance from there (40 R114, R115). -/
theorem exec_beginTransmit_of_idle {s : State} (h : s.bus = .idle) (a : Nat) {n : Nat} (hn : n ≠ 0) :
    exec (.beginTransmit (some a) n) s =
      (acceptTransmit a n ((s.setBus .txBusy).setMask false)).finish codeReply := by
  show execBeginTransmit (some a) n s = _
  simp [execBeginTransmit, beginTransmit, hn, claimBus_idle h]

/-- The claim is still made after acceptance, returned or stuck: TxBusy and the mask stay as it set them. -/
theorem acceptTransmit_all (a n : Nat) (s : State) :
    (acceptTransmit a n s).All fun t => t.bus = s.bus ∧ t.irqMasked = s.irqMasked :=
  ((xchg_fetch_all _ _).imp fun _ h => ⟨h.kept.bus, h.kept.irqMasked⟩).bind fun _ _ h => h

theorem acceptTransmit_ne_fault (a n : Nat) (s : State) (e : Fault) : acceptTransmit a n s ≠ .fault e := by
  refine Flow.bind_ne_fault (xchg_ne_fault _ _) (fun _ _ e => ?_) e
  nofun

/-- On a bus that answers in the end an acceptance returns `Ok` (40 R115). -/
theorem acceptTransmit_returns (a n : Nat) {s : State} (h : BusResponsive s) :
    ∃ t, acceptTransmit a n s = .done .ok t ∧ t.replies = s.replies := by
  obtain ⟨r, u, hx, hk⟩ := xchg_fetch_returns (s := s.setTxn { buffer := some a, length := n, cursor := 0 })
    (txnAddress (s.setTxn { buffer := some a, length := n, cursor := 0 })) h
  unfold acceptTransmit
  simp only [hx, Flow.bind_done]
  exact ⟨_, rfl, hk.replies⟩

/-- Settles O19: outside Idle the claim fails; from Idle it is made before byte 0 goes out, and no exchange, returned or
stuck, takes `BusState` or the mask back. -/
theorem beginTransmitClaimsTheBusOrReportsBusy : Obligations.BeginTransmitClaimsTheBusOrReportsBusy := by
  intro a n s hn
  refine ⟨fun hbusy => exec_beginTransmit_of_ne_idle hbusy a hn, fun hidle => ?_⟩
  rw [exec_beginTransmit_of_idle hidle a hn]
  obtain ⟨t, ht⟩ := Flow.exists_finish (acceptTransmit_ne_fault a n _) codeReply
  obtain ⟨u, ⟨hbus, hmask⟩, ⟨c, rfl⟩ | rfl⟩ := (acceptTransmit_all a n _).of_finish ht
  · exact ⟨_, ht, hbus, hmask⟩
  · exact ⟨_, ht, hbus, hmask⟩

/-- A valid `beginTransmit` on a bus that answers is accepted exactly from Idle (40 R114, R115). -/
theorem beginTransmit_accepted_iff {s : State} (h : BusResponsive s) (a : Nat) {n : Nat} (hn : n ≠ 0) :
    (∃ t, exec (.beginTransmit (some a) n) s = .next t ∧ t.replies = s.replies ++ [.ok]) ↔ s.bus = .idle := by
  refine ⟨fun ⟨t, ht, hok⟩ => by_contra fun hbusy => ?_, fun hidle => ?_⟩
  · rw [exec_beginTransmit_of_ne_idle hbusy a hn] at ht
    cases ht
    simp at hok
  · obtain ⟨t, ht, hr⟩ := acceptTransmit_returns a n (s := (s.setBus .txBusy).setMask false) h
    exact ⟨t.addReply .ok, by rw [exec_beginTransmit_of_idle hidle a hn, ht, Flow.finish_done]; rfl, by simp [hr]⟩

/-- Settles O21: the flag is `BusState ≠ Idle`, and Idle is when a valid request is accepted. -/
theorem isBusyForetellsAcceptance : Obligations.IsBusyForetellsAcceptance := by
  intro s
  have hflag : busBusy s = false ↔ s.bus = .idle := by simp [busBusy]
  exact ⟨busBusy s, rfl, hflag, fun h a n hn => hflag.trans (beginTransmit_accepted_iff h a hn).symm⟩

end Sys2Proof.Machine
end

section
/-! PROOF. The Bus Engine in the interrupt context (40 R117, 60_exceptions R210). -/

namespace Sys2Proof.Machine

/-- An enabled `irqStep` consumes the event and runs the body (60_exceptions R210). -/
theorem exec_irqStep_of_enabled {s : State} (h : irqEnabled s = true) :
    exec .irqStep s = .next (irqBody (s.setSpi { s.spi with byteReady := false })) := by
  show execIrqStep s = _
  rw [execIrqStep, takeInterrupt, if_pos h]

/-- With bytes left the interrupt body sends one, as host memory holds it at `buffer + cursor`, and moves the cursor
(40 R117); besides, it moves the other end of the wire and draws free values. -/
theorem irqBody_of_lt {s : State} (h : s.txn.cursor < s.txn.length) :
    ∃ b r k c as, irqBody s = ((((((s.draw k).setPeer c).setAnswers as).logWire [.byte b r]).setSpi
        { dataOut := b, dataIn := r, byteReady := false, rxAvail := false, txIE := s.spi.txIE }).draw 1).setTxn
          { s.txn with cursor := s.txn.cursor + 1 }
      ∧ ∀ a v, s.txn.buffer = some a → Memory.read .host s.hostMem (a + s.txn.cursor) = some v → b = v := by
  obtain ⟨k, hk⟩ := fetchByte_draw (txnAddress s) s
  obtain ⟨c, as, hclock⟩ := clockByte_updates (fetchByte (txnAddress s) s).1 (s.draw k)
  refine ⟨(fetchByte (txnAddress s) s).1, wireAnswer (fetchByte (txnAddress s) s).1 (s.draw k), k, c, as, ?_,
    fun a v ha hv => ?_⟩
  · simp only [irqBody, if_pos h, hk, hclock]
    rfl
  · rw [txnAddress_of_buffer ha, fetchByte_of_read hv]

/-- With no byte left it completes the transaction (40 R117). -/
theorem irqBody_of_le {s : State} (h : s.txn.length ≤ s.txn.cursor) :
    irqBody s = ((s.setSpi { s.spi with txIE := false }).setTxn { s.txn with cursor := 0 }).setBus .idle := by
  rw [irqBody, if_neg h.not_gt]

/-- Settles O22: the event is consumed, then the body branches at `cursor < length`; every other field is none of those it
writes. -/
theorem irqStepSendsTheNextByteOrFinishes : Obligations.IrqStepSendsTheNextByteOrFinishes := by
  intro s
  refine ⟨fun hen hlt => ?_, fun hen hle => ?_⟩
  · obtain ⟨b, r, k, c, as, hbody, hb⟩ := irqBody_of_lt (s := s.setSpi { s.spi with byteReady := false }) hlt
    rw [exec_irqStep_of_enabled hen, hbody]
    exact ⟨b, r, _, rfl, hb, by simp⟩
  · rw [exec_irqStep_of_enabled hen, irqBody_of_le (s := s.setSpi { s.spi with byteReady := false }) hle]
    rfl

end Sys2Proof.Machine
end

section
/-! PROOF. The Register Access Protocol (41_register_access): the bank-select sequence, the register commands with one data
byte and what refuses them, the bounded ready poll of the soft reset. -/

namespace Sys2Proof.Machine

/-! ### How a register operation ends -/

/-- A result looked at and handed on: the sequence ends as its first part does. -/
theorem Flow.finish_bind_done {α β : Type} (f : Flow α) (g : α → β) (reply : β → Reply) :
    (f.bind fun a s => .done (g a) s).finish reply = f.finish fun a => reply (g a) := by
  cases f <;> rfl

theorem BankOnly.replies_addReply {s t : State} (h : BankOnly s t) (r : Reply) :
    (t.addReply r).replies = s.replies ++ [r] := by
  simp [h.replies]

theorem BankOnly.kept_addReply {s t : State} (h : BankOnly s t) (r : Reply) : Kept s (t.addReply r) :=
  h.kept.trans (Kept.addReply t r)

/-- Of `Ctl` only the cached bank can have moved, so where it stands says all. -/
theorem BankOnly.ctl_of_bank {s t : State} (h : BankOnly s t) {b : BitVec 2} (hb : t.ctl.currentBank = b) :
    t.ctl = { s.ctl with currentBank := b } := by
  rw [h.ctl_eq, hb]

/-! ### The bank-select sequence (41 R131) -/

/-- An address that needs no frames moves nothing, in any `BusState`. -/
theorem selectBank_of_no_frames {a : RegisterAddress} {s : State}
    (h : bankFrames s.params s.ctl.currentBank a = []) : selectBank a s = .done () s := by
  cases a with
  | common o => rfl
  | banked b o =>
    have hb : b = s.ctl.currentBank := by simpa [bankFrames] using h
    simp [selectBank, hb]

/-- With frames to send, the first of them meets the check of 40 R120. -/
theorem selectBank_fault {a : RegisterAddress} {s : State} (h : bankFrames s.params s.ctl.currentBank a ≠ [])
    (hbus : s.bus = .txBusy) : selectBank a s = .fault .busInterleave := by
  cases a with
  | common o => exact absurd rfl h
  | banked b o =>
    have hb : b ≠ s.ctl.currentBank := by simpa [bankFrames] using h
    simp [selectBank, hb, cmd2_fault _ _ hbus]

/-- Settles O27: the two tests of the sequence, common address and bank already selected, are those of `bankFrames`; where
both fail the first frame faults or the two frames go out. -/
theorem selectBankSendsClearThenSet : Obligations.SelectBankSendsClearThenSet := by
  intro a s
  have hexec : exec (.selectBank a) s = (selectBank a s).finish fun _ => .returned := rfl
  rw [hexec]
  refine ⟨fun hnone => ?_, fun hsome hbus => ?_, fun hfree => ?_⟩
  · rw [selectBank_of_no_frames hnone, Flow.finish_done]
  · rw [selectBank_fault hsome hbus, Flow.finish_fault]
  · obtain ⟨as, t, hx, has, hwire, hbank, hk, -⟩ := selectBank_returns a s hfree
    exact ⟨t.addReply .returned, as, by rw [hx, Flow.finish_done], has, hwire, hk.ctl_of_bank hbank,
      hk.replies_addReply _, hk.kept_addReply _⟩

/-! ### A register command with one data byte (41 R132 to R135) -/

/-- A register command that is all of an operation: its frames, its result from the byte received last, the bank. -/
theorem registerCommand_finish (opc : Byte) (a : RegisterAddress) (d : Byte) {s : State} (h : WireFree s)
    (reply : Byte → Reply) :
    ∃ t as r0 r, (registerCommand opc a d s).finish reply = .next t
      ∧ Answers (bankFrames s.params s.ctl.currentBank a) as
      ∧ t.wire = s.wire ++ framesEvents (bankFrames s.params s.ctl.currentBank a ++ [[commandByte opc a.off, d]])
          (as ++ [[r0, r]])
      ∧ t.replies = s.replies ++ [reply r]
      ∧ t.ctl = { s.ctl with currentBank := bankAfter s.ctl.currentBank a } ∧ Kept s t := by
  obtain ⟨as, r0, r, t, hx, has, hwire, hbank, hk, -⟩ := registerCommand_returns opc a d s h
  exact ⟨t.addReply (reply r), as, r0, r, by rw [hx, Flow.finish_done], has, hwire, hk.replies_addReply _,
    hk.ctl_of_bank hbank, hk.kept_addReply _⟩

/-- Settles O28: `readRegister` is the register command RCR with one dummy, and its result the byte received last. -/
theorem readRegisterReturnsTheByteOfTheDummy : Obligations.ReadRegisterReturnsTheByteOfTheDummy := by
  intro a s
  have hexec : exec (.readRegister a) s = (registerCommand s.params.opcRcr a s.params.dummy s).finish .byte := rfl
  rw [hexec]
  refine ⟨fun hbus => ?_, fun hfree => registerCommand_finish s.params.opcRcr a s.params.dummy hfree .byte⟩
  rw [registerCommand_fault _ _ _ hbus, Flow.finish_fault]

/-- What `writeRegister`, `setBits` and `clearBits` have in common: the check of 41 R139, then one register command whose
answer is dropped. -/
def checkedCommand (refused : Bool) (opc : Byte) (a : RegisterAddress) (d : Byte) (s : State) : Flow Unit :=
  if refused then .fault .forbiddenBankWrite else (registerCommand opc a d s).bind fun _ s => .done () s

theorem writeRegister_eq (a : RegisterAddress) (v : Byte) (s : State) :
    writeRegister a v s = checkedCommand (namesBankRegister s.params a) s.params.opcWcr a v s := rfl

theorem setBits_eq (a : RegisterAddress) (m : Byte) (s : State) :
    setBits a m s = checkedCommand (touchesBankBits s a m) s.params.opcBfs a m s := rfl

theorem clearBits_eq (a : RegisterAddress) (m : Byte) (s : State) :
    clearBits a m s = checkedCommand (touchesBankBits s a m) s.params.opcBfc a m s := rfl

/-- The check of 41 R139 comes before any byte, in any `BusState`. -/
theorem checkedCommand_refused (opc : Byte) (a : RegisterAddress) (d : Byte) (s : State) :
    checkedCommand true opc a d s = .fault .forbiddenBankWrite := rfl

theorem checkedCommand_fault (opc : Byte) (a : RegisterAddress) (d : Byte) {s : State} (h : s.bus = .txBusy) :
    checkedCommand false opc a d s = .fault .busInterleave := by
  simp [checkedCommand, registerCommand_fault opc a d h]

/-- A command that passes the check ends as the register command does, its answer dropped. -/
theorem checkedCommand_finish (opc : Byte) (a : RegisterAddress) (d : Byte) (s : State) :
    (checkedCommand false opc a d s).finish (fun _ => Reply.returned)
      = (registerCommand opc a d s).finish fun _ => .returned :=
  Flow.finish_bind_done _ (fun _ => ()) _

/-- Settles O29: `A_ECON1` names the bank-select register, which the check stops; any other address goes on to WCR. -/
theorem writeRegisterSendsTheValue : Obligations.WriteRegisterSendsTheValue := by
  intro a v s
  have hexec : exec (.writeRegister a v) s = (writeRegister a v s).finish fun _ => .returned := rfl
  rw [hexec, writeRegister_eq]
  refine ⟨fun ha => ?_, fun ha hbus => ?_, fun ha hfree => ?_⟩
  · rw [ha, namesBankRegister_econ1, checkedCommand_refused, Flow.finish_fault]
  · rw [ha, checkedCommand_fault _ _ _ hbus, Flow.finish_fault]
  · rw [ha, checkedCommand_finish]
    exact registerCommand_finish s.params.opcWcr a v hfree fun _ => .returned

/-- Settles O30: both operations make the one check, of the address and the mask, and then send one command, with no read
before it. -/
theorem setAndClearBitsSendTheMask : Obligations.SetAndClearBitsSendTheMask := by
  intro a m s
  have hset : exec (.setBits a m) s = (setBits a m s).finish fun _ => .returned := rfl
  have hclear : exec (.clearBits a m) s = (clearBits a m s).finish fun _ => .returned := rfl
  rw [hset, hclear, setBits_eq, clearBits_eq]
  refine ⟨fun ha hm => ?_, fun h hbus => ?_, fun h hfree => ?_⟩
  · have htouch : touchesBankBits s a m = true := touchesBankBits_true (by rw [ha, namesBankRegister_econ1]) hm
    simp only [htouch, checkedCommand_refused, Flow.finish_fault, and_self]
  · simp only [touchesBankBits_false h, checkedCommand_fault _ _ _ hbus, Flow.finish_fault, and_self]
  · simp only [touchesBankBits_false h, checkedCommand_finish]
    exact ⟨registerCommand_finish s.params.opcBfs a m hfree fun _ => .returned,
      registerCommand_finish s.params.opcBfc a m hfree fun _ => .returned⟩

/-! ### The soft reset (41 R136) -/

/-- `Cmd1` (41 R130): a frame of the command byte alone. -/
theorem cmd1_returns (c : Byte) {s : State} (h : WireFree s) :
    ∃ r t, cmd1 c s = .done () t ∧ t.wire = s.wire ++ frameEvents [c] [r] ∧ WireOnly s t ∧ WireFree t := by
  obtain ⟨rs, t, hx, hl, hwire, hk, hf⟩ := framed_returns [c] s h
  obtain ⟨r, rfl⟩ := List.length_eq_one_iff.1 hl
  exact ⟨r, t, by simp [cmd1, hx], hwire, hk, hf⟩

/-- A read of a common register (41 R132) is one frame, and moves no bank. -/
theorem readRegister_common_returns {a : RegisterAddress} (ha : a.isCommon = true) {s : State} (h : WireFree s) :
    ∃ r0 r t, readRegister a s = .done r t
      ∧ t.wire = s.wire ++ frameEvents [commandByte s.params.opcRcr a.off, s.params.dummy] [r0, r]
      ∧ WireOnly s t ∧ WireFree t := by
  cases a with
  | common o => exact cmd2_returns _ _ s h
  | banked b o => cases ha

/-- What 41 R136 says of the polls, given by their answers, of a poll bounded by `n` that ends with `c`: only the last can
have shown the ready flag; it has for `Ok`, and for `Timeout` all `n` were made and none has. -/
structure PollsEnd (p : Params) (n : Nat) (c : Code) (polls : List (List Byte)) : Prop where
  pairs : ∀ q ∈ polls, q.length = 2
  bound : polls.length ≤ n
  early : ∀ q ∈ polls.dropLast, q.getD 1 0#8 &&& p.mClkrdy = 0#8
  ending : (c = .ok ∧ ∃ q, polls.getLast? = some q ∧ q.getD 1 0#8 &&& p.mClkrdy ≠ 0#8)
    ∨ (c = .timeout ∧ polls.length = n ∧ ∀ q ∈ polls, q.getD 1 0#8 &&& p.mClkrdy = 0#8)

theorem PollsEnd.exhausted (p : Params) : PollsEnd p 0 .timeout [] :=
  ⟨by simp, le_rfl, by simp, .inr ⟨rfl, rfl, by simp⟩⟩

theorem PollsEnd.ready {p : Params} (n : Nat) (r0 : Byte) {r : Byte} (h : r &&& p.mClkrdy ≠ 0#8) :
    PollsEnd p (n + 1) .ok [[r0, r]] :=
  ⟨by simp, by simp, by simp, .inl ⟨rfl, [r0, r], rfl, h⟩⟩

/-- One more poll in front, which has not shown the flag. -/
theorem PollsEnd.notReady {p : Params} {n : Nat} {c : Code} {polls : List (List Byte)} (h : PollsEnd p n c polls)
    (r0 : Byte) {r : Byte} (hr : r &&& p.mClkrdy = 0#8) : PollsEnd p (n + 1) c ([r0, r] :: polls) where
  pairs := List.forall_mem_cons.2 ⟨rfl, h.pairs⟩
  bound := Nat.succ_le_succ h.bound
  early := by
    cases polls with
    | nil => simp
    | cons q qs => exact List.forall_mem_cons.2 ⟨hr, h.early⟩
  ending := by
    obtain ⟨hc, q, hq, hshown⟩ | ⟨hc, hn, hnone⟩ := h.ending
    · exact .inl ⟨hc, q, by simp [List.getLast?_cons, hq], hshown⟩
    · exact .inr ⟨hc, congrArg Nat.succ hn, List.forall_mem_cons.2 ⟨hr, hnone⟩⟩

/-- A poll has been made where one is allowed: on `Ok` one has shown the flag, on `Timeout` all were made. -/
theorem PollsEnd.one_le_length {p : Params} {n : Nat} {c : Code} {polls : List (List Byte)} (h : PollsEnd p n c polls)
    (hn : 1 ≤ n) : 1 ≤ polls.length := by
  obtain ⟨-, q, hq, -⟩ | ⟨-, hlen, -⟩ := h.ending
  · exact List.length_pos_of_mem (List.mem_of_getLast? hq)
  · exact hlen ▸ hn

/-- The ready poll with at most `n` reads: its frames and how it ends. `A_ESTAT` is common, so no bank is selected. -/
theorem pollReady_returns (n : Nat) {s : State} (hestat : s.params.aEstat.isCommon = true) (h : WireFree s) :
    ∃ c polls t, pollReady n s = .done c t ∧ PollsEnd s.params n c polls
      ∧ t.wire = s.wire ++ framesEvents (polls.map fun _ => pollFrame s.params) polls
      ∧ WireOnly s t ∧ WireFree t := by
  induction n generalizing s with
  | zero => exact ⟨.timeout, [], s, rfl, PollsEnd.exhausted _, by simp [framesEvents], WireOnly.refl s, h⟩
  | succ n ih =>
    obtain ⟨r0, r, u, hread, hwire, hk, hf⟩ := readRegister_common_returns hestat h
    have hp : u.params = s.params := hk.kept.params
    have hpoll : pollReady (n + 1) s = if flagSet r s.params.mClkrdy then .done .ok u else pollReady n u := by
      rw [pollReady, hread, Flow.bind_done, hp]
    by_cases hr : r &&& s.params.mClkrdy = 0#8
    · obtain ⟨c, polls, t, hx, hends, hwire', hk', hf'⟩ := ih (hp ▸ hestat) hf
      rw [hp] at hends hwire'
      refine ⟨c, [r0, r] :: polls, t, by simp [hpoll, flagSet, hr, hx], hends.notReady r0 hr, ?_, hk.trans hk', hf'⟩
      simp [hwire', hwire, framesEvents, pollFrame]
    · exact ⟨.ok, [[r0, r]], u, by simp [hpoll, flagSet, hr], PollsEnd.ready n r0 hr, by simp [hwire, pollFrame], hk, hf⟩

theorem softReset_fault {s : State} (h : s.bus = .txBusy) : softReset s = .fault .busInterleave := by
  simp [softReset, cmd1, framed_fault _ h]

/-- `softReset` (41 R136): SRC, then the polls, with the cached bank at 0. -/
theorem softReset_returns {s : State} (hestat : s.params.aEstat.isCommon = true) (h : WireFree s) :
    ∃ c r polls t, softReset s = .done c t ∧ PollsEnd s.params s.params.resetPollMax c polls
      ∧ t.wire = s.wire ++ framesEvents ([s.params.opcSrc] :: polls.map fun _ => pollFrame s.params) ([r] :: polls)
      ∧ t.ctl.currentBank = 0#2 ∧ BankOnly s t ∧ WireFree t := by
  obtain ⟨r, u, hsrc, hwire, hk, hf⟩ := cmd1_returns s.params.opcSrc h
  have hp : u.params = s.params := hk.kept.params
  obtain ⟨c, polls, t, hx, hends, hwire', hk', hf'⟩ :=
    pollReady_returns s.params.resetPollMax (s := u.setBank 0#2) (by simpa [hp] using hestat)
      ((BankOnly.setBank u 0#2).free hf hf.2)
  simp only [State.setBank_params, State.setBank_wire, hp] at hends hwire'
  refine ⟨c, r, polls, t, by simp [softReset, hsrc, hp, hx], hends, ?_, by rw [hk'.ctl]; rfl,
    (hk.bankOnly.trans (BankOnly.setBank u 0#2)).trans hk'.bankOnly, hf'⟩
  rw [hwire', hwire, framesEvents, List.append_assoc]

/-- Settles O31: the poll's recursion is on the reads left, so it ends at the first that shows the flag or when none is left;
RESET_POLL_MAX is at least 1 and `A_ESTAT` common by 00_scope R8. -/
theorem softResetPollsWithinTheBound : Obligations.SoftResetPollsWithinTheBound := by
  intro s hok
  have hexec : exec .softReset s = (softReset s).finish codeReply := rfl
  rw [hexec]
  refine ⟨fun hbus => by rw [softReset_fault hbus, Flow.finish_fault], fun hfree => ?_⟩
  obtain ⟨c, r, polls, t, hx, hends, hwire, hbank, hk, -⟩ := softReset_returns (Params.fits hok).estat hfree
  refine ⟨t.addReply (codeReply c), r, polls, by rw [hx, Flow.finish_done], hwire, hends.pairs,
    hends.one_le_length (Params.fits hok).resetPollMax, hends.bound, hends.early, ?_, hk.ctl_of_bank hbank,
    hk.kept_addReply _⟩
  obtain ⟨rfl, q, hq, hshown⟩ | ⟨rfl, hlen, hnone⟩ := hends.ending
  · exact .inl ⟨q, hq, hshown, hk.replies_addReply _⟩
  · exact .inr ⟨hlen, hnone, hk.replies_addReply _⟩

end Sys2Proof.Machine
end

section
/-! PROOF. The Buffer Memory Protocol (42_buffer_memory): one WBM frame for a packet to stage; the count, the header and the
payload of a packet that is read. -/

namespace Sys2Proof.Machine

/-- A frame with a command byte in front: the first byte received answers the command, the others the data. -/
theorem framed_command_returns (c : Byte) (ds : List Byte) {s : State} (h : WireFree s) :
    ∃ a as t, framed (c :: ds) s = .done (a :: as) t ∧ as.length = ds.length
      ∧ t.wire = s.wire ++ frameEvents (c :: ds) (a :: as) ∧ WireOnly s t ∧ WireFree t := by
  obtain ⟨rs, t, hx, hlen, hwire, hk, hf⟩ := framed_returns (c :: ds) s h
  obtain ⟨a, as, rfl⟩ := List.exists_cons_of_length_eq_add_one hlen
  exact ⟨a, as, t, hx, Nat.succ.inj hlen, hwire, hk, hf⟩

/-! ### writePacket (42 R151) -/

theorem writePacket_notReady (q : Option (List Byte)) {s : State} (h : s.ctl.state ≠ .ready) :
    writePacket q s = .done .notReady s := if_pos h

theorem writePacket_empty {q : Option (List Byte)} {s : State} (h : s.ctl.state = .ready) (hq : payloadBytes q = []) :
    writePacket q s = .done .invalidArgument s := by
  simp [writePacket, h, hq]

/-- Past the two checks, `writePacket` is its WBM frame. -/
theorem writePacket_of_ready {q : Option (List Byte)} {s : State} (h : s.ctl.state = .ready) (hq : payloadBytes q ≠ []) :
    writePacket q s = (framed (s.params.opcWbm :: payloadBytes q) s).bind fun _ s => .done .ok s := by
  simp [writePacket, h, hq]

theorem writePacket_fault {q : Option (List Byte)} {s : State} (h : s.ctl.state = .ready) (hq : payloadBytes q ≠ [])
    (hbus : s.bus = .txBusy) : writePacket q s = .fault .busInterleave := by
  rw [writePacket_of_ready h hq, framed_fault _ hbus, Flow.bind_fault]

theorem writePacket_returns {q : Option (List Byte)} {s : State} (h : s.ctl.state = .ready) (hq : payloadBytes q ≠ [])
    (hfree : WireFree s) :
    ∃ as t, writePacket q s = .done .ok t ∧ as.length = (payloadBytes q).length + 1
      ∧ t.wire = s.wire ++ frameEvents (s.params.opcWbm :: payloadBytes q) as ∧ WireOnly s t ∧ WireFree t := by
  obtain ⟨as, t, hx, hlen, hwire, hk, hf⟩ := framed_returns (s.params.opcWbm :: payloadBytes q) s hfree
  exact ⟨as, t, by rw [writePacket_of_ready h hq, hx, Flow.bind_done], hlen, hwire, hk, hf⟩

/-- Settles O34: the two checks end the operation where it starts; past them it is one frame. -/
theorem writePacketStagesOneFrame : Obligations.WritePacketStagesOneFrame := by
  intro q s
  have hexec : exec (.writePacket q) s = (writePacket q s).finish codeReply := rfl
  rw [hexec]
  refine ⟨fun hstate => ?_, fun hready hq => ?_, fun hready hq hbus => ?_, fun hready hq hfree => ?_⟩
  · rw [writePacket_notReady q hstate, Flow.finish_done]; rfl
  · rw [writePacket_empty hready hq, Flow.finish_done]; rfl
  · rw [writePacket_fault hready hq hbus, Flow.finish_fault]
  · obtain ⟨as, t, hx, hlen, hwire, hk, -⟩ := writePacket_returns hready hq hfree
    exact ⟨t.addReply .ok, as, by rw [hx, Flow.finish_done]; rfl, hlen, hwire, hk.bankOnly.replies_addReply _, hk.ctl,
      hk.bankOnly.kept_addReply _⟩

/-! ### readPacket (42 R153 to R155) -/

/-- The header fits its two length bytes (00_scope R8), so the length is read from bytes the controller sent (42 R154). -/
theorem headerLength_of_length {p : Params} (hok : p.ok = true) {h : List Byte} (hlen : h.length = p.hdrBytes) :
    ∃ lo hi, h[p.hdrLenOff]? = some lo ∧ h[p.hdrLenOff + 1]? = some hi
      ∧ headerLength p h = lo.toNat + 256 * hi.toNat := by
  have hfit : p.hdrLenOff + 2 ≤ p.hdrBytes := (Params.fits hok).header
  have hlo : h[p.hdrLenOff]? = some h[p.hdrLenOff] := List.getElem?_eq_getElem (by omega)
  have hhi : h[p.hdrLenOff + 1]? = some h[p.hdrLenOff + 1] := List.getElem?_eq_getElem (by omega)
  refine ⟨_, _, hlo, hhi, ?_⟩
  rw [headerLength, List.getD_eq_getElem?_getD, List.getD_eq_getElem?_getD, hlo, hhi, word16_eq]
  rfl

theorem readHeader_returns {s : State} (hfree : WireFree s) :
    ∃ h0 h t, readHeader s = .done h t ∧ h.length = s.params.hdrBytes
      ∧ t.wire = s.wire ++ frameEvents (s.params.opcRbm :: List.replicate s.params.hdrBytes s.params.dummy) (h0 :: h)
      ∧ WireOnly s t ∧ WireFree t := by
  obtain ⟨h0, h, t, hx, hlen, hwire, hk, hf⟩ :=
    framed_command_returns s.params.opcRbm (List.replicate s.params.hdrBytes s.params.dummy) hfree
  exact ⟨h0, h, t, by rw [readHeader, hx, Flow.bind_done, List.tail_cons], hlen.trans List.length_replicate, hwire, hk, hf⟩

/-- The dummies kept and the dummies drained are one frame of `len` of them: the whole payload is clocked in (42 R155). -/
theorem readPayload_of_pos {len n : Nat} (hlen : len ≠ 0) (hn : n ≤ len) (s : State) :
    readPayload len n s = (framed (s.params.opcRbm :: List.replicate len s.params.dummy) s).bind
      fun rs s => .done (rs.tail.take n) s := by
  rw [readPayload, if_neg hlen, List.replicate_append_replicate, Nat.add_sub_cancel' hn]

/-- The payload read with room for `capacity` bytes: all `len` bytes come in, the first `capacity` are the result. -/
theorem readPayload_returns (len capacity : Nat) {s : State} (hfree : WireFree s) :
    ∃ pay0 pay t, readPayload len (min len capacity) s = .done (pay.take capacity) t ∧ pay.length = len
      ∧ t.wire = s.wire ++ (if len = 0 then [] else
          frameEvents (s.params.opcRbm :: List.replicate len s.params.dummy) (pay0 :: pay))
      ∧ WireOnly s t ∧ WireFree t := by
  by_cases hlen : len = 0
  · exact ⟨0#8, [], s, by simp [readPayload, hlen], hlen.symm, by simp [hlen], WireOnly.refl s, hfree⟩
  · obtain ⟨pay0, pay, t, hx, hpay, hwire, hk, hf⟩ :=
      framed_command_returns s.params.opcRbm (List.replicate len s.params.dummy) hfree
    rw [List.length_replicate] at hpay
    refine ⟨pay0, pay, t, ?_, hpay, by rw [hwire, if_neg hlen], hk, hf⟩
    have htake : pay.take (min len capacity) = pay.take capacity := by
      rw [← hpay, Nat.min_comm, ← List.take_eq_take_min]
    rw [readPayload_of_pos hlen (Nat.min_le_left _ _), hx, Flow.bind_done, List.tail_cons, htake]

/-- What `readPacket` does once the count has shown a packet: the header, then the payload of the length it gives. -/
def readPending (capacity : Nat) (s : State) : Flow (List Byte × Code) :=
  (readHeader s).bind fun h s =>
    (readPayload (headerLength s.params h) (min (headerLength s.params h) capacity) s).bind fun bytes s =>
      .done (bytes, packetStatus (headerLength s.params h) capacity) s

theorem readPacket_eq (capacity : Nat) (s : State) :
    readPacket capacity s = (readRegister s.params.aEpktcnt s).bind fun cnt s =>
      if cnt = 0#8 then .done ([], .ok) s else readPending capacity s := rfl

/-- A pending packet read (42 R153 to R155): the frames are those of the header and of the payload the header announces. -/
theorem readPending_returns (capacity : Nat) {s : State} (hok : s.params.ok = true) (hfree : WireFree s) :
    ∃ h0 h lo hi pay0 pay t, readPending capacity s = .done (pay.take capacity, packetStatus pay.length capacity) t
      ∧ h.length = s.params.hdrBytes ∧ h[s.params.hdrLenOff]? = some lo ∧ h[s.params.hdrLenOff + 1]? = some hi
      ∧ pay.length = lo.toNat + 256 * hi.toNat
      ∧ t.wire = s.wire ++ (frameEvents (s.params.opcRbm :: List.replicate s.params.hdrBytes s.params.dummy) (h0 :: h)
          ++ (if pay.length = 0 then [] else
            frameEvents (s.params.opcRbm :: List.replicate pay.length s.params.dummy) (pay0 :: pay)))
      ∧ WireOnly s t ∧ WireFree t := by
  obtain ⟨h0, h, u, hheader, hlen, hwire, hk, hf⟩ := readHeader_returns hfree
  have hp : u.params = s.params := hk.kept.params
  obtain ⟨lo, hi, hlo, hhi, hlength⟩ := headerLength_of_length hok hlen
  obtain ⟨pay0, pay, t, hpayload, hpay, hwire', hk', hf'⟩ := readPayload_returns (headerLength s.params h) capacity hf
  rw [hp, hwire, ← hpay, List.append_assoc] at hwire'
  refine ⟨h0, h, lo, hi, pay0, pay, t, ?_, hlen, hlo, hhi, hpay.trans hlength, hwire', hk.trans hk', hf'⟩
  rw [readPending, hheader, Flow.bind_done, hp, hpayload, Flow.bind_done, hk'.kept.params, hp, hpay]

/-- The count is read on the wire, so a transmit in flight stops `readPacket` there. -/
theorem readPacket_fault (capacity : Nat) {s : State} (hbus : s.bus = .txBusy) :
    readPacket capacity s = .fault .busInterleave := by
  rw [readPacket_eq, readRegister, registerCommand_fault _ _ _ hbus, Flow.bind_fault]

/-- Settles O35: the count is one register read; what follows it is nothing, or the read of the pending packet. -/
theorem readPacketReadsCountHeaderPayload : Obligations.ReadPacketReadsCountHeaderPayload := by
  intro cap s hok
  have hexec : exec (.readPacket cap) s = (readPacket cap s).finish packetReply := rfl
  rw [hexec]
  refine ⟨fun hbus => by rw [readPacket_fault cap hbus, Flow.finish_fault], fun hfree => ?_⟩
  obtain ⟨as, r0, cnt, u, hcount, has, hwire, hbank, hk, hf⟩ := readRegister_returns s.params.aEpktcnt s hfree
  have hp : u.params = s.params := hk.kept.params
  rw [readPacket_eq, hcount, Flow.bind_done]
  by_cases hcnt : cnt = 0#8
  · exact ⟨u.addReply (.packet [] .ok), as, r0, cnt, [], by rw [if_pos hcnt, Flow.finish_done]; rfl, has,
      hwire.trans (List.append_nil _).symm, hk.ctl_of_bank hbank, hk.kept_addReply _,
      fun _ => ⟨rfl, hk.replies_addReply _⟩, fun h => absurd hcnt h⟩
  · obtain ⟨h0, h, lo, hi, pay0, pay, t, hx, hlen, hlo, hhi, hpay, hwire', hk', -⟩ :=
      readPending_returns cap (hp ▸ hok) hf
    rw [hp] at hlen hlo hhi hwire'
    have hkt : BankOnly s t := hk.trans hk'.bankOnly
    exact ⟨t.addReply (.packet (pay.take cap) (packetStatus pay.length cap)), as, r0, cnt, _,
      by rw [if_neg hcnt, hx, Flow.finish_done]; rfl, has, hwire'.trans (congrArg (· ++ _) hwire),
      hkt.ctl_of_bank ((congrArg Ctl.currentBank hk'.ctl).trans hbank), hkt.kept_addReply _, fun h => absurd h hcnt,
      fun _ => ⟨h0, h, lo, hi, pay0, pay, pay.length, hlen, hlo, hhi, hpay, rfl, rfl, hkt.replies_addReply _⟩⟩

end Sys2Proof.Machine
end

section
/-! PROOF. The Packet / Link Supervisor (43_supervisor): the notifications, the queries, `receive`, `send` and `initialize`. -/

namespace Sys2Proof.Machine

/-! ### The notifications (43 R166, R167) -/

theorem acceptsHardwareFault_iff (c : CtlState) : acceptsHardwareFault c = true ↔ c = .ready ∨ c = .txBusy := by
  simp [acceptsHardwareFault]

theorem exec_txComplete_of_txBusy {s : State} (h : s.ctl.state = .txBusy) :
    exec .txComplete s = .next ((s.setCtlState .ready).addReply .returned) := by
  show execTxComplete s = _
  rw [execTxComplete, if_pos h]

theorem exec_txComplete_ignored {s : State} (h : s.ctl.state ≠ .txBusy) :
    exec .txComplete s = .next (s.addReply .returned) := by
  show execTxComplete s = _
  rw [execTxComplete, if_neg h]

theorem exec_hardwareFault_of_accepts {s : State} (h : s.ctl.state = .ready ∨ s.ctl.state = .txBusy) :
    exec .hardwareFault s = .next ((s.setCtlState .error).addReply .returned) := by
  show execHardwareFault s = _
  rw [execHardwareFault, if_pos ((acceptsHardwareFault_iff _).2 h)]

theorem exec_hardwareFault_ignored {s : State} (h : ¬ (s.ctl.state = .ready ∨ s.ctl.state = .txBusy)) :
    exec .hardwareFault s = .next (s.addReply .returned) := by
  show execHardwareFault s = _
  rw [execHardwareFault, if_neg (mt (acceptsHardwareFault_iff _).1 h)]

theorem execAll_cons_of_next {i : Instr} {s t : State} (h : exec i s = .next t) (is : List Instr) :
    execAll (i :: is) s = execAll is t := by
  rw [execAll, h]

/-- Settles O45: each notification is one test of `Ctl.state`. Completion first leaves Ready, where the fault still acts; the
fault first leaves Error, where completion is ignored. -/
theorem notificationsMoveTheStateAndCommute : Obligations.NotificationsMoveTheStateAndCommute := by
  intro s
  refine ⟨exec_txComplete_of_txBusy, exec_txComplete_ignored, exec_hardwareFault_of_accepts,
    fun hready hbusy => exec_hardwareFault_ignored (not_or.2 ⟨hready, hbusy⟩), fun hbusy => ?_⟩
  refine ⟨((s.setCtlState .error).addReply .returned).addReply .returned, ?_, ?_, rfl⟩
  · rw [execAll_cons_of_next (exec_txComplete_of_txBusy hbusy),
      execAll_cons_of_next (exec_hardwareFault_of_accepts (.inl rfl))]
    rfl
  · rw [execAll_cons_of_next (exec_hardwareFault_of_accepts (.inr hbusy)),
      execAll_cons_of_next
        (exec_txComplete_ignored (s := (s.setCtlState .error).addReply .returned) nofun)]
    rfl

/-! ### The queries (43 R168, R170) -/

/-- Settles O44: the flag is the disjunction of the two conditions. -/
theorem supIsBusyReportsSendOrBus : Obligations.SupIsBusyReportsSendOrBus := by
  intro s
  have hflag : supervisorBusy s = false ↔ s.ctl.state ≠ .txBusy ∧ s.bus = .idle := by simp [supervisorBusy]
  exact ⟨supervisorBusy s, rfl, hflag⟩

/-- Settles O43: outside Uninitialized `pollLinkUp` is the register command RCR on `A_PHYSTAT`, its byte masked. -/
theorem pollLinkUpReadsTheLinkBit : Obligations.PollLinkUpReadsTheLinkBit := by
  intro s
  have hexec : exec .pollLinkUp s = if s.ctl.state = .uninitialized then .next (s.addReply (.err .notReady))
      else (registerCommand s.params.opcRcr s.params.aPhystat s.params.dummy s).finish
        fun v => .flag (flagSet v s.params.mLink) := rfl
  rw [hexec]
  refine ⟨fun hstate => if_pos hstate, fun hstate hbus => ?_, fun hstate hfree => ?_⟩
  · rw [if_neg hstate, registerCommand_fault _ _ _ hbus, Flow.finish_fault]
  · rw [if_neg hstate]
    exact registerCommand_finish s.params.opcRcr s.params.aPhystat s.params.dummy hfree _

/-! ### receive (43 R169) -/

theorem acceptsReceive_iff (c : CtlState) : acceptsReceive c = true ↔ c = .ready ∨ c = .txBusy := by
  simp [acceptsReceive]

theorem exec_receive_notReady {s : State} (h : ¬ (s.ctl.state = .ready ∨ s.ctl.state = .txBusy)) (capacity : Nat) :
    exec (.receive capacity) s = .next (s.addReply (.err .notReady)) := by
  show execReceive capacity s = _
  rw [execReceive, if_neg (mt (acceptsReceive_iff _).1 h)]

/-- Where it is valid, `receive` is `readPacket`. -/
theorem exec_receive_of_accepts {s : State} (h : s.ctl.state = .ready ∨ s.ctl.state = .txBusy) (capacity : Nat) :
    exec (.receive capacity) s = exec (.readPacket capacity) s := by
  show execReceive capacity s = execReadPacket capacity s
  rw [execReceive, if_pos ((acceptsReceive_iff _).2 h), execReadPacket]

/-- `readPacket` returns under any parameter set, also one whose header has no length bytes. -/
theorem readPacket_returns (capacity : Nat) {s : State} (hfree : WireFree s) :
    ∃ r t, readPacket capacity s = .done r t ∧ BankOnly s t := by
  obtain ⟨-, -, cnt, u, hcount, -, -, -, hk, hf⟩ := readRegister_returns s.params.aEpktcnt s hfree
  rw [readPacket_eq, hcount, Flow.bind_done]
  by_cases hcnt : cnt = 0#8
  · exact ⟨_, u, if_pos hcnt, hk⟩
  · obtain ⟨-, h, v, hheader, -, -, hk', hf'⟩ := readHeader_returns hf
    obtain ⟨-, pay, t, hpayload, -, -, hk'', -⟩ := readPayload_returns (headerLength u.params h) capacity hf'
    refine ⟨(pay.take capacity, packetStatus (headerLength t.params h) capacity), t, ?_,
      hk.trans (hk'.trans hk'').bankOnly⟩
    rw [if_neg hcnt, readPending, hheader, Flow.bind_done, hk'.kept.params, hpayload, Flow.bind_done]

/-- Settles O42: the state check aside, `receive` and `readPacket` are one operation, which moves of `Ctl` the bank only. -/
theorem receiveIsReadPacketWhereValid : Obligations.ReceiveIsReadPacketWhereValid := by
  intro cap s
  have hread : exec (.readPacket cap) s = (readPacket cap s).finish packetReply := rfl
  refine ⟨fun hready hbusy => exec_receive_notReady (not_or.2 ⟨hready, hbusy⟩) cap, fun hstate hbus => ?_,
    fun hstate hfree => ?_⟩
  · rw [exec_receive_of_accepts hstate, hread, readPacket_fault cap hbus, Flow.finish_fault]
  · obtain ⟨r, t, hx, hk⟩ := readPacket_returns cap hfree
    rw [exec_receive_of_accepts hstate, hread, hx, Flow.finish_done]
    exact ⟨_, r.1, r.2, rfl, rfl, hk.replies_addReply _, hk.state, hk.macAddress, hk.kept_addReply _⟩

/-! ### Register writes that pass the check of 41 R139 -/

/-- On a common register no bank-select sequence comes before the command (41 R131). -/
theorem registerCommand_common {a : RegisterAddress} (ha : a.isCommon = true) (opc d : Byte) (s : State) :
    registerCommand opc a d s = cmd2 (commandByte opc a.off) d s := by
  cases a with
  | common o => rfl
  | banked b o => cases ha

/-- `setBits` on `A_ECON1` with a mask that misses the bank-select bits is one frame (41 R134). -/
theorem setBits_econ1_returns {m : Byte} {s : State} (hecon1 : s.params.aEcon1.isCommon = true)
    (hm : m &&& s.params.mBsel = 0#8) (hfree : WireFree s) :
    ∃ r0 r1 t, setBits s.params.aEcon1 m s = .done () t
      ∧ t.wire = s.wire ++ frameEvents [commandByte s.params.opcBfs s.params.aEcon1.off, m] [r0, r1]
      ∧ WireOnly s t ∧ WireFree t := by
  obtain ⟨r0, r1, t, hx, hwire, hk, hf⟩ :=
    cmd2_returns (commandByte s.params.opcBfs s.params.aEcon1.off) m s hfree
  refine ⟨r0, r1, t, ?_, hwire, hk, hf⟩
  rw [setBits_eq, touchesBankBits_false (.inr hm), checkedCommand, if_neg Bool.false_ne_true,
    registerCommand_common hecon1, hx, Flow.bind_done]

theorem writeRegister_returns {a : RegisterAddress} (v : Byte) {s : State} (ha : namesBankRegister s.params a = false)
    (hfree : WireFree s) :
    ∃ as t, writeRegister a v s = .done () t ∧ Answers (writeFrames s.params s.ctl.currentBank a v) as
      ∧ t.wire = s.wire ++ framesEvents (writeFrames s.params s.ctl.currentBank a v) as
      ∧ t.ctl.currentBank = bankAfter s.ctl.currentBank a ∧ BankOnly s t ∧ WireFree t := by
  obtain ⟨as, r0, r, t, hx, has, hwire, hbank, hk, hf⟩ := registerCommand_returns s.params.opcWcr a v s hfree
  refine ⟨as ++ [[r0, r]], t, ?_, has.append (Answers.single rfl), hwire, hbank, hk, hf⟩
  rw [writeRegister_eq, ha, checkedCommand, if_neg Bool.false_ne_true, hx, Flow.bind_done]

/-- Register writes in order (43 R162), none of which names the bank-select register. -/
theorem writeAll_returns (ws : List (RegisterAddress × Byte)) {s : State}
    (hws : ∀ w ∈ ws, namesBankRegister s.params w.1 = false) (hfree : WireFree s) :
    ∃ as t, writeAll ws s = .done () t ∧ Answers (writesFrames s.params s.ctl.currentBank ws) as
      ∧ t.wire = s.wire ++ framesEvents (writesFrames s.params s.ctl.currentBank ws) as
      ∧ t.ctl.currentBank = bankAfterWrites s.ctl.currentBank ws ∧ BankOnly s t ∧ WireFree t := by
  induction ws generalizing s with
  | nil => exact ⟨[], s, rfl, Answers.nil, (List.append_nil _).symm, rfl, BankOnly.refl s, hfree⟩
  | cons w ws ih =>
    obtain ⟨hw, hrest⟩ := List.forall_mem_cons.1 hws
    obtain ⟨as, u, hx, has, hwire, hbank, hk, hf⟩ := writeRegister_returns w.2 hw hfree
    have hp : u.params = s.params := hk.kept.params
    obtain ⟨bs, t, hx', hbs, hwire', hbank', hk', hf'⟩ := ih (hp ▸ hrest) hf
    rw [hp, hbank] at hbs hwire'
    rw [hbank] at hbank'
    refine ⟨as ++ bs, t, by rw [writeAll, hx, Flow.bind_done, hx'], has.append hbs, ?_, hbank', hk.trans hk', hf'⟩
    rw [writesFrames, framesEvents_append _ _ _ _ has.length, hwire', hwire, List.append_assoc]

theorem writeAll_append (ws ws' : List (RegisterAddress × Byte)) (s : State) :
    writeAll (ws ++ ws') s = (writeAll ws s).bind fun _ s => writeAll ws' s := by
  induction ws generalizing s with
  | nil => rfl
  | cons w ws ih =>
    rw [List.cons_append, writeAll, writeAll]
    cases writeRegister w.1 w.2 s with
    | done a u => exact ih u
    | hang u => rfl
    | fault e => rfl

/-! ### send (43 R164) -/

theorem send_notReady (q : Option (List Byte)) {s : State} (h : s.ctl.state ≠ .ready) : send q s = .done .notReady s :=
  if_pos h

theorem send_tooLong {q : Option (List Byte)} {s : State} (h : s.ctl.state = .ready)
    (hq : s.params.maxFrame < (payloadBytes q).length) : send q s = .done .invalidArgument s := by
  rw [send, if_neg (not_not.2 h), if_pos hq]

/-- Past the state check and the size check, `send` stages the payload and goes on if that succeeds. -/
theorem send_of_ready {q : Option (List Byte)} {s : State} (h : s.ctl.state = .ready)
    (hq : (payloadBytes q).length ≤ s.params.maxFrame) :
    send q s = (writePacket q s).bind fun r s =>
      if r ≠ .ok then .done r s
      else (setBits s.params.aEcon1 s.params.mTxrts s).bind fun _ s => .done .ok (s.setCtlState .txBusy) := by
  rw [send, if_neg (not_not.2 h), if_neg hq.not_gt]

theorem send_empty {q : Option (List Byte)} {s : State} (h : s.ctl.state = .ready) (hq : payloadBytes q = []) :
    send q s = .done .invalidArgument s := by
  rw [send_of_ready h (by simp [hq]), writePacket_empty h hq]
  rfl

theorem send_fault {q : Option (List Byte)} {s : State} (h : s.ctl.state = .ready) (hq : payloadBytes q ≠ [])
    (hlen : (payloadBytes q).length ≤ s.params.maxFrame) (hbus : s.bus = .txBusy) :
    send q s = .fault .busInterleave := by
  rw [send_of_ready h hlen, writePacket_fault h hq hbus, Flow.bind_fault]

/-- A `send` that is accepted: the WBM frame, the transmit request, TxBusy. -/
theorem send_returns {q : Option (List Byte)} {s : State} (hok : s.params.Fits) (h : s.ctl.state = .ready)
    (hq : payloadBytes q ≠ []) (hlen : (payloadBytes q).length ≤ s.params.maxFrame) (hfree : WireFree s) :
    ∃ as r0 r1 t, send q s = .done .ok (t.setCtlState .txBusy) ∧ as.length = (payloadBytes q).length + 1
      ∧ t.wire = s.wire ++ frameEvents (s.params.opcWbm :: payloadBytes q) as
          ++ frameEvents [commandByte s.params.opcBfs s.params.aEcon1.off, s.params.mTxrts] [r0, r1]
      ∧ WireOnly s t := by
  obtain ⟨as, u, hstage, has, hwire, hk, hf⟩ := writePacket_returns h hq hfree
  have hp : u.params = s.params := hk.kept.params
  obtain ⟨r0, r1, t, hrequest, hwire', hk', -⟩ :=
    setBits_econ1_returns (m := s.params.mTxrts) (hp ▸ hok.econ1) (hp ▸ hok.mTxrts) hf
  rw [hp] at hrequest hwire'
  refine ⟨as, r0, r1, t, ?_, has, by rw [hwire', hwire], hk.trans hk'⟩
  rw [send_of_ready h hlen, hstage, Flow.bind_done, if_neg (not_not.2 rfl), hp, hrequest, Flow.bind_done]

/-- Settles O40: the three checks end the operation where it starts; past them it is the two frames, which leave `Ctl` to
the last step. -/
theorem sendStagesThenRequestsTransmission : Obligations.SendStagesThenRequestsTransmission := by
  intro q s hok
  have hexec : exec (.send q) s = (send q s).finish codeReply := rfl
  rw [hexec]
  refine ⟨fun hstate => ?_, fun hready hlong => ?_, fun hready hq => ?_, fun hready hq hlen hbus => ?_,
    fun hready hq hlen hfree => ?_⟩
  · rw [send_notReady q hstate, Flow.finish_done]; rfl
  · rw [send_tooLong hready hlong, Flow.finish_done]; rfl
  · rw [send_empty hready hq, Flow.finish_done]; rfl
  · rw [send_fault hready hq hlen hbus, Flow.finish_fault]
  · obtain ⟨as, r0, r1, t, hx, has, hwire, hk⟩ := send_returns (Params.fits hok) hready hq hlen hfree
    exact ⟨(t.setCtlState .txBusy).addReply .ok, as, r0, r1, by rw [hx, Flow.finish_done]; rfl, has, hwire,
      by simp [hk.replies], by simp [hk.ctl],
      (hk.kept.trans (Kept.setCtlState t .txBusy)).trans (Kept.addReply _ .ok)⟩

/-! ### initialize (43 R162, R163) -/

/-- Resetting, with the address stored: where `initialize` begins once its checks have passed (43 R162, step 1). -/
def State.enterResetting (s : State) (m : Six Byte) : State :=
  s.setCtl { s.ctl with state := .resetting, macAddress := m }

theorem bringUp_notReady (mac : Option (Six Byte)) {s : State} (h : acceptsInitialize s.ctl.state = false) :
    bringUp mac s = .done (.notReady, .notStarted) s := by
  simp [bringUp, h]

theorem bringUp_none {s : State} (h : acceptsInitialize s.ctl.state = true) :
    bringUp none s = .done (.invalidArgument, .validate) (s.setCtlState .error) := by
  simp [bringUp, h]

/-- Past its checks, `initialize` is the soft reset from Resetting, and the configuration unless the reset has timed out. -/
theorem bringUp_some (m : Six Byte) {s : State} (h : acceptsInitialize s.ctl.state = true) :
    bringUp (some m) s = (softReset (s.enterResetting m)).bind fun r s =>
      if r = .timeout then .done (.timeout, .reset) (s.setCtlState .error) else configure m s :=
  if_pos h

theorem bringUp_fault (m : Six Byte) {s : State} (h : acceptsInitialize s.ctl.state = true) (hbus : s.bus = .txBusy) :
    bringUp (some m) s = .fault .busInterleave := by
  rw [bringUp_some m h, softReset_fault (s := s.enterResetting m) hbus, Flow.bind_fault]

/-- No poll of the soft reset has shown the flag: Error, with the bank of the soft reset. -/
theorem bringUp_of_reset_timeout {m : Six Byte} {s u : State} (h : acceptsInitialize s.ctl.state = true)
    (hreset : softReset (s.enterResetting m) = .done .timeout u) (hbank : u.ctl.currentBank = 0#2)
    (hk : BankOnly (s.enterResetting m) u) :
    bringUp (some m) s = .done (.timeout, .reset) (u.setCtlState .error)
      ∧ (u.setCtlState .error).ctl = { macAddress := m, state := .error, currentBank := 0#2 }
      ∧ u.replies = s.replies ∧ Kept s (u.setCtlState .error) := by
  refine ⟨by rw [bringUp_some m h, hreset, Flow.bind_done, if_pos rfl], ?_, hk.replies,
    (Kept.setCtl s _).trans (hk.kept.trans (Kept.setCtlState u .error))⟩
  rw [State.setCtlState_ctl, hk.ctl_of_bank hbank]
  rfl

/-- The frame of step 5 of 43 R162: reception enabled. -/
def enableRxFrame (p : Params) : List Byte := [commandByte p.opcBfs p.aEcon1.off, p.mRxen]

/-- The frames of steps 3 to 5 of 43 R162, from a selected bank. -/
def configureFrames (p : Params) (cur : BitVec 2) (m : Six Byte) : List (List Byte) :=
  writesFrames p cur (initWrites p m) ++ [enableRxFrame p]

/-- The RXCFG writes and the MAC writes are the writes of `initWrites`, and reception is enabled after them. -/
theorem configure_of_writes {m : Six Byte} {s t : State} (h : writeAll (initWrites s.params m) s = .done () t) :
    configure m s = (setBits t.params.aEcon1 t.params.mRxen t).bind fun _ s =>
      .done (.ok, .enableRx) (s.setCtlState .ready) := by
  rw [initWrites, writeAll_append] at h
  obtain ⟨_, u, hrx, hmac⟩ := Flow.of_bind_done h
  have hk : BankOnly s u := by
    have hall := writeAll_all s.params.rxcfg s
    rwa [hrx] at hall
  rw [configure, hrx, Flow.bind_done, hk.kept.params, hmac, Flow.bind_done]

theorem configure_returns (m : Six Byte) {s : State} (hok : s.params.Fits)
    (hw : ∀ w ∈ initWrites s.params m, namesBankRegister s.params w.1 = false) (hfree : WireFree s) :
    ∃ rest t, configure m s = .done (.ok, .enableRx) (t.setCtlState .ready)
      ∧ Answers (configureFrames s.params s.ctl.currentBank m) rest
      ∧ t.wire = s.wire ++ framesEvents (configureFrames s.params s.ctl.currentBank m) rest
      ∧ t.ctl.currentBank = bankAfterWrites s.ctl.currentBank (initWrites s.params m) ∧ BankOnly s t := by
  obtain ⟨as, u, hwrites, has, hwire, hbank, hk, hf⟩ := writeAll_returns (initWrites s.params m) hw hfree
  have hp : u.params = s.params := hk.kept.params
  obtain ⟨r0, r1, t, henable, hwire', hk', -⟩ :=
    setBits_econ1_returns (m := u.params.mRxen) (hp ▸ hok.econ1) (hp ▸ hok.mRxen) hf
  refine ⟨as ++ [[r0, r1]], t, by rw [configure_of_writes hwrites, henable, Flow.bind_done],
    has.append (Answers.single rfl), ?_, by rw [hk'.ctl, hbank], hk.trans hk'.bankOnly⟩
  rw [configureFrames, framesEvents_append _ _ _ _ has.length, framesEvents_single, hwire', hwire, hp,
    List.append_assoc, enableRxFrame]

/-- The writes of `initialize` go to the registers of the parameter set: RXCFG and MAADR. -/
theorem initWrites_avoid_bank {p : Params} (m : Six Byte) (hrx : ∀ w ∈ p.rxcfg, namesBankRegister p w.1 = false)
    (hmac : ∀ a ∈ p.aMaadr.toList, namesBankRegister p a = false) :
    ∀ w ∈ initWrites p m, namesBankRegister p w.1 = false := by
  intro w hw
  obtain hw | hw := List.mem_append.1 hw
  · exact hrx w hw
  · exact hmac w.1 (List.of_mem_zip hw).1

/-- A poll of the soft reset has shown the flag: the controller is configured, Ready. -/
theorem bringUp_of_reset_ok {m : Six Byte} {s u : State} (h : acceptsInitialize s.ctl.state = true)
    (hok : s.params.Fits) (hw : ∀ w ∈ initWrites s.params m, namesBankRegister s.params w.1 = false)
    (hreset : softReset (s.enterResetting m) = .done .ok u) (hbank : u.ctl.currentBank = 0#2)
    (hk : BankOnly (s.enterResetting m) u) (hfree : WireFree u) :
    ∃ rest t, bringUp (some m) s = .done (.ok, .enableRx) t ∧ Answers (configureFrames s.params 0#2 m) rest
      ∧ t.wire = u.wire ++ framesEvents (configureFrames s.params 0#2 m) rest
      ∧ t.ctl = { macAddress := m, state := .ready, currentBank := bankAfterWrites 0#2 (initWrites s.params m) }
      ∧ t.replies = s.replies ∧ Kept s t := by
  have hp : u.params = s.params := hk.kept.params
  obtain ⟨rest, t, hconf, hrest, hwire, hbank', hk'⟩ := configure_returns m (hp ▸ hok) (hp ▸ hw) hfree
  rw [hp, hbank] at hrest hwire hbank'
  refine ⟨rest, t.setCtlState .ready,
    by rw [bringUp_some m h, hreset, Flow.bind_done, if_neg nofun, hconf], hrest, hwire, ?_, (hk.trans hk').replies,
    (Kept.setCtl s _).trans ((hk.trans hk').kept.trans (Kept.setCtlState t .ready))⟩
  rw [State.setCtlState_ctl, (hk.trans hk').ctl_of_bank hbank']
  rfl

/-- Settles O38: the two checks come first. Past them the polls of the soft reset decide: none shows the flag, which is the
Timeout of step `reset`; or the last one does, after which no write can fail. -/
theorem initializeBringsTheControllerUp : Obligations.InitializeBringsTheControllerUp := by
  intro mac s hok hrx hmac
  have hexec : exec (.initializeOp mac) s = (bringUp mac s).finish bringUpReply := rfl
  rw [hexec]
  refine ⟨fun hstate => ?_, fun hstate hnull => ?_, fun hstate hsome hbus => ?_, fun m hstate hsome hfree => ?_⟩
  · rw [bringUp_notReady mac hstate, Flow.finish_done]; rfl
  · rw [hnull, bringUp_none hstate, Flow.finish_done]; rfl
  · obtain ⟨m, rfl⟩ := Option.ne_none_iff_exists'.1 hsome
    rw [bringUp_fault m hstate hbus, Flow.finish_fault]
  · rw [hsome]
    have hfits := Params.fits hok
    obtain ⟨c, r, polls, u, hreset, hends, hwire, hbank, hk, hf⟩ :=
      softReset_returns (s := s.enterResetting m) hfits.estat hfree
    obtain ⟨rfl, hshown⟩ | ⟨rfl, hlen, hnone⟩ := hends.ending
    · obtain ⟨rest, t, hx, hrest, hwire', hctl, hreplies, hkept⟩ :=
        bringUp_of_reset_ok hstate hfits (initWrites_avoid_bank m hrx hmac) hreset hbank hk hf
      refine ⟨t.addReply .ok, r, polls, rest, by rw [hx, Flow.finish_done]; rfl, hkept.trans (Kept.addReply t .ok),
        hends.pairs, hends.one_le_length hfits.resetPollMax, hends.bound, hends.early,
        .inl ⟨hshown, congrArg (· ++ _) hreplies, hctl, hrest, ?_⟩⟩
      rw [State.addReply_wire, hwire', hwire, List.append_assoc, ← framesEvents_append _ _ _ _ (by simp)]
      rfl
    · obtain ⟨hx, hctl, hreplies, hkept⟩ := bringUp_of_reset_timeout hstate hreset hbank hk
      exact ⟨(u.setCtlState .error).addReply (.errAt .timeout .reset), r, polls, [],
        by rw [hx, Flow.finish_done]; rfl, hkept.trans (Kept.addReply _ _), hends.pairs,
        hends.one_le_length hfits.resetPollMax, hends.bound, hends.early,
        .inr ⟨hnone, congrArg (· ++ _) hreplies, hlen, hctl, hwire⟩⟩

end Sys2Proof.Machine
end

section
/-! PROOF. The wire commands of the reference peer that write (44 R186, R190, R191) and the frame of no known command
(44 R192), each answered `0x00` to every byte. -/

namespace Sys2Proof.Machine

/-! ### What a frame answered `0x00` leaves -/

/-- The zero answers read from either end: that of the command byte first, or that of the last byte last (44 R193). -/
theorem zeroAnswers_concat (data : List Byte) : 0#8 :: zeroAnswers data = data.map (fun _ => 0#8) ++ [0#8] := by
  simp only [zeroAnswers, List.map_const', ← List.replicate_succ, List.replicate_succ']

/-- A frame answered `0x00` has crossed the wire: the peer stands as given, outside any frame, and the block is as
before. -/
theorem peerFrame_zeroAnswers (c : Byte) (data : List Byte) (after : Peer) (s : State) :
    ∃ t, peerFrame c data (zeroAnswers data) after s = .next t
      ∧ t.wire = s.wire ++ frameEvents (c :: data) (data.map (fun _ => 0#8) ++ [0#8])
      ∧ OnlyPeerAndWire s t ∧ t.peer = after.withFrame .outside :=
  ⟨_, rfl, congrArg (s.wire ++ frameEvents (c :: data) ·) (zeroAnswers_concat data), peerFrame_onlyPeerAndWire rfl, rfl⟩

/-! ### The frame of no known command (44 R192) -/

/-- A frame of no known command crosses the wire all the same. -/
theorem step_of_undecoded_frame {s : State} {bytes : List Byte} {rest : List Item} {e : DecodeError}
    (hfg : s.fg = .running) (hagenda : s.agenda = .instr .peer (.frame bytes) :: rest)
    (hdecode : decode s.params (.frame bytes) = .error e) :
    step s = runUnknownFrame bytes (s.setAgenda rest) := by
  simp only [step, runNext, hfg, hagenda, runItem, runEncoded, State.setAgenda_params, hdecode, if_true]

/-- Settles O13: the step is the frame crossing the wire, which touches the peer's place in its frame and no more. -/
theorem unknownFrameChangesNothing : Obligations.UnknownFrameChangesNothing := by
  intro s c data rest hfg hagenda hdecode
  exact ⟨_, step_of_undecoded_frame hfg hagenda hdecode, rfl, rfl, runUnknownFrame_onlyPeerAndWire rfl⟩

/-! ### SRC (44 R191, R197) -/

/-- Every cell of a peer in its reset state is 0 (44 R197). -/
theorem Peer.softReset_stored (p : Params) (c : Peer) (i : CellId) : (c.softReset p).stored i = 0#8 := rfl

/-- Bank 0 is selected where every cell is 0 (44 R181). -/
theorem Peer.bank_of_stored_zero {p : Params} {c : Peer} (h : ∀ i, c.stored i = 0#8) : c.bank p = 0#2 := by
  rw [Peer.bank, h, BitVec.zero_and, BitVec.setWidth_zero]

/-- Settles O57: `softReset` writes each field of R197 and keeps the others. -/
theorem srcResetsThePeer : Obligations.SrcResetsThePeer := by
  intro data s
  obtain ⟨t, hexec, hwire, honly, hpeer⟩ :=
    peerFrame_zeroAnswers s.params.opcSrc data (s.peer.softReset s.params) s
  have hzero : ∀ c, t.peer.stored c = 0#8 := fun c => by
    rw [hpeer, Peer.stored_withFrame, Peer.softReset_stored]
  refine ⟨t, hexec, hwire, honly, hzero, Peer.bank_of_stored_zero hzero, ?_⟩
  rw [hpeer]
  exact ⟨rfl, rfl, rfl, rfl, rfl, rfl, rfl, rfl, rfl, rfl, rfl⟩

/-! ### WCR (44 R186) -/

/-- With no bit to keep, the byte written is the byte stored. -/
theorem writeExcept_zero (old v : Byte) : writeExcept 0#8 old v = v := by
  rw [writeExcept, BitVec.and_zero, BitVec.zero_or, BitVec.not_zero, BitVec.and_allOnes]

/-- A write to a common cell selects the bank it writes, if the cell is `A_ECON1`'s and has none of the peer's own bits
(44 R181, R186). -/
theorem Peer.writeCell_bank {p : Params} {c : Peer} {o v : Byte} (hcommon : p.commonLo ≤ o.toNat)
    (hecon1 : o = p.aEcon1.off) (hcount : reaches p (c.bank p) o p.aEpktcnt = false) (hown : c.ownBits p o = 0#8) :
    (c.writeCell p o v).bank p = (v &&& p.mBsel).setWidth 2 := by
  have hcell : econ1Cell p = cellOf p (c.bank p) o := by rw [cellOf, if_pos hcommon, hecon1, econ1Cell]
  rw [Peer.bank, Peer.writeCell_stored, if_pos ⟨hcell, hcount⟩, hown, writeExcept_zero]

/-- Settles O51: of the data bytes the first is written, by `writeCell`; the cells are read back by `writeCell_stored`. -/
theorem wcrWritesOneCell : Obligations.WcrWritesOneCell := by
  rintro o own d more s p bank rfl rfl hown
  obtain ⟨t, hexec, hwire, honly, hpeer⟩ :=
    peerFrame_zeroAnswers (commandByte s.params.opcWcr o) (d :: more) (s.peer.writeCell s.params o d) s
  have hown : s.peer.ownBits s.params o = own := hown.symm
  have hstored : ∀ c, t.peer.stored c = (s.peer.writeCell s.params o d).stored c := fun c => by
    rw [hpeer, Peer.stored_withFrame]
  have hcells : t.peer = ({ s.peer with cells := t.peer.cells } : Peer).withFrame .outside := by
    rw [hpeer, Peer.writeCell_cells]; rfl
  refine ⟨t, hexec, hwire, honly, ?_, by rw [hcells]; rfl, by rw [hcells]; rfl, fun c hc => ?_, ?_,
    fun hcommon hecon1 hcount hfree => ?_⟩
  · rw [hcells]; constructor <;> rfl
  · rw [hstored, Peer.writeCell_stored, if_neg fun h => hc h.1]
  · rw [hstored, Peer.writeCell_stored, hown]
    cases reaches s.params (s.peer.bank s.params) o s.params.aEpktcnt with
    | true => rw [if_neg fun h => Bool.noConfusion h.2, if_pos rfl]
    | false => rw [if_pos ⟨rfl, rfl⟩, if_neg Bool.false_ne_true, writeExcept]
  · rw [hpeer, Peer.bank_withFrame, Peer.writeCell_bank hcommon hecon1 hcount (hown.trans hfree)]

/-! ### WBM (44 R190) -/

/-- The data bytes of one WBM frame, each staged at the write pointer. -/
def Peer.stageAll (p : Params) (c : Peer) (data : List Byte) : Peer := data.foldl (fun c d => c.stage p d) c

theorem execWbm_eq (data : List Byte) (s : State) :
    exec (.wbm data) s = peerFrame s.params.opcWbm data (zeroAnswers data) (s.peer.stageAll s.params data) s := rfl

theorem Peer.stageAll_nil (p : Params) (c : Peer) : c.stageAll p [] = c := rfl

theorem Peer.stageAll_concat (p : Params) (c : Peer) (data : List Byte) (d : Byte) :
    c.stageAll p (data ++ [d]) = (c.stageAll p data).stage p d := List.foldl_concat ..

theorem Peer.stage_bufByte (p : Params) (c : Peer) (d : Byte) (a : Nat) :
    (c.stage p d).bufByte a = if a = c.wrpt then d else c.bufByte a := bufByte_write c.buf c.wrpt a d

/-- Staging changes the buffer memory and the write pointer alone. -/
theorem Peer.stageAll_frame (p : Params) (c : Peer) (data : List Byte) :
    ∃ m w, c.stageAll p data = { c with buf := m, wrpt := w } := by
  induction data using List.reverseRecOn with
  | nil => exact ⟨c.buf, c.wrpt, rfl⟩
  | append_singleton data d ih =>
    obtain ⟨m, w, h⟩ := ih
    exact ⟨_, _, by rw [Peer.stageAll_concat, h, Peer.stage]⟩

theorem Peer.stageAll_wrpt {p : Params} {c : Peer} (hw : c.wrpt < p.bufSize) (data : List Byte) :
    (c.stageAll p data).wrpt = (c.wrpt + data.length) % p.bufSize := by
  induction data using List.reverseRecOn with
  | nil => exact (Nat.mod_eq_of_lt hw).symm
  | append_singleton data d ih =>
    calc (c.stageAll p (data ++ [d])).wrpt
        = ((c.stageAll p data).wrpt + 1) % p.bufSize := by rw [Peer.stageAll_concat]; rfl
      _ = (c.wrpt + (data ++ [d]).length) % p.bufSize := by
        rw [ih, Nat.mod_add_mod, List.length_append, List.length_singleton, Nat.add_assoc]

/-- The bytes after one more data byte: it lies `data.length` places past the first. -/
theorem Peer.stageAll_concat_bufByte {p : Params} {c : Peer} (hw : c.wrpt < p.bufSize) (data : List Byte) (d : Byte)
    (a : Nat) : (c.stageAll p (data ++ [d])).bufByte a
      = if a = (c.wrpt + data.length) % p.bufSize then d else (c.stageAll p data).bufByte a := by
  rw [Peer.stageAll_concat, Peer.stage_bufByte, Peer.stageAll_wrpt hw]

/-- A byte at which no data byte is staged stays. -/
theorem Peer.stageAll_bufByte_outside {p : Params} {c : Peer} (hw : c.wrpt < p.bufSize) {a : Nat} {data : List Byte}
    (ha : ∀ k, k < data.length → a ≠ (c.wrpt + k) % p.bufSize) : (c.stageAll p data).bufByte a = c.bufByte a := by
  induction data using List.reverseRecOn with
  | nil => rfl
  | append_singleton data d ih =>
    rw [List.length_append, List.length_singleton] at ha
    rw [Peer.stageAll_concat_bufByte hw, if_neg (ha _ (Nat.lt_succ_self _))]
    exact ih fun k hk => ha k (Nat.lt_succ_of_lt hk)

/-- Two places of the buffer memory less than BUF_SIZE apart are distinct. -/
theorem add_mod_ne_of_lt {w k n size : Nat} (hlt : k < n) (hnear : n < k + size) : (w + k) % size ≠ (w + n) % size := by
  intro h
  have hdiff : (n - k) % size = 0 := by
    rw [show n - k = w + n - (w + k) by omega]
    exact Nat.sub_mod_eq_zero_of_mod_eq h.symm
  rw [Nat.mod_eq_of_lt (by omega)] at hdiff
  omega

/-- One of the last BUF_SIZE data bytes is found where it was staged: what comes after it has not wrapped round to it. -/
theorem Peer.stageAll_bufByte_staged {p : Params} {c : Peer} (hw : c.wrpt < p.bufSize) {k : Nat} {b : Byte}
    {data : List Byte} (hb : data[k]? = some b) (hlast : data.length ≤ k + p.bufSize) :
    (c.stageAll p data).bufByte ((c.wrpt + k) % p.bufSize) = b := by
  induction data using List.reverseRecOn with
  | nil => cases hb
  | append_singleton data d ih =>
    rw [List.length_append, List.length_singleton] at hlast
    rw [Peer.stageAll_concat_bufByte hw]
    obtain hlt | rfl | hgt := Nat.lt_trichotomy k data.length
    · rw [if_neg (add_mod_ne_of_lt hlt (by omega))]
      rw [List.getElem?_append_left hlt] at hb
      exact ih hb (by omega)
    · rw [if_pos rfl]
      exact Option.some.inj ((List.getElem?_concat_length ..).symm.trans hb)
    · rw [List.getElem?_eq_none (by simpa using hgt)] at hb
      cases hb

/-- Settles O56: the frame stages its data bytes one after the other, `stageAll`. -/
theorem wbmStagesAtTheWritePointer : Obligations.WbmStagesAtTheWritePointer := by
  intro data s _ hinv
  obtain ⟨t, hexec, hwire, honly, hpeer⟩ :=
    peerFrame_zeroAnswers s.params.opcWbm data (s.peer.stageAll s.params data) s
  obtain ⟨m, w, hframe⟩ := s.peer.stageAll_frame s.params data
  have hkept : t.peer = ({ s.peer with buf := m, wrpt := w } : Peer).withFrame .outside := by rw [hpeer, hframe]
  have hbyte : ∀ a, t.peer.bufByte a = (s.peer.stageAll s.params data).bufByte a := fun a => by rw [hpeer]; rfl
  refine ⟨t, (execWbm_eq data s).trans hexec, hwire, ?_, honly, ?_, by rw [hkept]; rfl, by rw [hkept]; rfl,
    by rw [hkept]; rfl, fun k b hb hlast => ?_, fun a ha => ?_⟩
  · rw [hpeer]; exact Peer.stageAll_wrpt hinv.wrpt data
  · rw [hkept]; constructor <;> rfl
  · rw [hbyte, Peer.stageAll_bufByte_staged hinv.wrpt hb hlast]
  · rw [hbyte, Peer.stageAll_bufByte_outside hinv.wrpt ha]

end Sys2Proof.Machine
end

section
/-! PROOF. The encoding (30_encoding): what is encoded is read back, what is read is what was encoded, the order of the
decoder, the reserved command bytes and the unassigned selectors. -/

namespace Sys2Proof.Machine

/-! ### Encode, then decode (30_encoding R91 to R95, R98 to R100) -/

theorem Instr.operandsOk_of_wf {p : Params} {i : Instr} (h : i.wf p = true) : i.operandsOk p = true :=
  (Bool.and_eq_true_iff.1 h).1

/-- A frame is read as its command byte is. -/
theorem decode_frame {p : Params} {c : Byte} {cmd : WireCmd} (h : decodeCommand p c = cmd) (data : List Byte) :
    decode p (.frame (c :: data)) = cmd.withData data := by
  rw [← h]; rfl

/-- Settles O5, by cases on the instruction: a command byte is read back by the laws of the parameter set, the selector of a
call by computation. -/
theorem decodeOfEncodeIsTheInstruction : Obligations.DecodeOfEncodeIsTheInstruction := by
  intro p i hok hno hwf
  have hfits := Params.fits hok
  obtain ⟨hsrc, hrbm, hwbm⟩ := decodeCommand_full hfits
  have hreg {o : Byte} := decodeCommand_base (o := o) hfits hno
  have hop := Instr.operandsOk_of_wf hwf
  cases i with
  | rcr o d => exact decode_frame (hreg hop).1 d
  | wcr o d => exact decode_frame (hreg hop).2.1 d
  | bfs o d => exact decode_frame (hreg hop).2.2.1 d
  | bfc o d => exact decode_frame (hreg hop).2.2.2 d
  | rbm d => exact decode_frame hrbm d
  | wbm d => exact decode_frame hwbm d
  | src d => exact decode_frame hsrc d
  | _ => rfl

/-! ### Decode, then encode -/

/-- The two fields of a command byte put together again (30_encoding R91, R95). -/
theorem commandByte_of_fields {p : Params} {c opc : Byte} (h : c &&& p.opMask = opc) :
    commandByte opc (c &&& p.offMask) = c := by
  rw [commandByte, ← h, Params.opMask, or_fields]

/-- What a command byte is read as has that byte in its encoding. -/
theorem encode_of_decodeCommand {p : Params} {c : Byte} {data : List Byte} {i : Instr}
    (h : (decodeCommand p c).withData data = .ok i) : encode p i = .frame (c :: data) := by
  unfold decodeCommand at h
  split at h
  · rename_i hc; cases h; rw [hc]; rfl
  split at h
  · rename_i hc; cases h; rw [hc]; rfl
  split at h
  · rename_i hc; cases h; rw [hc]; rfl
  split at h
  · rename_i hc; cases h; rw [encode, commandByte_of_fields hc]
  split at h
  · rename_i hc; cases h; rw [encode, commandByte_of_fields hc]
  split at h
  · rename_i hc; cases h; rw [encode, commandByte_of_fields hc]
  split at h
  · rename_i hc; cases h; rw [encode, commandByte_of_fields hc]
  · cases h

/-- A selector is its number. -/
theorem call_of_toNat {sel k : BitVec 5} (h : sel.toNat = k.toNat) (args : List Arg) :
    Encoded.call k args = .call sel args := by
  rw [BitVec.eq_of_toNat_eq h]

/-- What a call is read as has that selector and those operands in its encoding: in each arm of the decoder the selector is
the arm's number and the operands are of the arm's form. -/
theorem encode_of_decodeCall (p : Params) {sel : BitVec 5} {args : List Arg} {i : Instr}
    (h : decodeCall sel args = .ok i) : encode p i = .call sel args := by
  unfold decodeCall at h
  split at h <;> rename_i hsel
  case h_22 => cases h
  all_goals
    split at h
    · cases h; exact call_of_toNat hsel _
    · cases h

/-- Settles O6: a frame and a call apart; the agent is read off the encoding. -/
theorem encodeOfDecodedIsTheWord : Obligations.EncodeOfDecodedIsTheWord := by
  intro p w i h
  have hword : encode p i = w := by
    cases w with
    | frame bytes =>
      cases bytes with
      | nil => cases h
      | cons c data => exact encode_of_decodeCommand h
    | call sel args => exact encode_of_decodeCall p h
  have hagent : (encode p i).agent = i.agent := by cases i <;> rfl
  exact ⟨hword, hword ▸ hagent⟩

/-! ### The order of the decoder (30_encoding R98) -/

/-- A byte that is none of the full command bytes is read by its opcode field. -/
theorem decodeCommand_of_not_full {p : Params} {c : Byte} (h : c ∉ p.fullBytes) : decodeCommand p c =
    if c &&& p.opMask = p.opcRcr then .rcr (c &&& p.offMask)
    else if c &&& p.opMask = p.opcWcr then .wcr (c &&& p.offMask)
    else if c &&& p.opMask = p.opcBfs then .bfs (c &&& p.offMask)
    else if c &&& p.opMask = p.opcBfc then .bfc (c &&& p.offMask)
    else .unknown := by
  simp only [Params.fullBytes, List.mem_cons, List.not_mem_nil, or_false, not_or] at h
  obtain ⟨hsrc, hrbm, hwbm⟩ := h
  rw [decodeCommand, if_neg hsrc, if_neg hrbm, if_neg hwbm]

/-- Settles O7: the frames of a log are the frames sent, each read on its own; and a frame is read by the tests of R98 in
their order, of which the ones before the one that fits have failed. -/
theorem fullCommandBytesAreReadFirst : Obligations.FullCommandBytesAreReadFirst := by
  refine ⟨fun p frames answers h => ?_, fun p c data hok => ?_⟩
  · rw [readLog, splitFrames_frames frames answers h]; rfl
  obtain ⟨hsrc, hrbm, hwbm⟩ := decodeCommand_full (Params.fits hok)
  have hfield := fun h => decodeCommand_of_not_full (p := p) (c := c) h
  refine ⟨?_, ?_, ?_, fun hc hb => ?_, fun hc hb => ?_, fun hc hb hb' => ?_, fun hc hb hb' => ?_, fun hc hb hb' => ?_⟩
  · rintro rfl; exact decode_frame hsrc data
  · rintro rfl; exact decode_frame hrbm data
  · rintro rfl; exact decode_frame hwbm data
  · refine decode_frame (cmd := .unknown) ?_ data
    simp only [Params.bases, List.mem_cons, List.not_mem_nil, or_false, not_or] at hb
    simp only [hfield hc, hb, if_false]
  · refine decode_frame (cmd := .rcr _) ?_ data
    rw [hfield hc, if_pos hb]
  · refine decode_frame (cmd := .wcr _) ?_ data
    rw [hfield hc, if_neg hb, if_pos hb']
  · refine decode_frame (cmd := .bfs _) ?_ data
    simp only [List.mem_cons, List.not_mem_nil, or_false, not_or] at hb
    rw [hfield hc, if_neg hb.1, if_neg hb.2, if_pos hb']
  · refine decode_frame (cmd := .bfc _) ?_ data
    simp only [List.mem_cons, List.not_mem_nil, or_false, not_or] at hb
    rw [hfield hc, if_neg hb.1, if_neg hb.2.1, if_neg hb.2.2, if_pos hb']

/-! ### The reserved command bytes and the table of selectors (30_encoding R96, R99) -/

/-- A frame is of no known command if its command byte is. -/
theorem decode_frame_unknown_iff {p : Params} {c : Byte} {data : List Byte} :
    decode p (.frame (c :: data)) = .error .unknownCommand ↔ decodeCommand p c = .unknown := by
  show (decodeCommand p c).withData data = _ ↔ _
  cases decodeCommand p c <;> simp [WireCmd.withData]

/-- Settles O8: of the 256 command bytes of P0, those the decoder knows no command for. -/
theorem reservedCommandBytesAreRefused : Obligations.ReservedCommandBytesAreRefused := by
  intro c data
  rw [decode_frame_unknown_iff]
  revert c
  decide

/-- Settles O9: each word is decoded by computation. -/
theorem wordsOfTheSpecDecode : Obligations.WordsOfTheSpecDecode :=
  ⟨rfl, rfl, rfl, rfl, rfl, rfl, rfl, rfl, rfl⟩

/-- The call with every operand zero decodes, for each assigned selector. -/
theorem decodeCall_zeroArgs (sel : BitVec 5) (h : sel.toNat ≤ 0x14) :
    ∃ i, decodeCall sel (zeroArgs sel) = .ok i ∧ i.agent = if sel = 0x03#5 then .irq else .fg := by
  have hall : ∀ sel : BitVec 5, sel.toNat ≤ 0x14 → (decodeCall sel (zeroArgs sel)).map Instr.agent
      = .ok (if sel = 0x03#5 then .irq else .fg) := by decide
  have hsel := hall sel h
  cases hd : decodeCall sel (zeroArgs sel) with
  | ok i => rw [hd] at hsel; exact ⟨i, rfl, Except.ok.inj hsel⟩
  | error e => rw [hd] at hsel; cases hsel

theorem decodeCall_unassigned {sel : BitVec 5} (h : 0x14 < sel.toNat) (args : List Arg) :
    decodeCall sel args = .error .unassignedSelector := by
  unfold decodeCall
  split
  case h_22 => rfl
  all_goals omega

/-- Settles O10: the table of selectors, read past its end and, with zero operands, up to it. -/
theorem unassignedSelectorsAreRefused : Obligations.UnassignedSelectorsAreRefused :=
  fun _ sel => ⟨fun h args => decodeCall_unassigned h args, fun h => ⟨zeroArgs sel, decodeCall_zeroArgs sel h⟩⟩

end Sys2Proof.Machine
end

section
/-! PROOF. The step (00_scope R7): what it does with each entry of the agenda, what pends of an event, and the parameters,
which no step changes. -/

namespace Sys2Proof.Machine

/-! ### The entry at the head of the agenda -/

theorem step_of_agenda {s : State} {it : Item} {rest : List Item} (hfg : s.fg = .running) (h : s.agenda = it :: rest) :
    step s = runItem it (s.setAgenda rest) := by
  simp only [step, runNext, hfg, h]

theorem step_of_hung {s : State} (h : s.fg = .hung) : step s = .next s := by
  simp only [step, runNext, h]

theorem step_of_no_agenda {s : State} (h : s.agenda = []) : step s = .next s := by
  cases hfg : s.fg <;> simp only [step, runNext, hfg, h]

theorem runEncoded_of_ok {s : State} {w : Encoded} {i : Instr} (h : decode s.params w = .ok i) (who : Agent) :
    runEncoded who w s = runInstr who i s := by
  simp only [runEncoded, h]

theorem runEncoded_call_of_error {s : State} {sel : BitVec 5} {args : List Arg} {e : DecodeError}
    (h : decode s.params (.call sel args) = .error e) (who : Agent) :
    runEncoded who (.call sel args) s = .refused (.undecodable e) := by
  simp only [runEncoded, h]

theorem runEncoded_frame_of_error {s : State} {bytes : List Byte} {e : DecodeError}
    (h : decode s.params (.frame bytes) = .error e) {who : Agent} (hwho : who ≠ .peer) :
    runEncoded who (.frame bytes) s = .refused .wrongContext := by
  simp only [runEncoded, h, if_neg hwho]

/-- The agent that may run an instruction runs it, with operands in range. -/
theorem runInstr_own {s : State} {i : Instr} (h : i.operandsOk s.params = true) : runInstr i.agent i s = exec i s := by
  rw [runInstr, if_neg (not_not.2 rfl), if_pos h]

/-- Settles O11: the entry decodes, its agent is the instruction's and its operands are in range, so nothing of the
sequencer is left before `exec`. -/
theorem stepRunsTheDecodedInstruction : Obligations.StepRunsTheDecodedInstruction := by
  intro s w i rest hfg hagenda hdecode hwf
  have hrun : step s = runEncoded i.agent w (s.setAgenda rest) := step_of_agenda hfg hagenda
  rw [hrun, runEncoded_of_ok (s := s.setAgenda rest) hdecode]
  exact runInstr_own (s := s.setAgenda rest) (Instr.operandsOk_of_wf hwf)

/-- Settles O12: each clause is the test of the sequencer that stops there. -/
theorem stepIdlesOrRefuses : Obligations.StepIdlesOrRefuses := by
  intro s
  have hrun : ∀ {who w rest}, s.fg = .running → s.agenda = .instr who w :: rest →
      step s = runEncoded who w (s.setAgenda rest) := step_of_agenda
  refine ⟨step_of_hung, step_of_no_agenda, fun who w i rest hfg hagenda hdecode hwho => ?_,
    fun who sel args e rest hfg hagenda hdecode => ?_, fun w i rest hfg hagenda hdecode hop => ?_,
    fun who bytes e rest hfg hagenda hwho hdecode => ?_⟩
  · rw [hrun hfg hagenda, runEncoded_of_ok (s := s.setAgenda rest) hdecode, runInstr, if_pos hwho]
  · rw [hrun hfg hagenda, runEncoded_call_of_error (s := s.setAgenda rest) hdecode]
  · rw [hrun hfg hagenda, runEncoded_of_ok (s := s.setAgenda rest) hdecode, runInstr, if_neg (not_not.2 rfl),
      State.setAgenda_params, hop, if_neg Bool.false_ne_true]
  · rw [hrun hfg hagenda, runEncoded_frame_of_error (s := s.setAgenda rest) hdecode hwho]

/-- Settles O14: ENV's action puts the notification at the end of the queue, the entry `deliver` takes the one at its
head. -/
theorem notificationsAreDeliveredInForeground : Obligations.NotificationsAreDeliveredInForeground := by
  intro s n rest ns hfg
  refine ⟨fun hagenda => ⟨_, step_of_agenda hfg hagenda, rfl, rfl⟩, fun hagenda hnotices => ?_⟩
  rw [step_of_agenda hfg hagenda]
  cases n <;> simp only [runItem, deliverNotice, State.setAgenda_notices, hnotices]

/-! ### The byte-ready event (60_exceptions R210) -/

theorem raiseByteReady_of_remembered {s : State} (h : s.spi.txIE = true ∨ s.irqMasked = true) :
    raiseByteReady s = s.setSpi { s.spi with byteReady := true } :=
  if_pos (Bool.or_eq_true_iff.2 h)

theorem raiseByteReady_of_not_remembered {s : State} (h : s.spi.txIE = false) (h' : s.irqMasked = false) :
    raiseByteReady s = s := by
  simp [raiseByteReady, h, h']

theorem irqEnabled_iff (s : State) :
    irqEnabled s = true ↔ s.spi.txIE = true ∧ s.spi.byteReady = true ∧ s.irqMasked = false := by
  simp [irqEnabled, and_assoc]

/-- `irqStep` run while not enabled does nothing (log 14). -/
theorem exec_irqStep_of_not_enabled {s : State} (h : irqEnabled s = false) : exec .irqStep s = .next s := by
  show execIrqStep s = _
  rw [execIrqStep, takeInterrupt, if_neg (h ▸ Bool.false_ne_true)]

/-- Settles O23: the event is a level that `raiseByteReady` sets where it is remembered; ENV's action touches no more than
that. -/
theorem byteReadyEventsPendOnlyWhileEnabledOrMasked : Obligations.ByteReadyEventsPendOnlyWhileEnabledOrMasked := by
  intro s rest hfg hagenda
  obtain ⟨henv, -, -⟩ := applyEvent_spec (s.setAgenda rest) .byteReady
  refine ⟨applyEvent (s.setAgenda rest) .byteReady, step_of_agenda hfg hagenda, fun h => ?_, fun h h' => ?_,
    irqEnabled_iff _, exec_irqStep_of_not_enabled, henv.bus, henv.txn, henv.ctl, henv.wire⟩
  · rw [applyEvent, raiseByteReady_of_remembered (s := s.setAgenda rest) h]; rfl
  · exact raiseByteReady_of_not_remembered (s := s.setAgenda rest) h h'

/-! ### Parameters and the other end of the wire (10_state R40) -/

/-- The induction over what a step can be: a relation between states that composes and holds of the agenda's own updates, of
an ENV action, of an instruction and of a frame of no known command holds of a step. -/
theorem step_induction {R : State → State → Prop} (refl : ∀ s, R s s) (trans : ∀ {s t u}, R s t → R t u → R s u)
    (agenda : ∀ s rest, R s (s.setAgenda rest)) (notices : ∀ s ns, R s (s.setNotices ns))
    (event : ∀ s e, R s (applyEvent s e)) (instr : ∀ {i s t}, exec i s = .next t → R s t)
    (frame : ∀ {bytes s t}, runUnknownFrame bytes s = .next t → R s t) {s t : State} (h : step s = .next t) : R s t := by
  obtain rfl | ⟨it, rest, -, -, rfl | ⟨e, -, rfl⟩ | ⟨i, ns, hi⟩ | ⟨bytes, -, hf⟩⟩ := step_cases h
  · exact refl _
  · exact agenda s rest
  · exact trans (agenda s rest) (event _ e)
  · exact trans (agenda s rest) (trans (notices _ ns) (instr hi))
  · exact trans (agenda s rest) (frame hf)

/-- What no step changes: the parameter set, and who answers on the wire. -/
def SameMachine (s t : State) : Prop := t.params = s.params ∧ t.wireEnd = s.wireEnd

theorem SameMachine.refl (s : State) : SameMachine s s := ⟨rfl, rfl⟩

theorem SameMachine.trans {s t u : State} (h : SameMachine s t) (h' : SameMachine t u) : SameMachine s u :=
  ⟨h'.1.trans h.1, h'.2.trans h.2⟩

theorem Kept.sameMachine {s t : State} (h : Kept s t) : SameMachine s t := ⟨h.params, h.wireEnd⟩

theorem KeptOrStuck.sameMachine {s t : State} (h : KeptOrStuck s t) : SameMachine s t := by
  obtain h | ⟨u, h, rfl⟩ := h <;> exact ⟨h.params, h.wireEnd⟩

theorem beginTransmit_sameMachine (buffer : Option Nat) (length : Nat) (s : State) :
    (beginTransmit buffer length s).All (SameMachine s) := by
  unfold beginTransmit
  cases buffer with
  | none => exact SameMachine.refl s
  | some a =>
    simp only
    split
    · exact SameMachine.refl s
    · by_cases hidle : s.bus = .idle
      · rw [claimBus_idle hidle]
        exact ((xchg_fetch_all _ _).imp fun _ h => h.kept.sameMachine).bind fun _ _ h => h
      · rw [claimBus_busy hidle]
        exact SameMachine.refl s

theorem irqBody_sameMachine (s : State) : SameMachine s (irqBody s) := by
  unfold irqBody
  split
  · exact (fetchByte_wireOnly _ s).kept.sameMachine.trans (clockByte_wireOnly _ _).kept.sameMachine
  · exact SameMachine.refl s

theorem takeInterrupt_sameMachine (s : State) : SameMachine s (takeInterrupt irqBody s) := by
  unfold takeInterrupt
  split
  · exact irqBody_sameMachine (s.setSpi _)
  · exact SameMachine.refl s

theorem exec_sameMachine {i : Instr} {s t : State} (h : exec i s = .next t) : SameMachine s t := by
  by_cases hb : ∃ a n, i = .beginTransmit a n
  · obtain ⟨a, n, rfl⟩ := hb
    obtain ⟨u, hu, ⟨c, rfl⟩ | rfl⟩ := (beginTransmit_sameMachine a n s).of_finish h <;> exact hu
  · by_cases hi : i = .irqStep
    · subst hi
      cases h
      exact takeInterrupt_sameMachine s
    · exact (exec_keptOrStuck (fun a n e => hb ⟨a, n, e⟩) hi h).sameMachine

/-- Settles O4, by cases on what a step can be: only `beginTransmit` and `irqStep` change more of the block than `Ctl`, and
neither this. -/
theorem stepNeverChangesTheParameters : Obligations.StepNeverChangesTheParameters := by
  intro s t h
  exact step_induction (R := SameMachine) SameMachine.refl SameMachine.trans (fun s _ => SameMachine.refl s)
    (fun s _ => SameMachine.refl s) (fun s e => ⟨(applyEvent_spec s e).1.params, (applyEvent_spec s e).1.wireEnd⟩)
    exec_sameMachine (fun hf => (runUnknownFrame_onlyPeerAndWire hf).kept.sameMachine) h

end Sys2Proof.Machine
end

section
/-! SUPPORT. A property of the state that ENV, a byte on the wire, the delimiters and the block's own updates keep, every
operation of the block keeps, returned or stuck. -/

namespace Sys2Proof.Machine

/-- What an operation of the block is made of keeps `P`; of the state it sees the parameters, host memory and the peer. -/
structure WireStable (P : State → Prop) : Prop where
  event : ∀ s e, P s → P (applyEvent s e)
  clock : ∀ s d, P s → P (clockByte d s)
  opened : ∀ s, P s → P (emitBegin s)
  closed : ∀ s, P s → P (emitEnd s)
  block : ∀ s t, t.params = s.params → t.hostMem = s.hostMem → t.peer = s.peer → P s → P t

namespace WireStable

variable {P : State → Prop} (hP : WireStable P) {s : State}
include hP

theorem events (es : List EnvEvent) (h : P s) : P (applyEvents es s) := by
  induction es generalizing s with
  | nil => exact h
  | cons e es ih => exact ih (hP.event s e h)

theorem awaitBus (plan : List (List EnvEvent)) (h : P s) : (awaitBus plan s).All P := by
  induction plan generalizing s with
  | nil =>
    unfold Machine.awaitBus
    split <;> exact hP.block s _ rfl rfl rfl h
  | cons es rest ih =>
    unfold Machine.awaitBus
    split
    · exact hP.block (applyEvents es s) _ rfl rfl rfl (hP.events es h)
    · exact ih (hP.events es h)

theorem xchg (d : Byte) (h : P s) : (xchg d s).All P :=
  (hP.awaitBus s.plan h).bind fun _ t ht => hP.clock t d ht

theorem exchangeByte (d : Byte) (h : P s) : (exchangeByte d s).All P := unlessTransmitting_all s (hP.xchg d h)

theorem exchangeAll (ds : List Byte) (h : P s) : (exchangeAll ds s).All P := by
  induction ds generalizing s with
  | nil => exact h
  | cons d ds ih => exact (hP.exchangeByte d h).bind fun _ _ ht => (ih ht).bind fun _ _ hu => hu

theorem frameBegin (h : P s) : (frameBegin s).All P := unlessTransmitting_all s (Flow.All.done () (hP.opened s h))

theorem frameEnd (h : P s) : (frameEnd s).All P := unlessTransmitting_all s (Flow.All.done () (hP.closed s h))

theorem framed (bytes : List Byte) (h : P s) : (framed bytes s).All P :=
  (hP.frameBegin h).bind fun _ _ ht => (hP.exchangeAll bytes ht).bind fun _ _ hu => (hP.frameEnd hu).bind fun _ _ hv => hv

theorem cmd2 (c d : Byte) (h : P s) : (cmd2 c d s).All P := (hP.framed [c, d] h).bind fun _ _ ht => ht

theorem setCtl (c : Ctl) (h : P s) : P (s.setCtl c) := hP.block s _ rfl rfl rfl h

theorem selectBank (a : RegisterAddress) (h : P s) : (selectBank a s).All P := by
  unfold Machine.selectBank
  cases a with
  | common o => exact h
  | banked b o =>
    simp only
    split
    · exact (hP.cmd2 _ _ h).bind fun _ _ ht => (hP.cmd2 _ _ ht).bind fun _ _ hu => hP.setCtl _ hu
    · exact h

theorem registerCommand (opc : Byte) (a : RegisterAddress) (d : Byte) (h : P s) : (registerCommand opc a d s).All P :=
  (hP.selectBank a h).bind fun _ _ ht => hP.cmd2 _ d ht

theorem readRegister (a : RegisterAddress) (h : P s) : (readRegister a s).All P := hP.registerCommand _ a _ h

theorem checkedCommand (refused : Bool) (opc : Byte) (a : RegisterAddress) (d : Byte) (h : P s) :
    (checkedCommand refused opc a d s).All P := by
  unfold Machine.checkedCommand
  split
  · trivial
  · exact (hP.registerCommand opc a d h).bind fun _ _ ht => ht

theorem pollReady (n : Nat) (h : P s) : (pollReady n s).All P := by
  induction n generalizing s with
  | zero => exact h
  | succ n ih =>
    refine (hP.readRegister _ h).bind fun v t ht => ?_
    split
    · exact ht
    · exact ih ht

theorem softReset (h : P s) : (softReset s).All P :=
  have hsrc : (cmd1 s.params.opcSrc s).All P := (hP.framed _ h).bind fun _ _ ht => ht
  hsrc.bind fun _ _ ht => hP.pollReady _ (hP.setCtl _ ht)

theorem writePacket (q : Option (List Byte)) (h : P s) : (writePacket q s).All P := by
  unfold Machine.writePacket
  split
  · exact h
  · split
    · exact h
    · exact (hP.framed _ h).bind fun _ _ ht => ht

theorem readPayload (len n : Nat) (h : P s) : (readPayload len n s).All P := by
  unfold Machine.readPayload
  split
  · exact h
  · exact (hP.framed _ h).bind fun _ _ ht => ht

theorem readPacket (capacity : Nat) (h : P s) : (readPacket capacity s).All P := by
  refine (hP.readRegister _ h).bind fun cnt t ht => ?_
  split
  · exact ht
  · have hheader : (readHeader t).All P := (hP.framed _ ht).bind fun _ _ hu => hu
    exact hheader.bind fun _ _ hu => (hP.readPayload _ _ hu).bind fun _ _ hv => hv

theorem writeAll (ws : List (RegisterAddress × Byte)) (h : P s) : (writeAll ws s).All P := by
  induction ws generalizing s with
  | nil => exact h
  | cons w ws ih => exact (hP.checkedCommand _ _ w.1 w.2 h).bind fun _ _ ht => ih ht

theorem configure (mac : Six Byte) (h : P s) : (configure mac s).All P :=
  (hP.writeAll _ h).bind fun _ _ ht =>
    (hP.writeAll _ ht).bind fun _ _ hu => (hP.checkedCommand _ _ _ _ hu).bind fun _ _ hv => hP.setCtl _ hv

theorem bringUp (mac : Option (Six Byte)) (h : P s) : (bringUp mac s).All P := by
  unfold Machine.bringUp
  split
  · cases mac with
    | none => exact hP.setCtl _ h
    | some m =>
      refine (hP.softReset (hP.setCtl _ h)).bind fun r t ht => ?_
      split
      · exact hP.setCtl _ ht
      · exact hP.configure m ht
  · exact h

theorem send (q : Option (List Byte)) (h : P s) : (send q s).All P := by
  unfold Machine.send
  split
  · exact h
  · split
    · exact h
    · refine (hP.writePacket q h).bind fun r t ht => ?_
      split
      · exact ht
      · exact (hP.checkedCommand _ _ _ _ ht).bind fun _ _ hu => hP.setCtl _ hu

theorem fetchByte (a : Option Nat) (h : P s) : P (fetchByte a s).2 := by
  obtain ⟨k, hk⟩ := fetchByte_draw a s
  rw [hk]
  exact hP.block s _ rfl rfl rfl h

theorem acceptTransmit (a n : Nat) (h : P s) : (acceptTransmit a n s).All P := by
  have hclaimed : P (s.setTxn { buffer := some a, length := n, cursor := 0 }) := hP.block s _ rfl rfl rfl h
  refine (hP.xchg _ (hP.fetchByte _ hclaimed)).bind fun _ t ht => ?_
  exact hP.block t _ rfl rfl rfl ht

theorem beginTransmit (b : Option Nat) (n : Nat) (h : P s) : (beginTransmit b n s).All P := by
  unfold Machine.beginTransmit
  cases b with
  | none => exact h
  | some a =>
    simp only
    split
    · exact h
    · by_cases hidle : s.bus = .idle
      · rw [claimBus_idle hidle]
        exact hP.acceptTransmit a n (hP.block s _ rfl rfl rfl h)
      · rw [claimBus_busy hidle]
        exact hP.block s _ rfl rfl rfl h

theorem irqBody (h : P s) : P (irqBody s) := by
  unfold Machine.irqBody
  split
  · exact hP.block (clockByte _ _) _ rfl rfl rfl (hP.clock _ _ (hP.fetchByte _ h))
  · exact hP.block s _ rfl rfl rfl h

theorem takeInterrupt (h : P s) : P (takeInterrupt Machine.irqBody s) := by
  unfold Machine.takeInterrupt
  split
  · exact hP.irqBody (hP.block s _ rfl rfl rfl h)
  · exact h

/-- A flow that keeps `P` ends in a state with `P`. -/
theorem finish {α : Type} {f : Flow α} {reply : α → Reply} {t : State} (hf : f.All P) (h : f.finish reply = .next t) :
    P t := by
  obtain ⟨u, hu, ⟨a, rfl⟩ | rfl⟩ := hf.of_finish h <;> exact hP.block u _ rfl rfl rfl hu

/-- Every instruction of the block keeps `P`. -/
theorem exec {i : Instr} {t : State} (hi : i.agent ≠ .peer) (hs : P s) (h : exec i s = .next t) : P t := by
  cases i with
  | rcr | rbm | wcr | wbm | bfs | bfc | src => exact absurd rfl hi
  | exchangeByte d => exact hP.finish (hP.exchangeByte d hs) h
  | beginTransmit b n => exact hP.finish (hP.beginTransmit b n hs) h
  | isBusy => cases h; exact hP.block s _ rfl rfl rfl hs
  | irqStep => cases h; exact hP.takeInterrupt hs
  | frameBegin => exact hP.finish (hP.frameBegin hs) h
  | frameEnd => exact hP.finish (hP.frameEnd hs) h
  | selectBank a => exact hP.finish (hP.selectBank a hs) h
  | readRegister a => exact hP.finish (hP.readRegister a hs) h
  | writeRegister a v => exact hP.finish (hP.checkedCommand _ _ a v hs) h
  | setBits a m => exact hP.finish (hP.checkedCommand _ _ a m hs) h
  | clearBits a m => exact hP.finish (hP.checkedCommand _ _ a m hs) h
  | softReset => exact hP.finish (hP.softReset hs) h
  | writePacket q => exact hP.finish (hP.writePacket q hs) h
  | readPacket n => exact hP.finish (hP.readPacket n hs) h
  | initializeOp m => exact hP.finish (hP.bringUp m hs) h
  | send q => exact hP.finish (hP.send q hs) h
  | receive n =>
    change execReceive n s = _ at h
    unfold execReceive at h
    split at h
    · exact hP.finish (hP.readPacket n hs) h
    · cases h; exact hP.block s _ rfl rfl rfl hs
  | pollLinkUp =>
    change execPollLinkUp s = _ at h
    unfold execPollLinkUp at h
    split at h
    · cases h; exact hP.block s _ rfl rfl rfl hs
    · exact hP.finish (hP.readRegister _ hs) h
  | supIsBusy => cases h; exact hP.block s _ rfl rfl rfl hs
  | txComplete =>
    cases h
    split <;> exact hP.block s _ rfl rfl rfl hs
  | hardwareFault =>
    cases h
    split <;> exact hP.block s _ rfl rfl rfl hs

end WireStable

end Sys2Proof.Machine
end

section
/-! PROOF. The invariant of every step: the canonical memories and the peer's pointers (44 R181, R182, R183), kept by all that
reaches the peer; and I-BE1 to I-BE3 (10_state R27), kept by the block. -/

namespace Sys2Proof.Machine

/-! ### The reference peer's memories and pointers -/

/-- Cells and buffer memory in canonical form, the three pointers in the buffer memory. -/
def Peer.Sound (p : Params) (c : Peer) : Prop :=
  Memory.wf .controller c.cells = true ∧ Memory.wf .controller c.buf = true
    ∧ c.rdpt < p.bufSize ∧ c.wrpt < p.bufSize ∧ c.rxw < p.bufSize

namespace Peer.Sound

variable {p : Params} {c : Peer}

theorem writeCell (h : c.Sound p) (o v : Byte) : (c.writeCell p o v).Sound p := by
  obtain ⟨hcells, hrest⟩ := h
  unfold Peer.writeCell
  split
  · exact ⟨hcells, hrest⟩
  · exact ⟨Memory.wf_write _ _ _ _ hcells, hrest⟩

theorem setCell (h : c.Sound p) (free : List Byte) (o m : Byte) : (c.setCell p free o m).Sound p := by
  rw [Peer.setCell_eq]
  exact h.writeCell o _

theorem clearCell (h : c.Sound p) (o m : Byte) : (c.clearCell p o m).Sound p := h.writeCell o _

theorem countPoll (h : c.Sound p) (o : Byte) : (c.countPoll p o).Sound p := by
  unfold Peer.countPoll
  split <;> exact h

theorem release (h : c.Sound p) : c.release.Sound p := by
  unfold Peer.release
  split
  · exact h
  · split <;> exact h

theorem advanceRead (hp : p.Fits) (h : c.Sound p) : (c.advanceRead p).Sound p := by
  obtain ⟨hcells, hbuf, -, hrest⟩ := h
  have hmoved : ∀ e, Peer.Sound p { c with rdpt := (c.rdpt + 1) % p.bufSize, eaten := e } := fun e =>
    ⟨hcells, hbuf, Nat.mod_lt _ hp.bufSize_pos, hrest⟩
  unfold Peer.advanceRead
  simp only
  split
  · exact hmoved _
  · exact (hmoved _).release

theorem stage (hp : p.Fits) (h : c.Sound p) (d : Byte) : (c.stage p d).Sound p := by
  obtain ⟨hcells, hbuf, hrdpt, -, hrxw⟩ := h
  exact ⟨hcells, Memory.wf_write _ _ _ _ hbuf, hrdpt, Nat.mod_lt _ hp.bufSize_pos, hrxw⟩

theorem softReset (hp : p.Fits) (h : c.Sound p) : (c.softReset p).Sound p :=
  ⟨Memory.wf_nil _, h.2.1, hp.bufSize_pos, hp.txBase, hp.bufSize_pos⟩

theorem txDone (hp : p.Fits) (h : c.Sound p) : (c.txDone p).Sound p := by
  obtain ⟨hcells, hbuf, hrdpt, -, hrxw⟩ := h
  exact ⟨Memory.wf_write _ _ _ _ hcells, hbuf, hrdpt, hp.txBase, hrxw⟩

theorem storeReceived (hp : p.Fits) (bs : List Byte) (h : c.Sound p) : (Peer.storeReceived p bs c).Sound p := by
  induction bs generalizing c with
  | nil => exact h
  | cons b bs ih =>
    obtain ⟨hcells, hbuf, hrdpt, hwrpt, -⟩ := h
    exact ih ⟨hcells, Memory.wf_write _ _ _ _ hbuf, hrdpt, hwrpt, Nat.mod_lt _ hp.bufSize_pos⟩

theorem deliver (hp : p.Fits) (packet : List Byte) (h : c.Sound p) : (c.deliver p packet).Sound p := by
  unfold Peer.deliver
  split
  · exact h.storeReceived hp _
  · exact h

theorem dataByte (hp : p.Fits) (h : c.Sound p) (free : List Byte) (cmd : WireCmd) (first : Bool) (d : Byte) :
    (c.dataByte p free cmd first d).2.Sound p := by
  cases cmd with
  | rcr o => exact h.countPoll o
  | rbm => exact h.advanceRead hp
  | wcr o => cases first; exacts [h, h.writeCell o d]
  | wbm => exact h.stage hp d
  | bfs o => cases first; exacts [h, h.setCell free o d]
  | bfc o => cases first; exacts [h, h.clearCell o d]
  | src => exact h
  | unknown => exact h

theorem dataBytes (hp : p.Fits) (h : c.Sound p) (cmd : WireCmd) (n : Nat) (first : Bool) (ds : List Byte) :
    (c.dataBytes p cmd n first ds).2.Sound p := by
  induction ds generalizing c n first with
  | nil => exact h
  | cons d ds ih => exact ih (h.dataByte hp _ cmd first d) (n + 1) false

theorem onByte (hp : p.Fits) (h : c.Sound p) (free : List Byte) (d : Byte) : (c.onByte p free d).2.Sound p := by
  unfold Peer.onByte
  split
  · exact h
  · exact h
  · exact h.dataByte hp free _ _ d

theorem onEnd (hp : p.Fits) (h : c.Sound p) : (c.onEnd p).Sound p := by
  unfold Peer.onEnd
  split
  · have hreset : (c.softReset p).Sound p := h.softReset hp
    exact hreset
  · exact h

end Peer.Sound

/-! ### Host memory and the peer, through every step -/

/-- The part of the invariant that ENV and the wire could break. -/
def Sound (s : State) : Prop := s.params.Fits ∧ Memory.wf .host s.hostMem = true ∧ s.peer.Sound s.params

theorem Sound.setPeer {s : State} (h : Sound s) {c : Peer} (hc : c.Sound s.params) : Sound (s.setPeer c) :=
  ⟨h.1, h.2.1, hc⟩

theorem Sound.applyEvent {s : State} (h : Sound s) (e : EnvEvent) : Sound (applyEvent s e) := by
  obtain ⟨hp, hhost, hpeer⟩ := h
  cases e with
  | byteReady =>
    unfold Machine.applyEvent raiseByteReady
    simp only
    split <;> exact ⟨hp, hhost, hpeer⟩
  | peerTxDone =>
    unfold Machine.applyEvent peerTxDone
    simp only
    split
    · exact ⟨hp, hhost, hpeer.txDone hp⟩
    · exact ⟨hp, hhost, hpeer⟩
  | peerDeliver packet => exact ⟨hp, hhost, hpeer.deliver hp packet⟩
  | hostStore a b => exact ⟨hp, Memory.wf_write _ _ a b hhost, hpeer⟩
  | hostFree a n => exact ⟨hp, Memory.wf_free _ a n _ hhost, hpeer⟩
  | busStuck | busResponds | setLink _ | setReadyDelay _ | notify _ => exact ⟨hp, hhost, hpeer⟩

theorem Sound.stable : WireStable Sound where
  event _ e h := h.applyEvent e
  clock s d h := by
    unfold clockByte wireEndAfter
    cases s.wireEnd
    · exact h.setPeer (h.2.2.onByte h.1 _ d)
    · exact h
  opened s h := by
    unfold emitBegin
    cases s.wireEnd <;> exact h
  closed s h := by
    unfold emitEnd
    cases s.wireEnd
    · exact h.setPeer (h.2.2.onEnd h.1)
    · exact h
  block s t hparams hhost hpeer h := by
    unfold Sound
    rw [hparams, hhost, hpeer]
    exact h

theorem Sound.peerFrame {s t : State} (h : Sound s) {c : Byte} {data answers : List Byte} {after : Peer}
    (hafter : after.Sound s.params) (ht : peerFrame c data answers after s = .next t) : Sound t := by
  cases ht
  exact h.setPeer hafter

/-- The seven wire commands (44 R185 to R191), each by what its data bytes do. -/
theorem Sound.exec {i : Instr} {s t : State} (h : Sound s) (ht : exec i s = .next t) : Sound t := by
  obtain ⟨hp, -, hpeer⟩ := id h
  cases i with
  | rcr o d =>
    refine h.peerFrame ?_ ht
    rw [← Peer.dataBytes_rcr s.params o 0 true]
    exact hpeer.dataBytes hp _ _ _ d
  | rbm d =>
    refine h.peerFrame ?_ ht
    rw [← Peer.dataBytes_rbm s.params 0 true]
    exact hpeer.dataBytes hp _ _ _ d
  | wbm d =>
    have hstaged := hpeer.dataBytes hp .wbm 0 true d
    rw [Peer.dataBytes_wbm] at hstaged
    exact h.peerFrame hstaged ht
  | wcr o d => cases d; exacts [h.peerFrame hpeer ht, h.peerFrame (hpeer.writeCell o _) ht]
  | bfs o d => cases d; exacts [h.peerFrame hpeer ht, h.peerFrame (hpeer.setCell _ o _) ht]
  | bfc o d => cases d; exacts [h.peerFrame hpeer ht, h.peerFrame (hpeer.clearCell o _) ht]
  | src d => exact h.peerFrame (hpeer.softReset hp) ht
  | _ => exact Sound.stable.exec (fun e => by cases e) h ht

theorem Sound.step {s t : State} (h : Sound s) (ht : step s = .next t) : Sound t := by
  refine step_induction (R := fun s t => Sound s → Sound t) (fun _ h => h) (fun f g h => g (f h)) (fun _ _ h => h)
    (fun _ _ h => h) (fun _ e h => h.applyEvent e) (fun hi h => h.exec hi) (fun hf h => ?_) ht h
  cases hf
  exact h

/-! ### The block's invariant (10_state R27) -/

namespace BusInv

variable {s t : State}

/-- The invariant sees of a state `BusState`, the transaction, TxIE, the mask and where FG stands; FG getting stuck only
weakens it. -/
theorem congr (h : BusInv s) (hbus : t.bus = s.bus) (htxn : t.txn = s.txn) (hie : t.spi.txIE = s.spi.txIE)
    (hmask : t.irqMasked = s.irqMasked) (hfg : t.fg = .running → s.fg = .running) : BusInv t where
  be1 := by rw [hbus, hie]; exact h.be1
  be2 := by
    rw [hbus, htxn]
    intro hb
    obtain ⟨hbuf, hlen, hle, hcur⟩ := h.be2 hb
    exact ⟨hbuf, hlen, hle, fun hr => hcur (hfg hr)⟩
  be3 := by rw [hbus, htxn, hie]; exact h.be3
  unmasked := by rw [hmask]; exact h.unmasked

theorem keptOrStuck (h : BusInv s) (hk : KeptOrStuck s t) : BusInv t := by
  obtain hk | ⟨u, hk, rfl⟩ := hk
  · exact h.congr hk.bus hk.txn hk.txIE hk.irqMasked fun hr => hk.fg ▸ hr
  · exact h.congr hk.bus hk.txn hk.txIE hk.irqMasked nofun

theorem event (h : BusInv s) (e : EnvEvent) : BusInv (applyEvent s e) :=
  have henv := (applyEvent_spec s e).1
  h.congr henv.bus henv.txn henv.txIE henv.irqMasked fun hr => henv.fg ▸ hr

end BusInv

/-- An accepted transmit (40 R115), returned: the transaction with its first byte sent, the notification enabled; stuck: the
cursor still at 0, the notification not enabled. -/
theorem acceptTransmit_cases {a n : Nat} {s t : State} (h : (acceptTransmit a n s).finish codeReply = .next t) :
    t.bus = s.bus ∧ t.irqMasked = s.irqMasked ∧ t.ctl = s.ctl
      ∧ ((t.txn = { buffer := some a, length := n, cursor := 1 } ∧ t.spi.txIE = true ∧ t.fg = s.fg
          ∧ t.replies = s.replies ++ [.ok])
        ∨ (t.txn = { buffer := some a, length := n, cursor := 0 } ∧ t.spi.txIE = s.spi.txIE ∧ t.fg = .hung
          ∧ t.replies = s.replies)) := by
  unfold acceptTransmit at h
  simp only at h
  have hall := xchg_fetch_all (txnAddress (s.setTxn { buffer := some a, length := n, cursor := 0 }))
    (s.setTxn { buffer := some a, length := n, cursor := 0 })
  revert hall h
  generalize xchg _ _ = f
  intro h hall
  cases f with
  | done r u =>
    cases h
    have hk : WireOnly _ u := hall
    exact ⟨hk.kept.bus, hk.kept.irqMasked, hk.ctl,
      .inl ⟨by simp [hk.kept.txn], rfl, hk.kept.fg, hk.bankOnly.replies_addReply _⟩⟩
  | hang u =>
    cases h
    have hk : WireOnly _ u := hall
    exact ⟨hk.kept.bus, hk.kept.irqMasked, hk.ctl, .inr ⟨hk.kept.txn, hk.kept.txIE, rfl, hk.replies⟩⟩
  | fault e => cases h

/-- What a `beginTransmit` can be (40 R113 to R115): refused, which changes nothing but the results; or accepted, from
Idle. -/
theorem exec_beginTransmit_cases {b : Option Nat} {n : Nat} {s t : State} (h : exec (.beginTransmit b n) s = .next t) :
    t = s.addReply (.err .invalidArgument) ∨ t = (s.setMask false).addReply (.err .busy)
      ∨ ∃ a, b = some a ∧ n ≠ 0 ∧ s.bus = .idle
        ∧ (acceptTransmit a n ((s.setBus .txBusy).setMask false)).finish codeReply = .next t := by
  by_cases hvalid : b = none ∨ n = 0
  · rw [beginTransmitChecksItsArgumentFirst b n s hvalid] at h
    cases h
    exact .inl rfl
  · obtain ⟨hb, hn⟩ := not_or.1 hvalid
    obtain ⟨a, rfl⟩ := Option.ne_none_iff_exists'.1 hb
    by_cases hidle : s.bus = .idle
    · rw [exec_beginTransmit_of_idle hidle a hn] at h
      exact .inr (.inr ⟨a, rfl, hn, hidle, h⟩)
    · rw [exec_beginTransmit_of_ne_idle hidle a hn] at h
      cases h
      exact .inr (.inl rfl)

theorem BusInv.beginTransmit {b : Option Nat} {n : Nat} {s t : State} (h : BusInv s)
    (ht : exec (.beginTransmit b n) s = .next t) : BusInv t := by
  obtain rfl | rfl | ⟨a, -, hn, hidle, haccept⟩ := exec_beginTransmit_cases ht
  · exact h.congr rfl rfl rfl rfl id
  · exact h.congr rfl rfl rfl h.unmasked.symm id
  · obtain ⟨hbus, hmask, -, ⟨htxn, hie, -⟩ | ⟨htxn, hie, hfg, -⟩⟩ := acceptTransmit_cases haccept
    · exact ⟨fun _ => hbus, fun _ => by simp [htxn]; omega, fun hb => by simp [hbus] at hb, hmask⟩
    · refine ⟨fun hie' => ?_, fun _ => ?_, fun hb => by simp [hbus] at hb, hmask⟩
      · exact hbus
      · simp [htxn, hfg]; omega

/-- An enabled `irqStep` in a transaction: the next byte is sent and the cursor moved, or the transaction is complete
(40 R117). -/
theorem exec_irqStep_cases {s t : State} (h : exec .irqStep s = .next t) :
    t = s ∨ irqEnabled s = true ∧ t.irqMasked = s.irqMasked ∧
      ((s.txn.cursor < s.txn.length ∧ t.txn = { s.txn with cursor := s.txn.cursor + 1 } ∧ t.bus = s.bus
          ∧ t.spi.txIE = s.spi.txIE ∧ t.fg = s.fg)
        ∨ (s.txn.length ≤ s.txn.cursor ∧ t.txn = { s.txn with cursor := 0 } ∧ t.bus = .idle ∧ t.spi.txIE = false)) := by
  by_cases hen : irqEnabled s = true
  · obtain ⟨hsend, hfinish⟩ := irqStepSendsTheNextByteOrFinishes s
    by_cases hlt : s.txn.cursor < s.txn.length
    · obtain ⟨b, r, u, hu, -, -, htxn, -, -, -, -, hbus, hie, hfg, hmask, -⟩ := hsend hen hlt
      cases hu.symm.trans h
      exact .inr ⟨hen, hmask, .inl ⟨hlt, htxn, hbus, hie, hfg⟩⟩
    · cases (hfinish hen (Nat.le_of_not_lt hlt)).symm.trans h
      exact .inr ⟨hen, rfl, .inr ⟨Nat.le_of_not_lt hlt, rfl, rfl, rfl⟩⟩
  · rw [exec_irqStep_of_not_enabled (Bool.eq_false_iff.2 hen)] at h
    cases h
    exact .inl rfl

theorem BusInv.irqStep {s t : State} (h : BusInv s) (ht : exec .irqStep s = .next t) : BusInv t := by
  obtain rfl | ⟨hen, hmask, ⟨hlt, htxn, hbus, hie, hfg⟩ | ⟨hle, htxn, hbus, hie⟩⟩ := exec_irqStep_cases ht
  · exact h
  · have hbusy : s.bus = .txBusy := h.be1 ((irqEnabled_iff s).1 hen).1
    obtain ⟨hbuf, hlen, -, -⟩ := h.be2 hbusy
    refine ⟨fun _ => hbus.trans hbusy, fun _ => ?_, fun hb => ?_, hmask.trans h.unmasked⟩
    · rw [htxn]
      exact ⟨hbuf, hlen, hlt, fun _ => Nat.succ_pos _⟩
    · rw [hbus, hbusy] at hb
      cases hb
  · refine ⟨fun hie' => ?_, fun hb => ?_, fun _ => ⟨hie, by rw [htxn]⟩, hmask.trans h.unmasked⟩
    · rw [hie] at hie'; cases hie'
    · rw [hbus] at hb; cases hb

theorem BusInv.exec {i : Instr} {s t : State} (h : BusInv s) (ht : exec i s = .next t) : BusInv t := by
  by_cases hb : ∃ a n, i = .beginTransmit a n
  · obtain ⟨a, n, rfl⟩ := hb
    exact h.beginTransmit ht
  · by_cases hi : i = .irqStep
    · subst hi
      exact h.irqStep ht
    · exact h.keptOrStuck (exec_keptOrStuck (fun a n e => hb ⟨a, n, e⟩) hi ht)

theorem BusInv.step {s t : State} (h : BusInv s) (ht : step s = .next t) : BusInv t :=
  step_induction (R := fun s t => BusInv s → BusInv t) (fun _ h => h) (fun f g h => g (f h))
    (fun _ _ h => h.congr rfl rfl rfl rfl id) (fun _ _ h => h.congr rfl rfl rfl rfl id) (fun _ e h => h.event e)
    (fun hi h => h.exec hi) (fun hf h => h.keptOrStuck (.inl (runUnknownFrame_onlyPeerAndWire hf).kept)) ht h

/-! ### The invariant -/

/-- Settles O3: the invariant in its two parts, each kept by every step; the parameters are the same. -/
theorem stepKeepsInv : Obligations.StepKeepsInv := by
  intro s t h ht
  obtain ⟨hcells, hbuf⟩ := h.memory.2
  have hsound : Sound s := ⟨Params.fits h.params, h.memory.1, hcells, hbuf, h.peer.rdpt, h.peer.wrpt, h.peer.rxw⟩
  obtain ⟨-, hhost, hcells', hbuf', hrdpt, hwrpt, hrxw⟩ := hsound.step ht
  have hparams := (stepNeverChangesTheParameters s t ht).1
  exact ⟨hparams ▸ h.params, ⟨hhost, hcells', hbuf'⟩, h.bus.step ht, ⟨hrdpt, hwrpt, hrxw⟩⟩

/-- Settles O2: the reset state is a literal. -/
theorem invHoldsAtReset : Obligations.InvHoldsAtReset :=
  ⟨⟨by decide, ⟨rfl, rfl, rfl⟩, ⟨nofun, nofun, fun _ => ⟨rfl, rfl⟩, rfl⟩, ⟨by decide, by decide, by decide⟩⟩,
    rfl, rfl, rfl⟩

end Sys2Proof.Machine
end

section
/-! SUPPORT. What holds of an operation once it has returned, and the reference peer's bank, whatever ENV does between two
bytes: what each byte of a frame does to it (44 R181, R184 to R191). -/

namespace Sys2Proof.Machine

variable {α β : Type}

/-! ### Operations that return -/

/-- The result of an operation that has returned, and the state it leaves, have `Q`. -/
def Flow.Returns (Q : α → State → Prop) : Flow α → Prop
  | .done a s => Q a s
  | .hang _ => True
  | .fault _ => True

theorem Flow.Returns.bind {Q : α → State → Prop} {R : β → State → Prop} {f : Flow α} {k : α → State → Flow β}
    (hf : f.Returns Q) (hk : ∀ a s, Q a s → (k a s).Returns R) : (f.bind k).Returns R := by
  cases f with
  | done a s => exact hk a s hf
  | hang s => trivial
  | fault e => trivial

theorem Flow.Returns.imp {Q R : α → State → Prop} {f : Flow α} (hf : f.Returns Q) (h : ∀ a s, Q a s → R a s) :
    f.Returns R := by
  cases f with
  | done a s => exact h a s hf
  | hang s => trivial
  | fault e => trivial

theorem Flow.All.returns {P : State → Prop} {f : Flow α} (hf : f.All P) : f.Returns fun _ => P := by
  cases f with
  | done a s => exact hf
  | hang s => trivial
  | fault e => trivial

theorem unlessTransmitting_returns {Q : α → State → Prop} (s : State) {f : Flow α} (hf : f.Returns Q) :
    (unlessTransmitting s f).Returns Q := by
  unfold unlessTransmitting
  split
  · trivial
  · exact hf

/-- An operation after which FG is free has returned, with what holds of its return. -/
theorem Flow.Returns.of_finish {Q : α → State → Prop} {f : Flow α} {reply : α → Reply} {t : State} (hf : f.Returns Q)
    (h : f.finish reply = .next t) (hr : t.fg = .running) : ∃ a u, Q a u ∧ t = u.addReply (reply a) := by
  obtain ⟨a, u, rfl, ht⟩ := Flow.of_finish_running h hr
  exact ⟨a, u, hf, ht⟩

/-! ### The bank and the place in the frame, through ENV's actions -/

theorem Peer.storeReceived_frame (p : Params) (bs : List Byte) (c : Peer) :
    ∃ m w, Peer.storeReceived p bs c = { c with buf := m, rxw := w } := by
  induction bs generalizing c with
  | nil => exact ⟨c.buf, c.rxw, rfl⟩
  | cons b bs ih =>
    obtain ⟨m, w, h⟩ := ih { c with buf := Memory.write .controller c.buf c.rxw b, rxw := (c.rxw + 1) % p.bufSize }
    exact ⟨m, w, by rw [Peer.storeReceived, h]⟩

/-- A packet that arrives changes the buffer memory, its write place and the queue. -/
theorem Peer.deliver_frame (p : Params) (packet : List Byte) (c : Peer) :
    ∃ m w q, c.deliver p packet = { c with buf := m, rxw := w, pend := q } := by
  unfold Peer.deliver
  split
  · obtain ⟨m, w, h⟩ := Peer.storeReceived_frame p (packetHeader p packet.length ++ packet) c
    exact ⟨m, w, _, by rw [h]⟩
  · exact ⟨c.buf, c.rxw, c.pend, rfl⟩

/-- Clearing bits that a mask misses. -/
theorem clearField_and_of_disjoint {x m b : Byte} (h : m &&& b = 0#8) : clearField x m &&& b = x &&& b := by
  unfold clearField
  apply BitVec.eq_of_getElem_eq
  intro i hi
  have hbit := congrArg (fun y : Byte => y.getLsbD i) h
  simp only [BitVec.getLsbD_eq_getElem hi, BitVec.getElem_and, BitVec.getElem_zero] at hbit
  simp only [BitVec.getElem_and, BitVec.getElem_not]
  cases hm : m[i] <;> simp_all

/-- Setting bits that a mask misses. -/
theorem setField_and_of_disjoint {x m b : Byte} (h : m &&& b = 0#8) : setField x m &&& b = x &&& b := by
  rw [setField, BitVec.and_comm, BitVec.and_or_distrib_left, BitVec.and_comm b m, h, BitVec.or_zero, BitVec.and_comm]

/-- The end of a transmission leaves the bank: M_TXRTS is none of its bits. -/
theorem Peer.txDone_bank {p : Params} (hp : p.Fits) (c : Peer) : (c.txDone p).bank p = c.bank p := by
  have hcell : (c.txDone p).stored (econ1Cell p) = clearField (c.stored (econ1Cell p)) p.mTxrts :=
    Peer.stored_store_self c _ _
  rw [Peer.bank, hcell, clearField_and_of_disjoint hp.mTxrts, Peer.bank]

/-- ENV changes neither the selected bank nor the peer's place in the frame. -/
theorem applyEvent_bank_frame {s : State} (hp : s.params.Fits) (e : EnvEvent) :
    (applyEvent s e).peer.bank s.params = s.peer.bank s.params ∧ (applyEvent s e).peer.frame = s.peer.frame := by
  cases e with
  | peerDeliver packet =>
    obtain ⟨m, w, q, h⟩ := s.peer.deliver_frame s.params packet
    rw [applyEvent, State.setPeer_peer, h]
    exact ⟨rfl, rfl⟩
  | peerTxDone =>
    unfold applyEvent peerTxDone
    simp only
    split
    · exact ⟨s.peer.txDone_bank hp, rfl⟩
    · exact ⟨rfl, rfl⟩
  | byteReady =>
    unfold applyEvent raiseByteReady
    simp only
    split <;> exact ⟨rfl, rfl⟩
  | busStuck | busResponds | setLink _ | setReadyDelay _ | hostStore _ _ | hostFree _ _ | notify _ => exact ⟨rfl, rfl⟩

/-! ### The bank, through the data byte of a command -/

/-- A write to another offset than that of `A_ECON1` leaves the bank. -/
theorem Peer.writeCell_bank_of_ne {p : Params} {o : Byte} (ho : o ≠ p.aEcon1.off) (c : Peer) (v : Byte) :
    (c.writeCell p o v).bank p = c.bank p := by
  have hne : econ1Cell p ≠ cellOf p (c.bank p) o := by
    unfold econ1Cell cellOf
    split
    · exact fun e => ho (CellId.com.inj e).symm
    · nofun
  rw [Peer.bank, Peer.writeCell_stored, if_neg fun h => hne h.1, Peer.bank]

/-- A write to `A_ECON1` selects the bank written. -/
theorem Peer.writeCell_bank_econ1 {p : Params} (hmap : PeerFits p) (c : Peer) (v : Byte) :
    (c.writeCell p p.aEcon1.off v).bank p = (v &&& p.mBsel).setWidth 2 := by
  rw [Peer.bank, Peer.writeCell_econ1 hmap, if_pos rfl]

/-- A packet sent is none of the cells. -/
theorem Peer.setCell_bank (p : Params) (free : List Byte) (c : Peer) (o m : Byte) :
    (c.setCell p free o m).bank p = (c.writeCell p o (setField (c.stored (cellOf p (c.bank p) o)) m)).bank p := by
  rw [Peer.setCell_eq]; rfl

/-- A bit-field set that can reach no bank-select bit leaves the bank. -/
theorem Peer.setCell_bank_kept {p : Params} (hmap : PeerFits p) {o m : Byte} (h : o ≠ p.aEcon1.off ∨ m &&& p.mBsel = 0#8)
    (free : List Byte) (c : Peer) : (c.setCell p free o m).bank p = c.bank p := by
  rw [Peer.setCell_bank]
  by_cases ho : o = p.aEcon1.off
  · subst ho
    rw [Peer.writeCell_bank_econ1 hmap, setField_and_of_disjoint (h.resolve_left (not_not.2 rfl)), hmap.econ1_cell, Peer.bank]
  · exact Peer.writeCell_bank_of_ne ho c _

/-- A bit-field clear that can reach no bank-select bit leaves the bank. -/
theorem Peer.clearCell_bank_kept {p : Params} (hmap : PeerFits p) {o m : Byte}
    (h : o ≠ p.aEcon1.off ∨ m &&& p.mBsel = 0#8) (c : Peer) : (c.clearCell p o m).bank p = c.bank p := by
  rw [Peer.clearCell]
  by_cases ho : o = p.aEcon1.off
  · subst ho
    rw [Peer.writeCell_bank_econ1 hmap, clearField_and_of_disjoint (h.resolve_left (not_not.2 rfl)), hmap.econ1_cell,
      Peer.bank]
  · exact Peer.writeCell_bank_of_ne ho c _

theorem Peer.advanceRead_cells (p : Params) (c : Peer) : (c.advanceRead p).cells = c.cells := by
  unfold Peer.advanceRead Peer.release
  simp only
  split
  · rfl
  · split
    · rfl
    · split <;> rfl

theorem Peer.countPoll_cells (p : Params) (c : Peer) (o : Byte) : (c.countPoll p o).cells = c.cells := by
  unfold Peer.countPoll
  split <;> rfl

theorem Peer.bank_of_cells {p : Params} {c d : Peer} (h : d.cells = c.cells) : d.bank p = c.bank p := by
  simp only [Peer.bank, Peer.stored, h]

/-- The data bytes of a command that select no bank: all but a WCR on `A_ECON1` and a BFS or BFC on it whose mask meets
M_BSEL (the commands that 41 R139 keeps the block from sending). -/
def SparesBank (p : Params) (d : Byte) : WireCmd → Prop
  | .wcr o => o ≠ p.aEcon1.off
  | .bfs o => o ≠ p.aEcon1.off ∨ d &&& p.mBsel = 0#8
  | .bfc o => o ≠ p.aEcon1.off ∨ d &&& p.mBsel = 0#8
  | .rcr _ => True
  | .rbm => True
  | .wbm => True
  | .src => True
  | .unknown => True

theorem Peer.dataByte_bank_kept {p : Params} (hmap : PeerFits p) {cmd : WireCmd} {d : Byte} (h : SparesBank p d cmd)
    (free : List Byte) (first : Bool) (c : Peer) : (c.dataByte p free cmd first d).2.bank p = c.bank p := by
  cases cmd with
  | rcr o => exact Peer.bank_of_cells (c.countPoll_cells p o)
  | rbm => exact Peer.bank_of_cells (c.advanceRead_cells p)
  | wcr o => cases first; exacts [rfl, c.writeCell_bank_of_ne h d]
  | wbm => rfl
  | bfs o => cases first; exacts [rfl, c.setCell_bank_kept hmap h free]
  | bfc o => cases first; exacts [rfl, c.clearCell_bank_kept hmap h]
  | src => rfl
  | unknown => rfl

/-- A data byte that takes the selected bank from `b` to `b'`, on every peer. -/
def MovesBank (p : Params) (b b' : BitVec 2) (d : Byte) (cmd : WireCmd) : Prop :=
  ∀ free (c : Peer), c.bank p = b → (c.dataByte p free cmd true d).2.bank p = b'

theorem SparesBank.moves {p : Params} (hmap : PeerFits p) {cmd : WireCmd} {d : Byte} (h : SparesBank p d cmd)
    (b : BitVec 2) : MovesBank p b b d cmd :=
  fun free _ hb => (Peer.dataByte_bank_kept hmap h free true _).trans hb

/-- The first frame of the bank-select sequence selects bank 0 (41 R131). -/
theorem MovesBank.clear {p : Params} (hmap : PeerFits p) (b : BitVec 2) :
    MovesBank p b 0#2 p.mBsel (.bfc p.aEcon1.off) := by
  intro free c _
  have hmask : ∀ x : Byte, clearField x p.mBsel &&& p.mBsel = 0#8 := fun x => by
    rw [clearField, BitVec.and_assoc, BitVec.and_comm (~~~ p.mBsel), BitVec.and_not_self]; exact BitVec.and_zero
  show (c.writeCell p _ _).bank p = 0#2
  rw [Peer.writeCell_bank_econ1 hmap, hmask, BitVec.setWidth_zero]

/-- The second selects the bank it names, from bank 0. -/
theorem MovesBank.set {p : Params} (hp : p.Fits) (hmap : PeerFits p) (b : BitVec 2) :
    MovesBank p 0#2 b (bankMask b) (.bfs p.aEcon1.off) := by
  intro free c hzero
  have hbits : ∀ x : Byte, (x &&& 0x03#8).setWidth 2 = 0#2 → (setField x (bankMask b) &&& 0x03#8).setWidth 2 = b := by
    unfold setField
    revert b
    decide
  rw [Peer.bank, hp.mBsel] at hzero
  show (c.setCell p free _ _).bank p = b
  rw [Peer.setCell_bank, Peer.writeCell_bank_econ1 hmap, hmap.econ1_cell, hp.mBsel]
  exact hbits _ hzero

end Sys2Proof.Machine
end

section
/-! PROOF. The cached bank is the selected one (10_state R31) with the reference peer, whatever ENV does: each frame of the
block, each operation, each instruction of the Register, Buffer and Supervisor layers. -/

namespace Sys2Proof.Machine

/-! ### Frames of the block on the reference peer -/

/-- The reference peer answers under the parameters `p`, with the given banks cached and selected, at a place in a frame. -/
structure Wired (p : Params) (cached bank : BitVec 2) (f : FramePos) (s : State) : Prop where
  params : s.params = p
  reference : s.wireEnd = .reference
  cached : s.ctl.currentBank = cached
  bank : s.peer.bank p = bank
  frame : s.peer.frame = f

section
variable {p : Params} {k b b' : BitVec 2} {f : FramePos} {s : State}

theorem Wired.applyEvent (hp : p.Fits) (h : Wired p k b f s) (e : EnvEvent) : Wired p k b f (applyEvent s e) := by
  obtain ⟨rfl, hr, hk, hb, hf⟩ := h
  obtain ⟨hbank, hframe⟩ := applyEvent_bank_frame hp e
  have henv := (applyEvent_spec s e).1
  exact ⟨henv.params, henv.wireEnd.trans hr, (congrArg Ctl.currentBank henv.ctl).trans hk, hbank.trans hb,
    hframe.trans hf⟩

theorem Wired.applyEvents (hp : p.Fits) (h : Wired p k b f s) (es : List EnvEvent) :
    Wired p k b f (applyEvents es s) := by
  induction es generalizing s with
  | nil => exact h
  | cons e es ih => exact ih (h.applyEvent hp e)

theorem Wired.setPlan (h : Wired p k b f s) (plan : List (List EnvEvent)) : Wired p k b f (s.setPlan plan) :=
  ⟨h.params, h.reference, h.cached, h.bank, h.frame⟩

theorem Wired.awaitBus (hp : p.Fits) (h : Wired p k b f s) (plan : List (List EnvEvent)) :
    (awaitBus plan s).Returns fun _ => Wired p k b f := by
  induction plan generalizing s with
  | nil =>
    unfold Machine.awaitBus
    split
    · exact h.setPlan []
    · trivial
  | cons es rest ih =>
    unfold Machine.awaitBus
    split
    · exact (h.applyEvents hp es).setPlan rest
    · exact ih (h.applyEvents hp es)

/-- One byte to the reference peer: the peer moves as `onByte` says of any peer with that bank at that place. -/
theorem Wired.exchangeByte (hp : p.Fits) {f' : FramePos} {d : Byte} (h : Wired p k b f s)
    (hstep : ∀ free (c : Peer), c.bank p = b → c.frame = f →
      (c.onByte p free d).2.bank p = b' ∧ (c.onByte p free d).2.frame = f') :
    (exchangeByte d s).Returns fun _ => Wired p k b' f' := by
  refine unlessTransmitting_returns s ((h.awaitBus hp s.plan).bind fun _ t ht => ?_)
  obtain ⟨hpeer, -, -⟩ := clockByte_reference d ht.reference
  have hk := clockByte_wireOnly d t
  obtain ⟨hbank, hframe⟩ := hstep (Config.freeBytes t.draws) t.peer ht.bank ht.frame
  rw [ht.params] at hpeer
  exact ⟨hk.kept.params.trans ht.params, hk.kept.wireEnd.trans ht.reference, by rw [hk.ctl]; exact ht.cached,
    by rw [hpeer]; exact hbank, by rw [hpeer]; exact hframe⟩

theorem Wired.emitBegin (h : Wired p k b f s) : Wired p k b .opened (emitBegin s) := by
  unfold Machine.emitBegin
  rw [h.reference]
  exact ⟨h.params, h.reference, h.cached, h.bank, rfl⟩

/-- The command byte (44 R184). -/
theorem Wired.commandByte (hp : p.Fits) (h : Wired p k b .opened s) (c : Byte) :
    (Machine.exchangeByte c s).Returns fun _ => Wired p k b (.data (decodeCommand p c) true) :=
  h.exchangeByte hp fun free d hb hf => by
    unfold Peer.onByte
    rw [hf]
    exact ⟨hb, rfl⟩

/-- The data byte of a command that moves the bank. -/
theorem Wired.dataByte (hp : p.Fits) {cmd : WireCmd} {d : Byte} (h : Wired p k b (.data cmd true) s)
    (hmove : MovesBank p b b' d cmd) :
    (Machine.exchangeByte d s).Returns fun _ => Wired p k b' (.data cmd false) :=
  h.exchangeByte hp fun free c hb hf => by
    unfold Peer.onByte
    rw [hf]
    exact ⟨hmove free c hb, rfl⟩

/-- Data bytes that spare the bank, however many. -/
theorem Wired.dataBytes (hp : p.Fits) (hmap : PeerFits p) {cmd : WireCmd} {ds : List Byte}
    (hspare : ∀ d ∈ ds, SparesBank p d cmd) {first : Bool} (h : Wired p k b (.data cmd first) s) :
    (exchangeAll ds s).Returns fun _ t => ∃ first, Wired p k b (.data cmd first) t := by
  induction ds generalizing first s with
  | nil => exact ⟨first, h⟩
  | cons d ds ih =>
    obtain ⟨hd, hds⟩ := List.forall_mem_cons.1 hspare
    have hbyte : (Machine.exchangeByte d s).Returns fun _ => Wired p k b (.data cmd false) :=
      h.exchangeByte hp fun free c hb hf => by
        unfold Peer.onByte
        rw [hf]
        exact ⟨(c.dataByte_bank_kept hmap hd free first).trans hb, rfl⟩
    exact hbyte.bind fun _ t ht => (ih hds ht).bind fun _ _ hu => hu

/-- `End` after any command but SRC (44 R184). -/
theorem Wired.emitEnd {cmd : WireCmd} {first : Bool} (hcmd : cmd ≠ .src) (h : Wired p k b (.data cmd first) s) :
    Wired p k b .outside (emitEnd s) := by
  have hend : s.peer.onEnd s.params = { s.peer with frame := .outside } := by
    unfold Peer.onEnd
    rw [h.frame]
    cases cmd with
    | src => exact absurd rfl hcmd
    | _ => rfl
  unfold Machine.emitEnd
  rw [h.reference]
  simp only [hend]
  exact ⟨h.params, h.reference, h.cached, h.bank, rfl⟩

/-- `End` after SRC: the reset has selected bank 0 (44 R191). -/
theorem Wired.emitEnd_src {first : Bool} (h : Wired p k b (.data .src first) s) :
    Wired p k 0#2 .outside (Machine.emitEnd s) := by
  have hend : s.peer.onEnd s.params = { s.peer.softReset s.params with frame := .outside } := by
    unfold Peer.onEnd
    rw [h.frame]
  unfold Machine.emitEnd
  rw [h.reference]
  simp only [hend]
  exact ⟨h.params, h.reference, h.cached, Peer.bank_of_stored_zero fun i => Peer.softReset_stored s.params s.peer i, rfl⟩

/-- A whole frame, from what its data bytes and its end do. -/
theorem Wired.framed (hp : p.Fits) {c : Byte} {cmd : WireCmd} {ds : List Byte} (hcmd : decodeCommand p c = cmd)
    (hdata : ∀ t, Wired p k b (.data cmd true) t →
      (exchangeAll ds t).Returns fun _ u => Wired p k b' .outside (Machine.emitEnd u))
    (h : Wired p k b f s) : (framed (c :: ds) s).Returns fun _ => Wired p k b' .outside := by
  have hbegin : (frameBegin s).Returns fun _ => Wired p k b .opened := unlessTransmitting_returns s h.emitBegin
  have hbytes : ∀ t, Wired p k b .opened t →
      (exchangeAll (c :: ds) t).Returns fun _ u => Wired p k b' .outside (Machine.emitEnd u) := fun t ht =>
    (ht.commandByte hp c).bind fun _ u hu => (hdata u (hcmd ▸ hu)).bind fun _ _ hv => hv
  refine hbegin.bind fun _ t ht => (hbytes t ht).bind fun rs u hu => ?_
  have hend : (frameEnd u).Returns fun _ => Wired p k b' .outside := unlessTransmitting_returns u hu
  exact hend.bind fun _ _ hv => hv

/-- A frame of any length whose data bytes spare the bank. -/
theorem Wired.framed_spares (hp : p.Fits) (hmap : PeerFits p) {c : Byte} {cmd : WireCmd} {ds : List Byte}
    (hcmd : decodeCommand p c = cmd) (hsrc : cmd ≠ .src) (hspare : ∀ d ∈ ds, SparesBank p d cmd) (h : Wired p k b f s) :
    (Machine.framed (c :: ds) s).Returns fun _ => Wired p k b .outside :=
  h.framed hp hcmd fun _ ht => (ht.dataBytes hp hmap hspare).imp fun _ _ ⟨_, hu⟩ => hu.emitEnd hsrc

/-- `Cmd2` of a command that moves the bank (41 R130). -/
theorem Wired.cmd2 (hp : p.Fits) {c d : Byte} {cmd : WireCmd} (hcmd : decodeCommand p c = cmd) (hsrc : cmd ≠ .src)
    (hmove : MovesBank p b b' d cmd) (h : Wired p k b f s) :
    (cmd2 c d s).Returns fun _ => Wired p k b' .outside := by
  refine (h.framed hp hcmd fun t ht => ?_).bind fun _ _ ht => ht
  refine (ht.dataByte hp hmove).bind fun _ u hu => ?_
  exact hu.emitEnd hsrc

end

/-! ### The operations -/

/-- The conditions on the parameter set under which the block and the reference peer understand each other. -/
structure Understood (p : Params) : Prop where
  fits : p.Fits
  noOverlap : p.noOverlap = true
  map : PeerFits p

/-- The reference peer answers under `p`, and the cached bank is the selected one. -/
structure Synced (p : Params) (s : State) : Prop where
  params : s.params = p
  reference : s.wireEnd = .reference
  coherent : BankCoherent s

theorem Synced.bank {p : Params} {s : State} (h : Synced p s) : s.peer.bank p = s.ctl.currentBank := by
  obtain ⟨rfl, -, hcoh⟩ := h
  exact hcoh.symm

theorem Synced.wired {p : Params} {s : State} (h : Synced p s) :
    Wired p s.ctl.currentBank s.ctl.currentBank s.peer.frame s :=
  ⟨h.params, h.reference, rfl, h.bank, rfl⟩

theorem Wired.synced {p : Params} {k : BitVec 2} {f : FramePos} {s : State} (h : Wired p k k f s) : Synced p s :=
  ⟨h.params, h.reference, by rw [BankCoherent, h.params, h.cached, h.bank]⟩

/-- The bank just selected is cached. -/
theorem Wired.setBank {p : Params} {k b : BitVec 2} {f : FramePos} {s : State} (h : Wired p k b f s) :
    Synced p (s.setBank b) :=
  Wired.synced (k := b) ⟨h.params, h.reference, rfl, h.bank, h.frame⟩

theorem Synced.setCtlState {p : Params} {s : State} (h : Synced p s) (c : CtlState) : Synced p (s.setCtlState c) :=
  ⟨h.params, h.reference, h.coherent⟩

section
variable {p : Params} (hu : Understood p) {s : State}
include hu

theorem Understood.econ1_offset : p.offsetOk p.aEcon1.off = true := hu.fits.offset (by simp [Params.addresses])

/-- The bank-select sequence (41 R131): bank 0, then the bank named, then the cache. -/
theorem Synced.selectBank (a : RegisterAddress) (h : Synced p s) : (selectBank a s).Returns fun _ => Synced p := by
  obtain ⟨-, -, hbfs, hbfc⟩ := decodeCommand_base hu.fits hu.noOverlap hu.econ1_offset
  unfold Machine.selectBank
  cases a with
  | common o => exact h
  | banked b o =>
    simp only
    split
    · rw [h.params]
      refine (h.wired.cmd2 hu.fits hbfc nofun (MovesBank.clear hu.map _)).bind fun _ t ht => ?_
      rw [ht.params]
      exact (ht.cmd2 hu.fits hbfs nofun (MovesBank.set hu.fits hu.map b)).bind fun _ _ hv => hv.setBank
    · exact h

/-- A register command that spares the bank (41 R132 to R135). -/
theorem Synced.registerCommand {opc : Byte} {a : RegisterAddress} {d : Byte} {cmd : WireCmd}
    (hcmd : decodeCommand p (Sys2Proof.commandByte opc a.off) = cmd) (hsrc : cmd ≠ .src) (hspare : SparesBank p d cmd)
    (h : Synced p s) : (registerCommand opc a d s).Returns fun _ => Synced p :=
  (h.selectBank hu a).bind fun _ _ ht =>
    (ht.wired.cmd2 hu.fits hcmd hsrc (hspare.moves hu.map _)).imp fun _ _ hv => hv.synced

theorem Synced.readRegister {a : RegisterAddress} (ha : a.ok p = true) (h : Synced p s) :
    (readRegister a s).Returns fun _ => Synced p := by
  unfold Machine.readRegister
  rw [h.params]
  exact h.registerCommand hu (decodeCommand_base hu.fits hu.noOverlap ha).1 nofun trivial

/-- The check of 41 R139 stops what could reach a bank-select bit. -/
theorem Synced.writeRegister {a : RegisterAddress} (ha : a.ok p = true) (v : Byte) (h : Synced p s) :
    (writeRegister a v s).Returns fun _ => Synced p := by
  unfold Machine.writeRegister
  rw [h.params]
  split
  · trivial
  · rename_i hname
    rw [hu.map.namesBankRegister, decide_eq_true_eq] at hname
    exact (h.registerCommand hu (decodeCommand_base hu.fits hu.noOverlap ha).2.1 nofun hname).bind fun _ _ ht => ht

theorem Understood.spares_of_not_touches {a : RegisterAddress} {m : Byte} (hs : s.params = p)
    (h : ¬ touchesBankBits s a m = true) : a.off ≠ p.aEcon1.off ∨ m &&& p.mBsel = 0#8 := by
  rw [touchesBankBits, hs, hu.map.namesBankRegister, Bool.and_eq_true, not_and_or, decide_eq_true_eq] at h
  exact h.imp_right fun hm => by simpa [flagSet] using hm

theorem Synced.setBits {a : RegisterAddress} (ha : a.ok p = true) (m : Byte) (h : Synced p s) :
    (setBits a m s).Returns fun _ => Synced p := by
  unfold Machine.setBits
  split
  · trivial
  · rename_i htouch
    have hspare := hu.spares_of_not_touches h.params htouch
    rw [h.params]
    exact (h.registerCommand hu (decodeCommand_base hu.fits hu.noOverlap ha).2.2.1 nofun hspare).bind fun _ _ ht => ht

theorem Synced.clearBits {a : RegisterAddress} (ha : a.ok p = true) (m : Byte) (h : Synced p s) :
    (clearBits a m s).Returns fun _ => Synced p := by
  unfold Machine.clearBits
  split
  · trivial
  · rename_i htouch
    have hspare := hu.spares_of_not_touches h.params htouch
    rw [h.params]
    exact (h.registerCommand hu (decodeCommand_base hu.fits hu.noOverlap ha).2.2.2 nofun hspare).bind fun _ _ ht => ht

theorem Synced.pollReady (n : Nat) (h : Synced p s) : (pollReady n s).Returns fun _ => Synced p := by
  induction n generalizing s with
  | zero => exact h
  | succ n ih =>
    unfold Machine.pollReady
    rw [h.params]
    refine (h.readRegister hu (hu.fits.offset (by simp [Params.addresses]))).bind fun v t ht => ?_
    split
    · exact ht
    · exact ih ht

/-- The soft reset selects bank 0 in the controller, and the block caches it (41 R136). -/
theorem Synced.softReset (h : Synced p s) : (softReset s).Returns fun _ => Synced p := by
  have hsrc : (cmd1 s.params.opcSrc s).Returns fun _ => Wired p s.ctl.currentBank 0#2 .outside := by
    rw [h.params]
    refine (h.wired.framed hu.fits (decodeCommand_full hu.fits).1 fun t ht => ?_).bind fun _ _ ht => ht
    exact ht.emitEnd_src
  exact hsrc.bind fun _ _ ht => ht.setBank.pollReady hu _

/-- A frame of a streaming command (42 R151, R153). -/
theorem Synced.streamed {c : Byte} {cmd : WireCmd} (hcmd : decodeCommand p c = cmd) (hstream : cmd = .rbm ∨ cmd = .wbm)
    (ds : List Byte) (h : Synced p s) : (framed (c :: ds) s).Returns fun _ => Synced p := by
  have hspare : cmd ≠ .src ∧ ∀ d, SparesBank p d cmd := by
    obtain rfl | rfl := hstream <;> exact ⟨nofun, fun _ => trivial⟩
  exact (h.wired.framed_spares hu.fits hu.map hcmd hspare.1 fun d _ => hspare.2 d).imp fun _ _ ht => ht.synced

theorem Synced.writePacket (q : Option (List Byte)) (h : Synced p s) : (writePacket q s).Returns fun _ => Synced p := by
  unfold Machine.writePacket
  split
  · exact h
  · split
    · exact h
    · rw [h.params]
      exact (h.streamed hu (decodeCommand_full hu.fits).2.2 (.inr rfl) _).bind fun _ _ ht => ht

theorem Synced.readHeader (h : Synced p s) : (readHeader s).Returns fun _ => Synced p := by
  unfold Machine.readHeader
  rw [h.params]
  exact (h.streamed hu (decodeCommand_full hu.fits).2.1 (.inl rfl) _).bind fun _ _ ht => ht

theorem Synced.readPayload (len n : Nat) (h : Synced p s) : (readPayload len n s).Returns fun _ => Synced p := by
  unfold Machine.readPayload
  split
  · exact h
  · rw [h.params]
    exact (h.streamed hu (decodeCommand_full hu.fits).2.1 (.inl rfl) _).bind fun _ _ ht => ht

theorem Synced.readPacket (capacity : Nat) (h : Synced p s) : (readPacket capacity s).Returns fun _ => Synced p := by
  rw [readPacket_eq, h.params]
  refine (h.readRegister hu (hu.fits.offset (by simp [Params.addresses]))).bind fun cnt t ht => ?_
  split
  · exact ht
  · exact (ht.readHeader hu).bind fun _ _ hv => (hv.readPayload hu _ _).bind fun _ _ hw => hw

theorem Synced.writeAll {ws : List (RegisterAddress × Byte)} (hws : ∀ w ∈ ws, w.1.ok p = true) (h : Synced p s) :
    (writeAll ws s).Returns fun _ => Synced p := by
  induction ws generalizing s with
  | nil => exact h
  | cons w ws ih =>
    obtain ⟨hw, hrest⟩ := List.forall_mem_cons.1 hws
    exact (h.writeRegister hu hw w.2).bind fun _ _ ht => ih hrest ht

/-- The registers of 43 R162 are addresses of the parameter set. -/
theorem Understood.initWrites_ok (m : Six Byte) : ∀ w ∈ initWrites p m, w.1.ok p = true := by
  intro w hw
  refine hu.fits.addresses w.1 (List.mem_append.2 ?_)
  obtain hw | hw := List.mem_append.1 hw
  · exact .inr (List.mem_map_of_mem hw)
  · exact .inl (List.mem_append.2 (.inr (List.of_mem_zip hw).1))

theorem Synced.configure (m : Six Byte) (h : Synced p s) : (configure m s).Returns fun _ => Synced p := by
  have hok := hu.initWrites_ok m
  unfold Machine.configure
  rw [h.params]
  refine (h.writeAll hu fun w hw => hok w (List.mem_append_left _ hw)).bind fun _ t ht => ?_
  rw [ht.params]
  refine (ht.writeAll hu fun w hw => hok w (List.mem_append_right _ hw)).bind fun _ v hv => ?_
  rw [hv.params]
  exact (hv.setBits hu hu.econ1_offset _).bind fun _ _ hw => hw.setCtlState _

theorem Synced.bringUp (mac : Option (Six Byte)) (h : Synced p s) : (bringUp mac s).Returns fun _ => Synced p := by
  unfold Machine.bringUp
  split
  · cases mac with
    | none => exact h.setCtlState _
    | some m =>
      have hreset : Synced p (s.enterResetting m) := ⟨h.params, h.reference, h.coherent⟩
      refine (hreset.softReset hu).bind fun r t ht => ?_
      split
      · exact ht.setCtlState _
      · exact ht.configure hu m
  · exact h

theorem Synced.send (q : Option (List Byte)) (h : Synced p s) : (send q s).Returns fun _ => Synced p := by
  unfold Machine.send
  split
  · exact h
  · split
    · exact h
    · refine (h.writePacket hu q).bind fun r t ht => ?_
      split
      · exact ht
      · rw [ht.params]
        exact (ht.setBits hu hu.econ1_offset _).bind fun _ _ hv => hv.setCtlState _

end

/-! ### The instructions -/

/-- An operation that has returned with its result added. -/
theorem Synced.of_finish {α : Type} {p : Params} {f : Flow α} {reply : α → Reply} {t : State}
    (hf : f.Returns fun _ => Synced p) (h : f.finish reply = .next t) (hr : t.fg = .running) : BankCoherent t := by
  obtain ⟨a, u, hu, rfl⟩ := hf.of_finish h hr
  exact hu.coherent

/-- Settles O33: another spelling of `A_ECON1` meets the check of 41 R139; and past it no frame of the block but those of the
bank-select sequence and SRC reaches a bank-select bit, whatever ENV does between two bytes. -/
theorem cachedBankIsTheSelectedBank : Obligations.CachedBankIsTheSelectedBank := by
  refine ⟨fun s a v m _ hname => ⟨?_, fun hm => ⟨?_, ?_⟩⟩, fun s t i hok hno hmap href hcoh hi hexec hr => ?_⟩
  · show (writeRegister a v s).finish _ = _
    rw [writeRegister_eq, hname, checkedCommand_refused, Flow.finish_fault]
  · show (setBits a m s).finish _ = _
    rw [setBits_eq, touchesBankBits_true hname hm, checkedCommand_refused, Flow.finish_fault]
  · show (clearBits a m s).finish _ = _
    rw [clearBits_eq, touchesBankBits_true hname hm, checkedCommand_refused, Flow.finish_fault]
  have hu : Understood s.params := ⟨Params.fits hok, hno, hmap⟩
  have h : Synced s.params s := ⟨rfl, href, hcoh⟩
  cases i with
  | selectBank a => exact Synced.of_finish (h.selectBank hu a) hexec hr
  | readRegister a => exact Synced.of_finish (h.readRegister hu hi) hexec hr
  | writeRegister a v => exact Synced.of_finish (h.writeRegister hu hi v) hexec hr
  | setBits a m => exact Synced.of_finish (h.setBits hu hi m) hexec hr
  | clearBits a m => exact Synced.of_finish (h.clearBits hu hi m) hexec hr
  | softReset => exact Synced.of_finish (h.softReset hu) hexec hr
  | writePacket q => exact Synced.of_finish (h.writePacket hu q) hexec hr
  | readPacket n => exact Synced.of_finish (h.readPacket hu n) hexec hr
  | initializeOp m => exact Synced.of_finish (h.bringUp hu m) hexec hr
  | send q => exact Synced.of_finish (h.send hu q) hexec hr
  | receive n =>
    change execReceive n s = _ at hexec
    unfold execReceive at hexec
    split at hexec
    · exact Synced.of_finish (h.readPacket hu n) hexec hr
    · cases hexec; exact hcoh
  | pollLinkUp =>
    change execPollLinkUp s = _ at hexec
    unfold execPollLinkUp at hexec
    split at hexec
    · cases hexec; exact hcoh
    · exact Synced.of_finish (h.readRegister hu (hu.fits.offset (by simp [Params.addresses]))) hexec hr
  | supIsBusy | isBusy => cases hexec; exact hcoh
  | txComplete | hardwareFault =>
    cases hexec
    split <;> exact hcoh
  | rcr | rbm | wcr | wbm | bfs | bfc | src | exchangeByte | beginTransmit | irqStep | frameBegin | frameEnd => exact hi.elim

end Sys2Proof.Machine
end

section
/-! PROOF. The SPI registers after an exchange (10_state R33), the acceptance of a transmit (40 R115), and the completed
transmit (40 R121). -/

namespace Sys2Proof.Machine

/-! ### `exchangeByte` and the SPI registers -/

/-- Settles O16: the exchange writes the registers as it says; where ENV is quiet there is nothing before it, so the answer
is the one at the head of the list. -/
theorem exchangedByteStandsInTheSpiRegisters : Obligations.ExchangedByteStandsInTheSpiRegisters := by
  intro d s hfree
  obtain ⟨r, t, hx, -, hk, -, hspi⟩ := exchangeByte_returns d s hfree
  have hexec : exec (.exchangeByte d) s = .next (t.addReply (.byte r)) := by
    show (exchangeByte d s).finish .byte = _
    rw [hx, Flow.finish_done]
  refine ⟨r, _, hexec, hk.bankOnly.replies_addReply _, hspi, fun a as hq harb has => ?_⟩
  cases hx.symm.trans (exchangeByte_reference d hq hfree.1)
  simp [wireAnswer, clockByte, wireEndAfter, harb, has]

/-! ### The acceptance of a transmit -/

/-- The state in which byte 0 of an accepted transmit is fetched: the bus claimed, the transaction recorded. -/
def State.claimed (s : State) (a n : Nat) : State :=
  ((s.setBus .txBusy).setMask false).setTxn { buffer := some a, length := n, cursor := 0 }

/-- Acceptance is the exchange of byte 0, the cursor moved and the notification enabled. -/
theorem exec_beginTransmit_eq {a n : Nat} {s : State} (hidle : s.bus = .idle) (hn : n ≠ 0) :
    exec (.beginTransmit (some a) n) s =
      ((xchg (fetchByte (some a) (s.claimed a n)).1 (fetchByte (some a) (s.claimed a n)).2).bind fun _ s =>
        .done .ok ((s.setTxn { s.txn with cursor := 1 }).setSpi { s.spi with txIE := true })).finish codeReply :=
  exec_beginTransmit_of_idle hidle a hn

/-- Settles O20: the byte is fetched before the wait; after the wait it is exchanged, or FG stays there. -/
theorem acceptedTransmitSendsByteZero : Obligations.AcceptedTransmitSendsByteZero := by
  intro a n s hn hidle
  rw [exec_beginTransmit_eq hidle hn]
  obtain ⟨k, hk⟩ := fetchByte_draw (some a) (s.claimed a n)
  have hb : ∀ v, Memory.read .host s.hostMem a = some v → (fetchByte (some a) (s.claimed a n)).1 = v := fun v hv => by
    rw [fetchByte_of_read (s := s.claimed a n) hv]
  revert hb
  rw [hk]
  generalize (fetchByte (some a) (s.claimed a n)).1 = b
  intro hb
  refine ⟨fun hup => ?_, fun hdown hplan => ?_⟩
  · obtain ⟨u, henv, hwire, -, hx⟩ := xchg_returns b ((s.claimed a n).draw k) hup
    have hkept := (hwire.trans (clockByte_wireOnly b u)).kept
    have hwire' : (clockByte b u).wire = s.wire ++ [.byte b (wireAnswer b u)] := by rw [clockByte_wire, henv.wire]; rfl
    have hclock := clockByte_wireOnly b u
    rw [hx, Flow.bind_done, Flow.finish_done]
    refine ⟨b, wireAnswer b u, _, rfl, hb, hkept.bus, ?_, rfl, ?_, hwire', ?_, ?_, hkept.fg, hkept.params, hkept.agenda,
      hkept.irqMasked, fun hp => ?_⟩
    · simp [hkept.txn, State.claimed]
    · simp
    · simp [hclock.replies, henv.replies, State.claimed, codeReply]
    · exact hclock.ctl.trans henv.ctl
    · exact ⟨(hkept.env hp).1, (hkept.env hp).2.1⟩
  · obtain ⟨t, ht, henv⟩ := xchg_hangs b (s := (s.claimed a n).draw k) hdown hplan
    exact ⟨t.setFg .hung, by rw [ht, Flow.bind_hang, Flow.finish_hang], rfl, henv.bus, henv.txn, henv.wire, henv.replies⟩

/-! ### A transaction in flight completes (40 R121, 70 R251) -/

/-- A transaction in flight with at most `m` bytes to send. -/
structure InFlight (m : Nat) (s : State) : Prop where
  inv : BusInv s
  txIE : s.spi.txIE = true
  left : s.txn.length - s.txn.cursor ≤ m

/-- What any step does to a transaction in flight: nothing that lengthens it, or its completion. -/
def InFlightMove (s t : State) : Prop :=
  (t.spi.txIE = true ∧ t.txn.length = s.txn.length ∧ s.txn.cursor ≤ t.txn.cursor) ∨ (t.bus = .idle ∧ t.spi.txIE = false)

theorem InFlightMove.of_eq {s t : State} (hie : s.spi.txIE = true) (htx : t.spi.txIE = s.spi.txIE)
    (htxn : t.txn = s.txn) : InFlightMove s t :=
  .inl ⟨htx.trans hie, by rw [htxn], by rw [htxn]⟩

theorem exec_inFlightMove {i : Instr} {s t : State} (hinv : BusInv s) (hie : s.spi.txIE = true) (h : exec i s = .next t) :
    InFlightMove s t := by
  by_cases hb : ∃ a n, i = .beginTransmit a n
  · obtain ⟨a, n, rfl⟩ := hb
    obtain rfl | rfl | ⟨-, -, -, hidle, -⟩ := exec_beginTransmit_cases h
    · exact .of_eq hie rfl rfl
    · exact .of_eq hie rfl rfl
    · rw [hinv.be1 hie] at hidle; cases hidle
  · by_cases hi : i = .irqStep
    · subst hi
      obtain rfl | ⟨-, -, ⟨-, htxn, -, htx, -⟩ | ⟨-, -, hbus, htx⟩⟩ := exec_irqStep_cases h
      · exact .of_eq hie rfl rfl
      · exact .inl ⟨htx.trans hie, by rw [htxn], by rw [htxn]; exact Nat.le_succ _⟩
      · exact .inr ⟨hbus, htx⟩
    · obtain hk | ⟨u, hk, rfl⟩ := exec_keptOrStuck (fun a n e => hb ⟨a, n, e⟩) hi h
      · exact .of_eq hie hk.txIE hk.txn
      · exact .of_eq hie hk.txIE hk.txn

theorem step_inFlightMove {s t : State} (hinv : BusInv s) (hie : s.spi.txIE = true) (h : step s = .next t) :
    InFlightMove s t := by
  obtain rfl | ⟨it, rest, -, -, rfl | ⟨e, -, rfl⟩ | ⟨i, ns, hi⟩ | ⟨bytes, -, hf⟩⟩ := step_cases h
  · exact .of_eq hie rfl rfl
  · exact .of_eq hie rfl rfl
  · have henv := (applyEvent_spec (s.setAgenda rest) e).1
    exact .of_eq hie henv.txIE henv.txn
  · have hinv' : BusInv ((s.setAgenda rest).setNotices ns) := hinv.congr rfl rfl rfl rfl id
    have hmove := exec_inFlightMove hinv' hie hi
    exact hmove
  · have hk := (runUnknownFrame_onlyPeerAndWire hf).kept
    exact .of_eq hie hk.txIE hk.txn

theorem InFlight.step {m : Nat} {s t : State} (h : InFlight m s) (ht : step s = .next t) :
    InFlight m t ∨ (t.bus = .idle ∧ t.spi.txIE = false) := by
  obtain ⟨htx, hlen, hcur⟩ | hdone := step_inFlightMove h.inv h.txIE ht
  · have hleft := h.left
    exact .inl ⟨h.inv.step ht, htx, by omega⟩
  · exact .inr hdone

theorem ByteReadyFair.later {s t : State} (h : ByteReadyFair s) (ht : Later s t) : ByteReadyFair t :=
  fun _ hu hie => h _ (ht.trans hu) hie

/-- The step that takes an enabled interrupt sends a byte or completes the transaction. -/
theorem step_irqStep {s : State} {rest : List Item} (hen : irqEnabled s = true) (hfg : s.fg = .running)
    (hagenda : s.agenda = .instr .irq (encode s.params .irqStep) :: rest) :
    ∃ t, step s = .next t ∧ ((s.txn.cursor < s.txn.length ∧ t.txn.length = s.txn.length
        ∧ t.txn.cursor = s.txn.cursor + 1) ∨ (t.bus = .idle ∧ t.spi.txIE = false)) := by
  have hstep : step s = exec .irqStep (s.setAgenda rest) :=
    stepRunsTheDecodedInstruction s _ .irqStep rest hfg hagenda rfl rfl
  rw [hstep]
  obtain ⟨hsend, hfinish⟩ := irqStepSendsTheNextByteOrFinishes (s.setAgenda rest)
  by_cases hlt : s.txn.cursor < s.txn.length
  · obtain ⟨b, r, t, ht, -, -, htxn, -⟩ := hsend hen hlt
    exact ⟨t, ht, .inl ⟨hlt, by rw [htxn]; rfl, by rw [htxn]; rfl⟩⟩
  · exact ⟨_, hfinish hen (Nat.le_of_not_lt hlt), .inr ⟨rfl, rfl⟩⟩

/-- Under `ByteReadyFair` a transaction in flight completes, by induction on the bytes to send: up to the next interrupt that
is taken it is not longer, or it has completed on the way. -/
theorem InFlight.completes (m : Nat) {s : State} (h : InFlight m s) (hfair : ByteReadyFair s) :
    ∃ t, Later s t ∧ t.bus = .idle ∧ t.spi.txIE = false := by
  induction m using Nat.strong_induction_on generalizing s with
  | _ m ih =>
    obtain ⟨u, rest, hsu, hen, hfg, hagenda⟩ := hfair s (Later.refl s) h.txIE
    obtain hu | ⟨v, v', hsv, hv, hstep, hexit⟩ := Later.first_exit (P := InFlight m) hsu h
    · obtain ⟨t, ht, ⟨hlt, hlen, hcur⟩ | hdone⟩ := step_irqStep hen hfg hagenda
      · obtain ht' | hdone := hu.step ht
        · have hleft := hu.left
          have hsmaller : InFlight (m - 1) t := ⟨ht'.inv, ht'.txIE, by omega⟩
          have hst := hsu.trans (Later.of_step ht)
          obtain ⟨w, htw, hw⟩ := ih (m - 1) (by omega) hsmaller (hfair.later hst)
          exact ⟨w, hst.trans htw, hw⟩
        · exact ⟨t, hsu.trans (Later.of_step ht), hdone⟩
      · exact ⟨t, hsu.trans (Later.of_step ht), hdone⟩
    · exact ⟨v', hsv.trans (Later.of_step hstep), (hv.step hstep).resolve_left hexit⟩

/-! ### A transmit of `N` bytes, round by round (40 R121) -/

/-- After byte `k` of the buffer `bs` at `a`, sent from `s`. -/
structure SentUpTo (s : State) (a : Nat) (bs : List Byte) (k : Nat) (t : State) : Prop where
  bus : t.bus = .txBusy
  txn : t.txn = { buffer := some a, length := bs.length, cursor := k + 1 }
  txIE : t.spi.txIE = true
  unmasked : t.irqMasked = false
  ctl : t.ctl = s.ctl
  hostMem : t.hostMem = s.hostMem
  wire : ∃ rs : List Byte, rs.length = k + 1 ∧ t.wire = s.wire ++ List.zipWith WireEvent.byte (bs.take (k + 1)) rs

/-- One more byte on the wire. -/
theorem zipWith_byte_concat {bs rs : List Byte} {k : Nat} (h : k < bs.length) (hrs : rs.length = k) (r : Byte) :
    List.zipWith WireEvent.byte (bs.take k) rs ++ [.byte bs[k] r]
      = List.zipWith WireEvent.byte (bs.take (k + 1)) (rs ++ [r]) := by
  rw [List.take_succ_eq_append_getElem h, List.zipWith_append (by simp [hrs]; omega)]
  rfl

/-- ENV's event, remembered, enables the interrupt. -/
theorem SentUpTo.enabled {s t : State} {a k : Nat} {bs : List Byte} (h : SentUpTo s a bs k t) :
    applyEvent t .byteReady = t.setSpi { t.spi with byteReady := true }
      ∧ irqEnabled (t.setSpi { t.spi with byteReady := true }) = true :=
  ⟨raiseByteReady_of_remembered (.inl h.txIE), (irqEnabled_iff _).2 ⟨h.txIE, rfl, h.unmasked⟩⟩

/-- A round with bytes left sends the next one. -/
theorem SentUpTo.round {s t : State} {a k : Nat} {bs : List Byte} (h : SentUpTo s a bs k t) (hk : k + 1 < bs.length)
    (hmem : ∀ k (h : k < bs.length), Memory.read .host s.hostMem (a + k) = some bs[k]) :
    ∃ u, exec .irqStep (applyEvent t .byteReady) = .next u ∧ SentUpTo s a bs (k + 1) u := by
  obtain ⟨hevent, hen⟩ := h.enabled
  rw [hevent]
  obtain ⟨b, r, u, hu, hb, hwire, htxn, -, hctl, -, hhost, hbus, hie, -, hmask, -⟩ :=
    (irqStepSendsTheNextByteOrFinishes (t.setSpi { t.spi with byteReady := true })).1 hen (by simp [h.txn, hk])
  obtain ⟨rs, hrs, hw⟩ := h.wire
  have hbyte : b = bs[k + 1] := hb a _ (by simp [h.txn]) (by simpa [h.txn, h.hostMem] using hmem (k + 1) hk)
  refine ⟨u, hu, hbus.trans h.bus, by simp [htxn, h.txn], hie.trans h.txIE, hmask.trans h.unmasked, hctl.trans h.ctl,
    hhost.trans h.hostMem, rs ++ [r], by simp [hrs], ?_⟩
  rw [hwire, State.setSpi_wire, hw, hbyte, List.append_assoc, zipWith_byte_concat hk hrs]

/-- As many rounds as bytes are left to send. -/
theorem SentUpTo.rounds {s t : State} {a k : Nat} {bs : List Byte} (h : SentUpTo s a bs k t) (n : Nat)
    (hk : k + n < bs.length) (hmem : ∀ k (h : k < bs.length), Memory.read .host s.hostMem (a + k) = some bs[k]) :
    ∃ u, irqRounds n t = .next u ∧ SentUpTo s a bs (k + n) u := by
  induction n generalizing k t with
  | zero => exact ⟨t, rfl, h⟩
  | succ n ih =>
    obtain ⟨u, hu, hsent⟩ := h.round (by omega) hmem
    obtain ⟨v, hv, hsent'⟩ := ih hsent (by omega)
    exact ⟨v, by rw [irqRounds, hu]; exact hv, by rwa [show k + (n + 1) = k + 1 + n by omega]⟩

theorem irqRounds_add {n m : Nat} {s t : State} (h : irqRounds n s = .next t) : irqRounds (n + m) s = irqRounds m t := by
  induction n generalizing s with
  | zero => cases h; rw [Nat.zero_add]
  | succ n ih =>
    rw [Nat.succ_add, irqRounds]
    rw [irqRounds] at h
    cases hs : exec .irqStep (applyEvent s .byteReady) with
    | next u => rw [hs] at h; exact ih h
    | fault e => rw [hs] at h; cases h
    | refused r => rw [hs] at h; cases h

theorem irqRounds_one (s : State) : irqRounds 1 s = exec .irqStep (applyEvent s .byteReady) := by
  rw [irqRounds]
  cases exec .irqStep (applyEvent s .byteReady) <;> rfl

/-- The round after the last byte frees the bus. -/
theorem SentUpTo.finish {s t : State} {a k : Nat} {bs : List Byte} (h : SentUpTo s a bs k t) (hk : k + 1 = bs.length) :
    ∃ u rs, irqRounds 1 t = .next u ∧ rs.length = bs.length
      ∧ u.wire = s.wire ++ List.zipWith WireEvent.byte bs rs ∧ u.bus = .idle ∧ u.spi.txIE = false
      ∧ u.txn = { buffer := some a, length := bs.length, cursor := 0 } ∧ u.ctl = s.ctl ∧ u.hostMem = s.hostMem := by
  obtain ⟨hevent, hen⟩ := h.enabled
  have hlast := (irqStepSendsTheNextByteOrFinishes (t.setSpi { t.spi with byteReady := true })).2 hen
    (by simp [h.txn, hk])
  obtain ⟨rs, hrs, hw⟩ := h.wire
  rw [hk, List.take_length] at hw
  rw [irqRounds_one, hevent]
  refine ⟨_, rs, hlast, hrs.trans hk, ?_, rfl, rfl, ?_, ?_, ?_⟩
  · simp [hw]
  · simp [h.txn]
  · simp [h.ctl]
  · simp [h.hostMem]

/-- The acceptance sends byte 0 (40 R115). -/
theorem sentUpTo_zero {s : State} {a : Nat} {bs : List Byte} (hbs : bs ≠ []) (hidle : s.bus = .idle) (hq : Quiet s)
    (hmem : ∀ k (h : k < bs.length), Memory.read .host s.hostMem (a + k) = some bs[k]) :
    ∃ t, exec (.beginTransmit (some a) bs.length) s = .next t ∧ SentUpTo s a bs 0 t := by
  have hpos : 0 < bs.length := List.length_pos_of_ne_nil hbs
  obtain ⟨b, r, t, ht, hb, hbus, htxn, hie, -, hwire, -, hctl, -, -, -, hmask, henv⟩ :=
    (acceptedTransmitSendsByteZero a bs.length s hpos.ne' hidle).1 hq.responsive
  refine ⟨t, ht, hbus, htxn, hie, hmask, hctl, (henv hq.1).1, [r], rfl, ?_⟩
  rw [hwire, hb bs[0] (hmem 0 hpos)]
  exact congrArg (s.wire ++ ·) (zipWith_byte_concat (rs := []) hpos rfl r)

/-- Settles O24: of any run, by the measure of the bytes left to send; of the rounds one after the other, by what has been
sent after each. -/
theorem transmitOfNBytesTakesNInterruptSteps : Obligations.TransmitOfNBytesTakesNInterruptSteps := by
  refine ⟨fun s hinv hie hfair => InFlight.completes _ ⟨hinv, hie, le_rfl⟩ hfair, fun s a bs hbs hidle hq hmem => ?_⟩
  have hpos : 0 < bs.length := List.length_pos_of_ne_nil hbs
  obtain ⟨t, ht, hsent⟩ := sentUpTo_zero hbs hidle hq hmem
  have hrounds := fun k (hk : k < bs.length) => hsent.rounds k ((Nat.zero_add k).symm ▸ hk) hmem
  obtain ⟨v, hv, hlast⟩ := hrounds (bs.length - 1) (by omega)
  obtain ⟨u, rs, hu, hfinal⟩ := hlast.finish (by omega)
  refine ⟨t, u, rs, ht, ?_, ?_⟩
  · rw [← hu, ← irqRounds_add hv, Nat.sub_add_cancel hpos]
  · obtain ⟨hrs, hwire, hbus, hie, htxn, hctl, hhost⟩ := hfinal
    refine ⟨hrs, hwire, hbus, hie, htxn, hctl, hhost, fun k hk => ?_⟩
    obtain ⟨w, hw, hsent'⟩ := hrounds k hk
    exact ⟨w, hw, hsent'.bus⟩

end Sys2Proof.Machine
end

section
/-! SUPPORT. How each operation of the block ends, returned or stuck: the bytes it returns, its result, `Ctl.state`
(42 R155, 43 R160, 60_exceptions R201). -/

namespace Sys2Proof.Machine

variable {α β : Type}

/-- The result of an operation that has returned, with the state it leaves, has `Q`; the state of one that is stuck has
`H`. -/
def Flow.Ends (Q : α → State → Prop) (H : State → Prop) : Flow α → Prop
  | .done a s => Q a s
  | .hang s => H s
  | .fault _ => True

section
variable {Q : α → State → Prop} {H : State → Prop} {f : Flow α}

theorem Flow.Ends.bind {R : β → State → Prop} {k : α → State → Flow β} (hf : f.Ends Q H)
    (hk : ∀ a s, Q a s → (k a s).Ends R H) : (f.bind k).Ends R H := by
  cases f with
  | done a s => exact hk a s hf
  | hang s => exact hf
  | fault e => trivial

theorem Flow.Ends.imp {R : α → State → Prop} {J : State → Prop} (hf : f.Ends Q H) (hQ : ∀ a s, Q a s → R a s)
    (hH : ∀ s, H s → J s) : f.Ends R J := by
  cases f with
  | done a s => exact hQ a s hf
  | hang s => exact hH s hf
  | fault e => trivial

/-- What is known of the return and what is kept whatever happens. -/
theorem Flow.Returns.ends {P : State → Prop} (hf : f.Returns Q) (hall : f.All P) :
    f.Ends (fun a s => Q a s ∧ P s) P := by
  cases f with
  | done a s => exact ⟨hf, hall⟩
  | hang s => exact hall
  | fault e => trivial

theorem Flow.All.ends {P : State → Prop} (hall : f.All P) : f.Ends (fun _ => P) P := by
  cases f with
  | done a s => exact hall
  | hang s => exact hall
  | fault e => trivial

theorem Flow.Ends.of_finish {reply : α → Reply} {t : State} (hf : f.Ends Q H) (h : f.finish reply = .next t) :
    (∃ a u, Q a u ∧ t = u.addReply (reply a)) ∨ ∃ u, H u ∧ t = u.setFg .hung := by
  cases f with
  | done a s => cases h; exact .inl ⟨a, s, hf, rfl⟩
  | hang s => cases h; exact .inr ⟨s, hf, rfl⟩
  | fault e => cases h

end

/-! ### The bytes a read returns (42 R153 to R155) -/

theorem exchangeAll_length (ds : List Byte) (s : State) :
    (exchangeAll ds s).Returns fun rs _ => rs.length = ds.length := by
  induction ds generalizing s with
  | nil => rfl
  | cons d ds ih =>
    have hbyte : (exchangeByte d s).Returns fun _ _ => True := (exchangeByte_all d s).returns.imp fun _ _ _ => trivial
    exact hbyte.bind fun r t _ => (ih t).bind fun rs u hrs => congrArg Nat.succ hrs

/-- A frame gives one received byte for each byte sent. -/
theorem framed_length (bytes : List Byte) (s : State) :
    (framed bytes s).Returns fun rs _ => rs.length = bytes.length := by
  have hbegin : (frameBegin s).Returns fun _ _ => True := unlessTransmitting_returns s trivial
  refine hbegin.bind fun _ t _ => (exchangeAll_length bytes t).bind fun rs u hrs => ?_
  have hend : (frameEnd u).Returns fun _ _ => rs.length = bytes.length := unlessTransmitting_returns u hrs
  exact hend.bind fun _ _ h => h

/-- Of a payload of `len` bytes the first `n` are kept. -/
theorem readPayload_length {len n : Nat} (hn : n ≤ len) (s : State) :
    (readPayload len n s).Returns fun bytes _ => bytes.length = n := by
  by_cases hlen : len = 0
  · subst hlen
    obtain rfl := Nat.le_zero.1 hn
    rfl
  · rw [readPayload_of_pos hlen hn]
    refine (framed_length _ s).bind fun rs t hrs => ?_
    show (rs.tail.take n).length = n
    simpa [hrs] using hn

/-- What a packet read returns: nothing, or as many bytes of a payload of `len` as there is room for. -/
def ReadResult (capacity : Nat) (r : List Byte × Code) : Prop :=
  r = ([], .ok) ∨ ∃ len, r.1.length = min len capacity ∧ r.2 = packetStatus len capacity

theorem readPending_result (capacity : Nat) (s : State) :
    (readPending capacity s).Returns fun r _ => ReadResult capacity r := by
  unfold readPending
  refine (readHeader_all s).returns.bind fun h t _ => ?_
  have hpayload := (readPayload_length (Nat.min_le_left (headerLength t.params h) capacity) t).ends (readPayload_all _ _ t)
  revert hpayload
  generalize readPayload _ _ t = f
  intro hpayload
  cases f with
  | done bytes u =>
    obtain ⟨hlen, hk⟩ := hpayload
    exact .inr ⟨headerLength t.params h, hlen, by rw [hk.kept.params]⟩
  | hang u => trivial
  | fault e => trivial

theorem readPacket_result (capacity : Nat) (s : State) :
    (readPacket capacity s).Returns fun r _ => ReadResult capacity r := by
  rw [readPacket_eq]
  refine (readRegister_all _ s).returns.bind fun cnt t _ => ?_
  split
  · exact .inl rfl
  · exact readPending_result capacity t

theorem ReadResult.bound {capacity : Nat} {r : List Byte × Code} (h : ReadResult capacity r) :
    r.1.length ≤ capacity ∧ (r.2 = .truncated → r.1.length = capacity) ∧ (r.2 = .truncated ∨ r.2 = .ok) := by
  obtain rfl | ⟨len, hlen, hst⟩ := h
  · exact ⟨Nat.zero_le _, nofun, .inr rfl⟩
  · rw [hlen, hst, packetStatus]
    refine ⟨Nat.min_le_right _ _, fun htr => ?_, ?_⟩
    · by_cases hlt : capacity < len
      · exact Nat.min_eq_right hlt.le
      · rw [if_neg hlt] at htr; cases htr
    · split
      · exact .inl rfl
      · exact .inr rfl

/-- Settles O36: the payload is cut to the room there is, and the status is that of the cut. -/
theorem receiveNeverReturnsMoreThanCapacity : Obligations.ReceiveNeverReturnsMoreThanCapacity := by
  intro cap s t bytes st h hreplies
  have hread : (readPacket cap s).finish packetReply = .next t → ReadResult cap (bytes, st) := fun hx => by
    obtain ⟨r, u, ⟨hr, hk⟩, rfl⟩ | ⟨u, hk, rfl⟩ := ((readPacket_result cap s).ends (readPacket_all cap s)).of_finish hx
    · rw [hk.replies_addReply, List.append_cancel_left_eq] at hreplies
      cases hreplies
      exact hr
    · rw [State.setFg_replies, hk.replies] at hreplies
      simp at hreplies
  refine ReadResult.bound (r := (bytes, st)) (h.elim (fun hrec => ?_) hread)
  change execReceive cap s = _ at hrec
  unfold execReceive at hrec
  split at hrec
  · exact hread hrec
  · cases hrec
    simp at hreplies

/-! ### Results and `Ctl.state` of the operations that can report an error -/

theorem pollReady_codes (n : Nat) (s : State) : (pollReady n s).Returns fun c _ => c = .ok ∨ c = .timeout := by
  induction n generalizing s with
  | zero => exact .inr rfl
  | succ n ih =>
    refine (readRegister_all _ s).returns.bind fun v t _ => ?_
    split
    · exact .inl rfl
    · exact ih t

theorem softReset_codes (s : State) : (softReset s).Returns fun c _ => c = .ok ∨ c = .timeout := by
  have hsrc : (cmd1 s.params.opcSrc s).Returns fun _ _ => True :=
    (framed_all [s.params.opcSrc] s).returns.bind fun _ _ _ => trivial
  exact hsrc.bind fun _ t _ => pollReady_codes _ _

/-- `writePacket` reports before it touches the wire (42 R151). -/
theorem writePacket_ends (q : Option (List Byte)) (s : State) :
    (writePacket q s).Ends (fun c t => (c = .ok ∧ WireOnly s t ∧ s.ctl.state = .ready)
      ∨ ((c = .notReady ∨ c = .invalidArgument) ∧ t = s)) (WireOnly s) := by
  by_cases hready : s.ctl.state = .ready
  · by_cases hq : payloadBytes q = []
    · rw [writePacket_empty hready hq]
      exact .inr ⟨.inr rfl, rfl⟩
    · rw [writePacket_of_ready hready hq]
      exact (framed_all _ s).ends.bind fun _ _ h => .inl ⟨rfl, h, hready⟩
  · rw [writePacket_notReady q hready]
    exact .inr ⟨.inl rfl, rfl⟩

/-- `send` reports before it touches the wire; accepted, it goes from Ready to TxBusy; stuck, it has not (43 R164). -/
theorem send_ends (q : Option (List Byte)) (s : State) :
    (send q s).Ends (fun c t => (c = .ok ∧ t.replies = s.replies ∧ s.ctl.state = .ready ∧ t.ctl.state = .txBusy)
      ∨ ((c = .notReady ∨ c = .invalidArgument) ∧ t = s)) (BankOnly s) := by
  by_cases hready : s.ctl.state = .ready
  · by_cases hlong : s.params.maxFrame < (payloadBytes q).length
    · rw [send_tooLong hready hlong]
      exact .inr ⟨.inr rfl, rfl⟩
    · rw [send_of_ready hready (Nat.le_of_not_lt hlong)]
      refine Flow.Ends.bind ((writePacket_ends q s).imp (fun _ _ h => h) fun _ h => h.bankOnly) fun c t ht => ?_
      obtain ⟨rfl, hk, -⟩ | ⟨hc, rfl⟩ := ht
      · rw [if_neg (not_not.2 rfl)]
        refine Flow.Ends.bind ((setBits_all _ _ t).ends.imp (fun _ _ h => hk.bankOnly.trans h)
          fun _ h => hk.bankOnly.trans h) fun _ u hu => ?_
        exact .inl ⟨rfl, hu.replies, hready, rfl⟩
      · rw [if_pos (by rintro rfl; simp at hc)]
        exact .inr ⟨hc, rfl⟩
  · rw [send_notReady q hready]
    exact .inr ⟨.inl rfl, rfl⟩

/-- The configuration ends in Ready (43 R162, steps 3 to 5). -/
theorem configure_ends (m : Six Byte) (s : State) :
    (configure m s).Ends (fun r t => r.1 = .ok ∧ t.replies = s.replies ∧ t.ctl.state = .ready) (BankOnly s) := by
  refine Flow.Ends.bind (writeAll_all _ s).ends fun _ t ht => ?_
  refine Flow.Ends.bind ((writeAll_all _ t).ends.imp (fun _ _ h => ht.trans h) fun _ h => ht.trans h) fun _ u hu => ?_
  refine Flow.Ends.bind ((setBits_all _ _ u).ends.imp (fun _ _ h => hu.trans h) fun _ h => hu.trans h) fun _ v hv => ?_
  exact ⟨rfl, hv.replies, rfl⟩

/-- Where `initialize` goes (43 R160, R162): nowhere where it is not accepted; else to Ready, to Error with a code, or, stuck,
to Resetting. -/
theorem bringUp_ends (mac : Option (Six Byte)) (s : State) :
    (bringUp mac s).Ends
      (fun r t => t.replies = s.replies ∧ ((r = (.notReady, .notStarted) ∧ t = s)
        ∨ (acceptsInitialize s.ctl.state = true ∧ ((r.1 = .ok ∧ t.ctl.state = .ready)
          ∨ ((r.1 = .invalidArgument ∨ r.1 = .timeout) ∧ t.ctl.state = .error)))))
      (fun t => t.replies = s.replies ∧ acceptsInitialize s.ctl.state = true ∧ t.ctl.state = .resetting) := by
  by_cases hacc : acceptsInitialize s.ctl.state = true
  · cases mac with
    | none =>
      rw [bringUp_none hacc]
      exact ⟨rfl, .inr ⟨hacc, .inr ⟨.inl rfl, rfl⟩⟩⟩
    | some m =>
      rw [bringUp_some m hacc]
      have hstuck : ∀ t, BankOnly (s.enterResetting m) t →
          t.replies = s.replies ∧ acceptsInitialize s.ctl.state = true ∧ t.ctl.state = .resetting :=
        fun t ht => ⟨ht.replies, hacc, ht.state⟩
      refine Flow.Ends.bind (((softReset_codes _).ends (softReset_all _)).imp (fun _ _ h => h) hstuck) fun c t ht => ?_
      obtain ⟨hc, hk⟩ := ht
      split
      · exact ⟨hk.replies, .inr ⟨hacc, .inr ⟨.inr rfl, rfl⟩⟩⟩
      · exact (configure_ends m t).imp
          (fun r u ⟨hr, hreplies, hstate⟩ => ⟨hreplies.trans hk.replies, .inr ⟨hacc, .inl ⟨hr, hstate⟩⟩⟩)
          fun u hu => hstuck u (hk.trans hu)
  · rw [bringUp_notReady mac (Bool.eq_false_iff.2 hacc)]
    exact ⟨rfl, .inl ⟨rfl, rfl⟩⟩

/-! ### Every instruction -/

/-- The error codes of the row of 60_exceptions R201. -/
def errorCodes : Instr → List Code
  | .beginTransmit _ _ => [.invalidArgument, .busy]
  | .softReset => [.timeout]
  | .writePacket _ => [.invalidArgument, .notReady]
  | .initializeOp _ => [.invalidArgument, .notReady, .timeout]
  | .send _ => [.notReady, .invalidArgument]
  | .receive _ => [.notReady]
  | .pollLinkUp => [.notReady]
  | _ => []

/-- A result that reports no error but those of the list. -/
def Reply.Reports (codes : List Code) (r : Reply) : Prop :=
  ∀ c, (r = .err c ∨ ∃ st, r = .errAt c st) → c ∈ codes

theorem codeReply_eq_err {a c : Code} (h : codeReply a = .err c) : a = c ∧ c ≠ .ok := by
  cases a <;> cases h <;> exact ⟨rfl, nofun⟩

theorem codeReply_reports {codes : List Code} {a : Code} (h : a = .ok ∨ a ∈ codes) :
    (codeReply a).Reports codes := by
  rintro c (hc | ⟨st, hst⟩)
  · obtain ⟨rfl, hne⟩ := codeReply_eq_err hc
    exact h.resolve_left hne
  · cases a <;> cases hst

/-- At most one result has been returned, and it reports none but these codes. -/
def RepliesWith (codes : List Code) (s t : State) : Prop :=
  t.replies = s.replies ∨ ∃ r : Reply, r.Reports codes ∧ t.replies = s.replies ++ [r]

/-- What most instructions do: `Ctl.state` stays, and there is at most one result. -/
def Plain (codes : List Code) (s t : State) : Prop := t.ctl.state = s.ctl.state ∧ RepliesWith codes s t

theorem OnlyPeerAndWire.plain {codes : List Code} {s t : State} (h : OnlyPeerAndWire s t) : Plain codes s t :=
  ⟨by rw [h.ctl], .inl h.replies⟩

theorem Plain.addReply {codes : List Code} {r : Reply} (hr : r.Reports codes) (s : State) :
    Plain codes s (s.addReply r) := ⟨rfl, .inr ⟨r, hr, rfl⟩⟩

/-- An operation on the wire that is all of an instruction. -/
theorem Flow.Ends.plain {f : Flow α} {reply : α → Reply} {codes : List Code} {s t : State}
    (hf : f.Ends (fun a t => BankOnly s t ∧ (reply a).Reports codes) (BankOnly s)) (h : f.finish reply = .next t) :
    Plain codes s t := by
  obtain ⟨a, u, ⟨hk, hr⟩, rfl⟩ | ⟨u, hk, rfl⟩ := hf.of_finish h
  · exact ⟨hk.state, .inr ⟨_, hr, hk.replies_addReply _⟩⟩
  · exact ⟨hk.state, .inl hk.replies⟩

/-- One whose results are never errors. -/
theorem Flow.All.plain {f : Flow α} {reply : α → Reply} {codes : List Code} {s t : State} (hf : f.All (BankOnly s))
    (hr : ∀ a, (reply a).Reports codes) (h : f.finish reply = .next t) : Plain codes s t :=
  (hf.ends.imp (fun a _ hk => ⟨hk, hr a⟩) fun _ hk => hk).plain h

theorem reports_err {codes : List Code} {c : Code} (h : c ∈ codes) : (Reply.err c).Reports codes := by
  rintro c' (hc | ⟨st, hc⟩)
  · cases hc; exact h
  · cases hc

theorem reports_errAt {codes : List Code} {c : Code} (h : c ∈ codes) (st : InitStep) : (Reply.errAt c st).Reports codes := by
  rintro c' (hc | ⟨st', hc⟩)
  · cases hc
  · cases hc; exact h

theorem reports_byte (codes : List Code) (b : Byte) : (Reply.byte b).Reports codes := by rintro c (h | ⟨st, h⟩) <;> cases h
theorem reports_flag (codes : List Code) (b : Bool) : (Reply.flag b).Reports codes := by rintro c (h | ⟨st, h⟩) <;> cases h
theorem reports_returned (codes : List Code) : Reply.returned.Reports codes := by rintro c (h | ⟨st, h⟩) <;> cases h
theorem reports_packet (codes : List Code) (r : List Byte × Code) : (packetReply r).Reports codes := by
  rintro c (h | ⟨st, h⟩) <;> cases h

theorem beginTransmit_plain {b : Option Nat} {n : Nat} {s t : State} (h : exec (.beginTransmit b n) s = .next t) :
    Plain (errorCodes (.beginTransmit b n)) s t := by
  obtain rfl | rfl | ⟨a, -, -, -, haccept⟩ := exec_beginTransmit_cases h
  · exact ⟨rfl, .inr ⟨_, reports_err (by simp [errorCodes]), rfl⟩⟩
  · exact ⟨rfl, .inr ⟨_, reports_err (by simp [errorCodes]), rfl⟩⟩
  · obtain ⟨-, -, hctl, ⟨-, -, -, hreplies⟩ | ⟨-, -, -, hreplies⟩⟩ := acceptTransmit_cases haccept
    · exact ⟨by rw [hctl]; rfl, .inr ⟨.ok, codeReply_reports (a := .ok) (.inl rfl), hreplies⟩⟩
    · exact ⟨by rw [hctl]; rfl, .inl hreplies⟩

/-- The interrupt context touches nothing of `Ctl` and returns nothing (60_exceptions R216). -/
theorem irqStep_plain {codes : List Code} {s t : State} (h : exec .irqStep s = .next t) : Plain codes s t := by
  by_cases hen : irqEnabled s = true
  · obtain ⟨hsend, hfinish⟩ := irqStepSendsTheNextByteOrFinishes s
    by_cases hlt : s.txn.cursor < s.txn.length
    · obtain ⟨b, r, u, hu, -, -, -, -, hctl, hreplies, -⟩ := hsend hen hlt
      cases hu.symm.trans h
      exact ⟨by rw [hctl], .inl hreplies⟩
    · cases (hfinish hen (Nat.le_of_not_lt hlt)).symm.trans h
      exact ⟨rfl, .inl rfl⟩
  · rw [exec_irqStep_of_not_enabled (Bool.eq_false_iff.2 hen)] at h
    cases h
    exact ⟨rfl, .inl rfl⟩

/-- The instructions that move `Ctl.state` (43 R160). -/
def MovesCtlState : Instr → Prop
  | .initializeOp _ => True
  | .send _ => True
  | .txComplete => True
  | .hardwareFault => True
  | _ => False

/-- Every other instruction leaves `Ctl.state` and reports no error but those of its row. -/
theorem exec_plain {i : Instr} {s t : State} (hi : ¬ MovesCtlState i) (h : exec i s = .next t) :
    Plain (errorCodes i) s t := by
  cases i with
  | initializeOp | send | txComplete | hardwareFault => exact absurd trivial hi
  | rcr | rbm | wcr | wbm | bfs | bfc | src => exact (peerFrame_onlyPeerAndWire h).plain
  | exchangeByte d => exact (exchangeByte_all d s).bankOnly.plain (reports_byte _) h
  | beginTransmit b n => exact beginTransmit_plain h
  | isBusy => cases h; exact Plain.addReply (reports_flag _ _) s
  | irqStep => exact irqStep_plain h
  | frameBegin =>
    exact (unlessTransmitting_all s (Flow.All.done () (emitBegin_wireOnly s).bankOnly)).plain
      (fun _ => reports_returned _) h
  | frameEnd =>
    exact (unlessTransmitting_all s (Flow.All.done () (emitEnd_wireOnly s).bankOnly)).plain
      (fun _ => reports_returned _) h
  | selectBank a => exact (selectBank_all a s).plain (fun _ => reports_returned _) h
  | readRegister a => exact (readRegister_all a s).plain (reports_byte _) h
  | writeRegister a v => exact (writeRegister_all a v s).plain (fun _ => reports_returned _) h
  | setBits a m => exact (setBits_all a m s).plain (fun _ => reports_returned _) h
  | clearBits a m => exact (clearBits_all a m s).plain (fun _ => reports_returned _) h
  | softReset =>
    refine (((softReset_codes s).ends (softReset_all s)).imp (fun c t ⟨hc, hk⟩ => ⟨hk, ?_⟩) fun _ hk => hk).plain h
    exact codeReply_reports (hc.imp_right fun hc => by simp [errorCodes, hc])
  | writePacket q =>
    refine ((writePacket_ends q s).imp (fun c t hc => ?_) fun _ hk => hk.bankOnly).plain h
    obtain ⟨rfl, hk, -⟩ | ⟨hc, rfl⟩ := hc
    · exact ⟨hk.bankOnly, codeReply_reports (.inl rfl)⟩
    · exact ⟨BankOnly.refl t, codeReply_reports (.inr (by simpa [errorCodes] using hc.symm))⟩
  | readPacket n => exact (readPacket_all n s).plain (reports_packet _) h
  | receive n =>
    change execReceive n s = _ at h
    unfold execReceive at h
    split at h
    · exact (readPacket_all n s).plain (reports_packet _) h
    · cases h
      exact Plain.addReply (reports_err (by simp [errorCodes])) s
  | pollLinkUp =>
    change execPollLinkUp s = _ at h
    unfold execPollLinkUp at h
    split at h
    · cases h
      exact Plain.addReply (reports_err (by simp [errorCodes])) s
    · exact (readRegister_all _ s).plain (fun _ => reports_flag _ _) h
  | supIsBusy => cases h; exact Plain.addReply (reports_flag _ _) s

end Sys2Proof.Machine
end

section
/-! PROOF. The Supervisor's state diagram (43 R160), the error codes and what a reported error leaves (60_exceptions R201,
R202, R205), and the send outstanding (43 R164). -/

namespace Sys2Proof.Machine

/-! ### The state diagram -/

theorem exec_send_cases {q : Option (List Byte)} {s t : State} (h : exec (.send q) s = .next t) :
    (s.ctl.state = .ready ∧ t.ctl.state = .txBusy ∧ t.replies = s.replies ++ [.ok])
      ∨ (∃ c, (c = .notReady ∨ c = .invalidArgument) ∧ t = s.addReply (.err c))
      ∨ (t.ctl.state = s.ctl.state ∧ t.replies = s.replies) := by
  obtain ⟨c, u, ⟨rfl, hreplies, hready, hstate⟩ | ⟨hc, rfl⟩, rfl⟩ | ⟨u, hk, rfl⟩ := (send_ends q s).of_finish h
  · exact .inl ⟨hready, hstate, congrArg (· ++ _) hreplies⟩
  · refine .inr (.inl ⟨c, hc, ?_⟩)
    obtain rfl | rfl := hc <;> rfl
  · exact .inr (.inr ⟨hk.state, hk.replies⟩)

theorem exec_initialize_cases {m : Option (Six Byte)} {s t : State} (h : exec (.initializeOp m) s = .next t) :
    t = s.addReply (.errAt .notReady .notStarted)
      ∨ acceptsInitialize s.ctl.state = true
        ∧ ((t.ctl.state = .ready ∧ t.replies = s.replies ++ [.ok])
          ∨ (t.ctl.state = .error ∧ ∃ c st, (c = .invalidArgument ∨ c = .timeout) ∧ t.replies = s.replies ++ [.errAt c st])
          ∨ (t.ctl.state = .resetting ∧ t.fg = .hung ∧ t.replies = s.replies)) := by
  obtain ⟨⟨c, st⟩, u, ⟨hreplies, hend⟩, rfl⟩ | ⟨u, ⟨hreplies, hacc, hstate⟩, rfl⟩ := (bringUp_ends m s).of_finish h
  · obtain ⟨hr, rfl⟩ | ⟨hacc, ⟨hr, hstate⟩ | ⟨hr, hstate⟩⟩ := hend
    · cases hr
      exact .inl rfl
    · cases hr
      exact .inr ⟨hacc, .inl ⟨hstate, congrArg (· ++ _) hreplies⟩⟩
    · have hne : c ≠ .ok := by rintro rfl; simp at hr
      refine .inr ⟨hacc, .inr (.inl ⟨hstate, c, st, hr, ?_⟩)⟩
      rw [State.addReply_replies, hreplies, bringUpReply, if_neg hne]
  · exact .inr ⟨hacc, .inr (.inr ⟨hstate, rfl, hreplies⟩)⟩

/-- Settles O46: of the four instructions that move `Ctl.state`, how each ends; every other leaves it. -/
theorem ctlStateFollowsTheDiagram : Obligations.CtlStateFollowsTheDiagram := by
  intro i s t h
  by_cases hi : MovesCtlState i
  · cases i with
    | initializeOp m =>
      obtain rfl | ⟨hacc, ⟨hstate, -⟩ | ⟨hstate, -⟩ | ⟨hstate, hfg, -⟩⟩ := exec_initialize_cases h
      · exact ⟨.stay _, fun hne => absurd rfl hne, .inl⟩
      · rw [hstate]
        exact ⟨.initialized hacc, fun _ => .inl ⟨m, rfl, hacc, .inl rfl⟩, nofun⟩
      · rw [hstate]
        exact ⟨.initializeFailed hacc, fun _ => .inl ⟨m, rfl, hacc, .inr (.inl rfl)⟩, nofun⟩
      · rw [hstate]
        exact ⟨.initializeStuck hacc, fun _ => .inl ⟨m, rfl, hacc, .inr (.inr rfl)⟩, fun _ => .inr hfg⟩
    | send q =>
      obtain ⟨hready, hstate, -⟩ | ⟨c, -, rfl⟩ | ⟨hstate, -⟩ := exec_send_cases h
      · rw [hready, hstate]
        exact ⟨.sent, fun _ => .inr (.inl ⟨q, rfl, rfl, rfl⟩), nofun⟩
      · exact ⟨.stay _, fun hne => absurd rfl hne, .inl⟩
      · rw [hstate]
        exact ⟨.stay _, fun hne => absurd rfl hne, .inl⟩
    | txComplete =>
      by_cases hbusy : s.ctl.state = .txBusy
      · cases (exec_txComplete_of_txBusy hbusy).symm.trans h
        exact ⟨hbusy ▸ .completed, fun _ => .inr (.inr (.inl ⟨rfl, hbusy, rfl⟩)), nofun⟩
      · cases (exec_txComplete_ignored hbusy).symm.trans h
        exact ⟨.stay _, fun hne => absurd rfl hne, .inl⟩
    | hardwareFault =>
      by_cases hacc : s.ctl.state = .ready ∨ s.ctl.state = .txBusy
      · cases (exec_hardwareFault_of_accepts hacc).symm.trans h
        exact ⟨.faulted ((acceptsHardwareFault_iff _).2 hacc), fun _ => .inr (.inr (.inr ⟨rfl, hacc, rfl⟩)), nofun⟩
      · cases (exec_hardwareFault_ignored hacc).symm.trans h
        exact ⟨.stay _, fun hne => absurd rfl hne, .inl⟩
    | _ => exact hi.elim
  · have hstate := (exec_plain hi h).1
    rw [hstate]
    exact ⟨.stay _, fun hne => absurd rfl hne, .inl⟩

/-! ### Error codes -/

theorem exec_txComplete_replies {s t : State} (h : exec .txComplete s = .next t) :
    t.replies = s.replies ++ [.returned] := by
  cases h
  split <;> rfl

theorem exec_hardwareFault_replies {s t : State} (h : exec .hardwareFault s = .next t) :
    t.replies = s.replies ++ [.returned] := by
  cases h
  split <;> rfl

/-- An instruction returns at most one result, and the error it reports, if any, is of its row. -/
theorem exec_repliesWith {i : Instr} {s t : State} (h : exec i s = .next t) : RepliesWith (errorCodes i) s t := by
  by_cases hi : MovesCtlState i
  · cases i with
    | initializeOp m =>
      obtain rfl | ⟨-, ⟨-, hreplies⟩ | ⟨-, c, st, hc, hreplies⟩ | ⟨-, -, hreplies⟩⟩ := exec_initialize_cases h
      · exact .inr ⟨_, reports_errAt (by simp [errorCodes]) _, rfl⟩
      · exact .inr ⟨_, codeReply_reports (a := .ok) (.inl rfl), hreplies⟩
      · exact .inr ⟨_, reports_errAt (by obtain rfl | rfl := hc <;> simp [errorCodes]) st, hreplies⟩
      · exact .inl hreplies
    | send q =>
      obtain ⟨-, -, hreplies⟩ | ⟨c, hc, rfl⟩ | ⟨-, hreplies⟩ := exec_send_cases h
      · exact .inr ⟨_, codeReply_reports (a := .ok) (.inl rfl), hreplies⟩
      · exact .inr ⟨_, reports_err (by simpa [errorCodes] using hc), rfl⟩
      · exact .inl hreplies
    | txComplete => exact .inr ⟨_, reports_returned _, exec_txComplete_replies h⟩
    | hardwareFault => exact .inr ⟨_, reports_returned _, exec_hardwareFault_replies h⟩
    | _ => exact hi.elim
  · exact (exec_plain hi h).2

theorem RepliesWith.mem {codes : List Code} {s t : State} {c : Code} (h : RepliesWith codes s t)
    (hc : t.replies = s.replies ++ [.err c] ∨ ∃ st, t.replies = s.replies ++ [.errAt c st]) : c ∈ codes := by
  obtain hr | ⟨r, hr, hreplies⟩ := h
  · simp [hr] at hc
  · refine hr c ?_
    simpa [hreplies] using hc

/-- Settles O47: the error is the one result the instruction has returned, so it is of its row. -/
theorem eachOperationReportsOnlyItsErrors : Obligations.EachOperationReportsOnlyItsErrors := by
  intro i s t c h hc
  have hmem := (exec_repliesWith h).mem hc
  cases i with
  | beginTransmit | softReset | writePacket | initializeOp | send | receive | pollLinkUp =>
    simpa [errorCodes] using hmem
  | _ => cases hmem

/-! ### A reported error has changed nothing -/

theorem State.setMask_self {s : State} {b : Bool} (h : s.irqMasked = b) : s.setMask b = s := by
  subst h; rfl

theorem addReply_of_replies {s : State} {r : Reply} {c : Code} (h : (s.addReply r).replies = s.replies ++ [.err c]) :
    s.addReply r = s.addReply (.err c) := by
  have hr : r = .err c := by simpa using h
  rw [hr]

/-- Settles O48: an operation that can report an error reports it before it touches anything but the mask. -/
theorem reportedErrorsChangeNothing : Obligations.ReportedErrorsChangeNothing := by
  intro i s t c hmask h hreplies hreset
  have hrow := eachOperationReportsOnlyItsErrors i s t c h (.inl hreplies)
  cases i with
  | beginTransmit b n =>
    obtain rfl | rfl | ⟨a, -, -, -, haccept⟩ := exec_beginTransmit_cases h
    · exact addReply_of_replies hreplies
    · rw [State.setMask_self hmask] at hreplies ⊢
      exact addReply_of_replies hreplies
    · obtain ⟨-, -, -, ⟨-, -, -, hok⟩ | ⟨-, -, -, hstuck⟩⟩ := acceptTransmit_cases haccept
      · simp [hok] at hreplies
      · simp [hstuck] at hreplies
  | softReset => exact absurd rfl hreset
  | writePacket q =>
    obtain ⟨c', u, ⟨rfl, hk, -⟩ | ⟨-, rfl⟩, rfl⟩ | ⟨u, hk, rfl⟩ := (writePacket_ends q s).of_finish h
    · simp [hk.replies, codeReply] at hreplies
    · exact addReply_of_replies hreplies
    · simp [hk.replies] at hreplies
  | initializeOp m =>
    obtain rfl | ⟨-, ⟨-, hr⟩ | ⟨-, c', st, -, hr⟩ | ⟨-, -, hr⟩⟩ := exec_initialize_cases h
    · exact addReply_of_replies hreplies
    · simp [hr] at hreplies
    · simp [hr] at hreplies
    · simp [hr] at hreplies
  | send q =>
    obtain ⟨-, -, hr⟩ | ⟨c', -, rfl⟩ | ⟨-, hr⟩ := exec_send_cases h
    · simp [hr] at hreplies
    · exact addReply_of_replies hreplies
    · simp [hr] at hreplies
  | receive n =>
    by_cases hacc : s.ctl.state = .ready ∨ s.ctl.state = .txBusy
    · rw [exec_receive_of_accepts hacc] at h
      exact (eachOperationReportsOnlyItsErrors (.readPacket n) s t c h (.inl hreplies)).elim
    · cases (exec_receive_notReady hacc n).symm.trans h
      exact addReply_of_replies hreplies
  | pollLinkUp =>
    change execPollLinkUp s = _ at h
    unfold execPollLinkUp at h
    split at h
    · cases h
      exact addReply_of_replies hreplies
    · have hplain : Plain [] s t := (readRegister_all _ s).plain (fun _ => reports_flag _ _) h
      cases hplain.2.mem (.inl hreplies)
  | _ => exact hrow.elim

/-! ### The send outstanding (43 R164, 70 R251) -/

/-- A step leaves TxBusy for Ready or Error only. -/
theorem step_of_txBusy {s t : State} (hbusy : s.ctl.state = .txBusy) (h : step s = .next t) :
    t.ctl.state = .txBusy ∨ t.ctl.state = .ready ∨ t.ctl.state = .error := by
  obtain rfl | ⟨it, rest, -, -, rfl | ⟨e, -, rfl⟩ | ⟨i, ns, hi⟩ | ⟨bytes, -, hf⟩⟩ := step_cases h
  · exact .inl hbusy
  · exact .inl hbusy
  · exact .inl (by rw [(applyEvent_spec _ e).1.ctl]; exact hbusy)
  · have hmove : CtlTransition s.ctl.state t.ctl.state := (ctlStateFollowsTheDiagram i _ t hi).1
    rw [hbusy] at hmove
    generalize t.ctl.state = c at hmove
    cases hmove with
    | stay => exact .inl rfl
    | initialized hacc => cases hacc
    | initializeFailed hacc => cases hacc
    | initializeStuck hacc => cases hacc
    | completed => exact .inr (.inl rfl)
    | faulted => exact .inr (.inr rfl)
  · exact .inl (by rw [(runUnknownFrame_onlyPeerAndWire hf).ctl]; exact hbusy)

/-- FG handed `txComplete()` in TxBusy goes to Ready (43 R166). -/
theorem HandsOverTxComplete.step {s : State} (hbusy : s.ctl.state = .txBusy) (h : HandsOverTxComplete s) :
    ∃ t, step s = .next t ∧ t.ctl.state = .ready := by
  obtain ⟨hfg, rest, hagenda | ⟨hagenda, ns, hnotices⟩⟩ := h
  · have hstep := stepRunsTheDecodedInstruction s _ .txComplete rest hfg hagenda rfl rfl
    rw [exec_txComplete_of_txBusy (s := s.setAgenda rest) hbusy] at hstep
    exact ⟨_, hstep, rfl⟩
  · have hstep := (notificationsAreDeliveredInForeground s .txComplete rest ns hfg).2 hagenda hnotices
    exact ⟨_, hstep.trans (exec_txComplete_of_txBusy (s := (s.setAgenda rest).setNotices ns) hbusy), rfl⟩

/-- Settles O41: of any run, up to the hand-over the send is outstanding or has ended on the way; of the three calls in a
row, by what each does in the state the one before has left. -/
theorem secondSendIsRejectedUntilCompletion : Obligations.SecondSendIsRejectedUntilCompletion := by
  refine ⟨fun s hbusy hfair => ?_, fun q q' s hok hready hq hlen hfree => ?_⟩
  · obtain ⟨u, hsu, hu⟩ := hfair s (Later.refl s) hbusy
    obtain hbusy' | ⟨v, v', hsv, hv, hstep, hexit⟩ :=
      Later.first_exit (P := fun t => t.ctl.state = .txBusy) hsu hbusy
    · obtain ⟨t, ht, hstate⟩ := (hu.resolve_left (not_not.2 hbusy')).step hbusy'
      exact ⟨t, hsu.trans (Later.of_step ht), .inl hstate⟩
    · exact ⟨v', hsv.trans (Later.of_step hstep), (step_of_txBusy hv hstep).resolve_left hexit⟩
  · obtain ⟨-, -, -, -, hsend⟩ := sendStagesThenRequestsTransmission q s hok
    obtain ⟨t, -, -, -, ht, -, -, -, hctl, -⟩ := hsend hready hq hlen hfree
    have hbusy : t.ctl.state = .txBusy := by rw [hctl]
    have hreject : exec (.send q') t = .next (t.addReply (.err .notReady)) := by
      show (send q' t).finish codeReply = _
      rw [send_notReady q' (by rw [hbusy]; nofun)]
      rfl
    exact ⟨t, _, ht, hreject, exec_txComplete_of_txBusy (s := t.addReply (.err .notReady)) hbusy, rfl, rfl, rfl⟩

end Sys2Proof.Machine
end

section
/-! PROOF. The wire commands on the registers of the reference peer (44 R185, R187, R188) and the frames without data. -/

namespace Sys2Proof.Machine

/-! ### Frames without data bytes (log 18) -/

/-- Settles O54: with no data byte there is nothing to answer or to write. -/
theorem commandsWithoutDataChangeNothing : Obligations.CommandsWithoutDataChangeNothing := by
  have hempty : ∀ (c : Byte) (s : State), ∃ t, peerFrame c [] [] s.peer s = .next t
      ∧ t.wire = s.wire ++ frameEvents [c] [0#8] ∧ OnlyPeerAndWire s t ∧ t.peer = { s.peer with frame := .outside } :=
    fun c s => ⟨_, rfl, rfl, peerFrame_onlyPeerAndWire rfl, rfl⟩
  rintro o s i c (⟨rfl, rfl⟩ | ⟨rfl, rfl⟩ | ⟨rfl, rfl⟩ | ⟨rfl, rfl⟩ | ⟨rfl, rfl⟩ | ⟨rfl, rfl⟩) <;> exact hempty _ s

/-! ### RCR (44 R185) -/

/-- The peer after `n` reads of an offset: a read of `A_ESTAT` counts as a poll. -/
def Peer.polled (p : Params) (o : Byte) (n : Nat) (c : Peer) : Peer :=
  { c with polls := c.polls + (if reaches p (c.bank p) o p.aEstat = true then n else 0) }

theorem Peer.polled_zero (p : Params) (o : Byte) (c : Peer) : c.polled p o 0 = c := by
  simp [Peer.polled]

theorem Peer.countPoll_polled (p : Params) (o : Byte) (n : Nat) (c : Peer) :
    (c.countPoll p o).polled p o n = c.polled p o (n + 1) := by
  unfold Peer.countPoll
  split
  · rename_i h
    have hpolls : c.polls + 1 + n = c.polls + (n + 1) := by omega
    have hbank : ({ c with polls := c.polls + 1 } : Peer).bank p = c.bank p := rfl
    simp [Peer.polled, h, hbank, hpolls]
  · rename_i h
    simp [Peer.polled, h]

/-- The answers of RCR: the `k`-th reads the register after `k` reads. -/
theorem rcrAnswers_eq (p : Params) (o : Byte) (ds : List Byte) (c : Peer) :
    rcrAnswers p o ds c
      = ((List.range ds.length).map fun k => (c.polled p o k).readValue p o, c.polled p o ds.length) := by
  induction ds generalizing c with
  | nil => simp [rcrAnswers, Peer.polled_zero]
  | cons d ds ih =>
    simp only [rcrAnswers, ih, Peer.countPoll_polled, List.length_cons, List.range_succ_eq_map, List.map_cons,
      List.map_map, Peer.polled_zero]
    rfl

/-- A forced flag leaves the bits outside a mask that covers it. -/
theorem putFlag_outside {m keep : Byte} (h : m &&& keep = 0#8) (v : Byte) (on : Bool) :
    putFlag v m on &&& keep = v &&& keep := by
  cases on
  · exact clearField_and_of_disjoint h
  · exact setField_and_of_disjoint h

theorem and_not_or_left (a b : Byte) : a &&& ~~~ (a ||| b) = 0#8 := by
  apply BitVec.eq_of_getElem_eq
  intro i hi
  simp only [BitVec.getElem_and, BitVec.getElem_not, BitVec.getElem_or, BitVec.getElem_zero]
  cases a[i] <;> rfl

theorem and_not_or_right (a b : Byte) : b &&& ~~~ (a ||| b) = 0#8 := by
  rw [BitVec.or_comm, and_not_or_left]

/-- Outside the peer's own bits a register reads as the packet count or the cell (44 R183, R185). -/
theorem Peer.readValue_outside_own (p : Params) (c : Peer) (o : Byte) :
    c.readValue p o &&& ~~~ c.ownBits p o
      = (if reaches p (c.bank p) o p.aEpktcnt = true then BitVec.ofNat 8 (min c.pend.length 255)
          else c.stored (cellOf p (c.bank p) o)) &&& ~~~ c.ownBits p o := by
  unfold Peer.readValue Peer.ownBits
  simp only
  generalize (if reaches p (c.bank p) o p.aEpktcnt = true then _ else _) = v
  by_cases hready : reaches p (c.bank p) o p.aEstat = true <;> by_cases hlink : reaches p (c.bank p) o p.aPhystat = true
  · simp only [hready, hlink, if_true]
    rw [putFlag_outside (and_not_or_right _ _), putFlag_outside (and_not_or_left _ _)]
  · simp only [hready, hlink, if_true, Bool.false_eq_true, if_false]
    rw [putFlag_outside (and_not_or_left _ _)]
  · simp only [hready, hlink, if_true, Bool.false_eq_true, if_false]
    rw [putFlag_outside (and_not_or_right _ _)]
  · simp only [hready, hlink, Bool.false_eq_true, if_false]

theorem eq_of_map_range {α : Type} {f : Nat → α} {n k : Nat} {r : α} (h : ((List.range n).map f)[k]? = some r) :
    r = f k := by
  obtain ⟨hk, rfl⟩ := List.getElem?_eq_some_iff.1 h
  simp

/-- An RCR frame has crossed the wire: its answers and the polls. -/
theorem exec_rcr (o : Byte) (data : List Byte) (s : State) :
    ∃ t as, exec (.rcr o data) s = .next t ∧ as.length = data.length
      ∧ t.wire = s.wire ++ frameEvents (commandByte s.params.opcRcr o :: data) (0#8 :: as)
      ∧ OnlyPeerAndWire s t ∧ t.peer = (s.peer.polled s.params o data.length).withFrame .outside
      ∧ ∀ k r, as[k]? = some r → r = (s.peer.polled s.params o k).readValue s.params o := by
  have hexec : exec (.rcr o data) s = peerFrame (commandByte s.params.opcRcr o) data
      ((List.range data.length).map fun k => (s.peer.polled s.params o k).readValue s.params o)
      (s.peer.polled s.params o data.length) s := by
    show execRcr o data s = _
    rw [execRcr, rcrAnswers_eq]
  exact ⟨_, _, hexec, by simp, rfl, peerFrame_onlyPeerAndWire rfl, rfl, fun k r hr => eq_of_map_range hr⟩

/-- Settles O49: each answer reads the same cells, whatever the polls. -/
theorem rcrAnswersTheRegister : Obligations.RcrAnswersTheRegister := by
  rintro o own data s p bank rfl rfl hown
  obtain ⟨t, as, hexec, hlen, hwire, honly, hpeer, has⟩ := exec_rcr o data s
  have hread : ∀ r ∈ as, r &&& ~~~ own
      = (if reaches s.params (s.peer.bank s.params) o s.params.aEpktcnt = true
          then BitVec.ofNat 8 (min s.peer.pend.length 255)
          else s.peer.stored (cellOf s.params (s.peer.bank s.params) o)) &&& ~~~ own := fun r hr => by
    obtain ⟨k, hk⟩ := List.mem_iff_getElem?.1 hr
    rw [has k r hk, show own = (s.peer.polled s.params o k).ownBits s.params o from hown,
      Peer.readValue_outside_own]
    rfl
  refine ⟨t, as, hexec, hlen, hwire, honly, ?_, by rw [hpeer]; rfl, by rw [hpeer]; rfl, by rw [hpeer]; rfl,
    fun hcount r hr => ?_, fun hcount hfree r hr => ?_⟩
  · rw [hpeer]; constructor <;> rfl
  · rw [hread r hr, hcount]; rfl
  · have hr' := hread r hr
    rw [hfree, BitVec.not_zero, BitVec.and_allOnes, BitVec.and_allOnes, if_pos hcount] at hr'
    rw [hr', BitVec.toNat_ofNat, Nat.mod_eq_of_lt (by omega)]

/-- The ready flag after `n` polls more (44 R194). -/
theorem Peer.ready_polled_iff {p : Params} {o : Byte} {c : Peer} (h : reaches p (c.bank p) o p.aEstat = true) (k : Nat) :
    (c.polled p o k).ready = true ↔ c.wasReset = true ∧ ∃ d, c.readyDelay = some d ∧ d ≤ c.polls + k := by
  unfold Peer.ready Peer.polled
  cases c.readyDelay <;> simp [h]

theorem flagSet_iff (v m : Byte) : flagSet v m = true ↔ v &&& m ≠ 0#8 := by simp [flagSet]

/-- The ready flag as a register read shows it: forced, and not covered by the link bit. -/
theorem Peer.readValue_ready {p : Params} (hp : p.Fits) {o : Byte} {c : Peer}
    (h : reaches p (c.bank p) o p.aEstat = true)
    (hlink : reaches p (c.bank p) o p.aPhystat = false ∨ p.mLink &&& p.mClkrdy = 0#8) :
    flagSet (c.readValue p o) p.mClkrdy = c.ready := by
  have hne : p.mClkrdy ≠ 0#8 := fun e => isPowerOfTwo_ne_zero hp.mClkrdy (by rw [e]; rfl)
  unfold Peer.readValue
  simp only [h, if_true]
  split
  · rename_i hreach
    have hdisjoint := hlink.resolve_left (by rw [hreach]; nofun)
    rw [flagSet, putFlag_outside hdisjoint]
    exact flagSet_putFlag _ _ hne _
  · exact flagSet_putFlag _ _ hne _

/-- The link bit lies over everything else (44 R198). -/
theorem Peer.readValue_link {p : Params} (hp : p.Fits) {o : Byte} {c : Peer}
    (h : reaches p (c.bank p) o p.aPhystat = true) : flagSet (c.readValue p o) p.mLink = c.linkUp := by
  unfold Peer.readValue
  simp only [h, if_true]
  exact flagSet_putFlag _ _ hp.mLink _

/-- Settles O50: the answer after `k` reads has the flags of the peer polled `k` times. -/
theorem rcrAnswersThePeersOwnBits : Obligations.RcrAnswersThePeersOwnBits := by
  rintro o data s p bank rfl rfl hok
  have hp := Params.fits hok
  obtain ⟨t, as, hexec, hlen, hwire, -, -, has⟩ := exec_rcr o data s
  refine ⟨t, as, hexec, hlen, hwire, fun hready hlink k r hr => ?_, fun hlink r hr => ?_⟩
  · rw [has k r hr, ← flagSet_iff, Peer.readValue_ready hp (c := s.peer.polled s.params o k) hready hlink]
    exact Peer.ready_polled_iff hready k
  · obtain ⟨k, hk⟩ := List.mem_iff_getElem?.1 hr
    rw [has k r hk, ← flagSet_iff, Peer.readValue_link hp (c := s.peer.polled s.params o k) hlink]
    rfl

/-! ### BFS and BFC (44 R187, R188) -/

/-- What the two bit-field commands write, their own bits kept. -/
theorem writeExcept_setField (own x m : Byte) : writeExcept own x (setField x m) = x ||| (m &&& ~~~ own) := by
  unfold writeExcept setField
  apply BitVec.eq_of_getElem_eq
  intro i hi
  simp only [BitVec.getElem_and, BitVec.getElem_or, BitVec.getElem_not]
  cases own[i] <;> cases x[i] <;> cases m[i] <;> rfl

theorem writeExcept_clearField (own x m : Byte) : writeExcept own x (clearField x m) = x &&& ~~~ (m &&& ~~~ own) := by
  unfold writeExcept clearField
  apply BitVec.eq_of_getElem_eq
  intro i hi
  simp only [BitVec.getElem_and, BitVec.getElem_or, BitVec.getElem_not]
  cases own[i] <;> cases x[i] <;> cases m[i] <;> rfl

theorem exec_bfs (o m : Byte) (more : List Byte) (s : State) :
    exec (.bfs o (m :: more)) s = peerFrame (commandByte s.params.opcBfs o) (m :: more) (zeroAnswers (m :: more))
      (s.peer.setCell s.params (Config.freeBytes (s.draws + 1)) o m) s := rfl

theorem exec_bfc (o m : Byte) (more : List Byte) (s : State) :
    exec (.bfc o (m :: more)) s = peerFrame (commandByte s.params.opcBfc o) (m :: more) (zeroAnswers (m :: more))
      (s.peer.clearCell s.params o m) s := rfl

theorem Peer.setCell_withFrame (p : Params) (free : List Byte) (c : Peer) (o m : Byte) (f : FramePos) :
    (c.withFrame f).setCell p free o m = (c.setCell p free o m).withFrame f :=
  congrArg Prod.snd (c.dataByte_withFrame p free (.bfs o) true m f)

theorem Peer.clearCell_withFrame (p : Params) (c : Peer) (o m : Byte) (f : FramePos) :
    (c.withFrame f).clearCell p o m = (c.clearCell p o m).withFrame f :=
  congrArg Prod.snd (c.dataByte_withFrame p [] (.bfc o) true m f)

/-- The cells after a bit-field command, from what it writes to the cell it reaches. -/
theorem Peer.writeCell_stored_self (p : Params) (c : Peer) (o v : Byte) :
    (c.writeCell p o v).stored (cellOf p (c.bank p) o)
      = if reaches p (c.bank p) o p.aEpktcnt = true then c.stored (cellOf p (c.bank p) o)
        else writeExcept (c.ownBits p o) (c.stored (cellOf p (c.bank p) o)) v := by
  rw [Peer.writeCell_stored]
  cases reaches p (c.bank p) o p.aEpktcnt <;> simp

theorem Peer.writeCell_stored_ne (p : Params) (c : Peer) (o v : Byte) {i : CellId} (h : i ≠ cellOf p (c.bank p) o) :
    (c.writeCell p o v).stored i = c.stored i := by
  rw [Peer.writeCell_stored, if_neg fun h' => h h'.1]

/-- Settles O53: `clearCell` is a write of the cell with the mask's bits cleared; repeated, it writes what is there. -/
theorem bfcClearsBits : Obligations.BfcClearsBits := by
  rintro o own m more s p bank rfl rfl hown
  have hown : s.peer.ownBits s.params o = own := hown.symm
  obtain ⟨t, hexec, hwire, honly, hpeer⟩ := peerFrame_zeroAnswers (commandByte s.params.opcBfc o) (m :: more)
    (s.peer.clearCell s.params o m) s
  have hcells : t.peer = ({ s.peer with cells := t.peer.cells } : Peer).withFrame .outside := by
    rw [hpeer, Peer.clearCell, Peer.writeCell_cells]; rfl
  have hstored : ∀ c, t.peer.stored c = (s.peer.clearCell s.params o m).stored c := fun c => by
    rw [hpeer, Peer.stored_withFrame]
  refine ⟨t, (exec_bfc o m more s).trans hexec, hwire, honly, ?_, by rw [hcells]; rfl, by rw [hcells]; rfl,
    fun c hc => ?_, ?_, _, exec_bfc o m more t, ?_⟩
  · rw [hcells]; constructor <;> rfl
  · rw [hstored, Peer.clearCell, Peer.writeCell_stored_ne _ _ _ _ hc]
  · rw [hstored, Peer.clearCell, Peer.writeCell_stored_self, hown, writeExcept_clearField]
  · show (t.peer.clearCell t.params o m).withFrame .outside = t.peer
    rw [honly.params, hpeer, Peer.clearCell_withFrame, Peer.clearCell_again, Peer.withFrame_withFrame]

/-- The bytes staged, while the write pointer has not wrapped (44 R196). -/
theorem Peer.staged_spec {p : Params} {c : Peer} (h : p.txBase ≤ c.wrpt) (free : List Byte) :
    (c.staged p free).length = c.wrpt - p.txBase
      ∧ ∀ k b, (c.staged p free)[k]? = some b → b = c.bufByte (p.txBase + k) := by
  rw [Peer.staged, if_neg h.not_gt]
  exact ⟨by simp, fun k b hb => eq_of_map_range (f := fun k => c.bufByte (p.txBase + k)) hb⟩

theorem Peer.startsTransmission_iff (p : Params) (c d : Peer) : c.startsTransmission p d = true ↔
    c.stored (econ1Cell p) &&& p.mTxrts = 0#8 ∧ d.stored (econ1Cell p) &&& p.mTxrts ≠ 0#8 := by
  simp [Peer.startsTransmission, flagSet]

/-- The bits that a mask sets and that are none of the own bits are set. -/
theorem or_and_not_and_ne_zero {x m own bit : Byte} (hown : own &&& bit = 0#8) (hm : m &&& bit ≠ 0#8) :
    (x ||| (m &&& ~~~ own)) &&& bit ≠ 0#8 := by
  intro h
  apply hm
  apply BitVec.eq_of_getElem_eq
  intro i hi
  have h1 := congrArg (fun y : Byte => y.getLsbD i) h
  have h2 := congrArg (fun y : Byte => y.getLsbD i) hown
  simp only [BitVec.getLsbD_eq_getElem hi, BitVec.getElem_and, BitVec.getElem_or, BitVec.getElem_not,
    BitVec.getElem_zero] at h1 h2 ⊢
  revert h1 h2
  cases x[i] <;> cases m[i] <;> cases own[i] <;> cases bit[i] <;> simp

/-- Settles O52: `setCell` is a write of the cell with the mask's bits set, and one packet more in `sent` exactly if that
starts a transmission; repeated, it writes what is there. -/
theorem bfsSetsBitsAndStartsTransmission : Obligations.BfsSetsBitsAndStartsTransmission := by
  rintro o own m more s p bank rfl rfl hown
  have hown : s.peer.ownBits s.params o = own := hown.symm
  obtain ⟨t, hexec, hwire, honly, hpeer⟩ := peerFrame_zeroAnswers (commandByte s.params.opcBfs o) (m :: more)
    (s.peer.setCell s.params (Config.freeBytes (s.draws + 1)) o m) s
  have heq := Peer.setCell_eq s.params (Config.freeBytes (s.draws + 1)) s.peer o m
  have hstored : ∀ c, t.peer.stored c = (s.peer.writeCell s.params o
      (setField (s.peer.stored (cellOf s.params (s.peer.bank s.params) o)) m)).stored c := fun c => by
    rw [hpeer, Peer.stored_withFrame, heq]; rfl
  have hsent : t.peer.sent = if s.peer.stored (econ1Cell s.params) &&& s.params.mTxrts = 0#8
      ∧ t.peer.stored (econ1Cell s.params) &&& s.params.mTxrts ≠ 0#8
      then s.peer.sent ++ [s.peer.staged s.params (Config.freeBytes (s.draws + 1))] else s.peer.sent := by
    rw [hstored, hpeer, heq]
    simp only [Peer.withFrame, ← Peer.startsTransmission_iff]
  have hcells : t.peer = ({ s.peer with cells := t.peer.cells, sent := t.peer.sent } : Peer).withFrame .outside := by
    rw [hpeer, heq, Peer.writeCell_cells]; rfl
  have hself : t.peer.stored (cellOf s.params (s.peer.bank s.params) o)
      = if reaches s.params (s.peer.bank s.params) o s.params.aEpktcnt = true
        then s.peer.stored (cellOf s.params (s.peer.bank s.params) o)
        else s.peer.stored (cellOf s.params (s.peer.bank s.params) o) ||| (m &&& ~~~ own) := by
    rw [hstored, Peer.writeCell_stored_self, hown, writeExcept_setField]
  refine ⟨t, (exec_bfs o m more s).trans hexec, hwire, honly, ?_, by rw [hcells]; rfl, fun c hc => ?_, hself,
    fun hcommon hecon1 hcount hfree hm => ?_, fun hoff hon => ?_, fun hno => ?_, _, exec_bfs o m more t, ?_⟩
  · rw [hcells]; constructor <;> rfl
  · rw [hstored, Peer.writeCell_stored_ne _ _ _ _ hc]
  · have hcell : econ1Cell s.params = cellOf s.params (s.peer.bank s.params) o := by
      rw [cellOf, if_pos hcommon, hecon1, econ1Cell]
    rw [hcell, hself, hcount, if_neg Bool.false_ne_true]
    exact or_and_not_and_ne_zero hfree hm
  · exact ⟨_, hsent.trans (if_pos ⟨hoff, hon⟩), fun hwrapped => Peer.staged_spec hwrapped _⟩
  · rw [hsent, if_neg fun h => hno.elim (fun hne => hne h.1) fun he => h.2 he]
  · show (t.peer.setCell t.params _ o m).withFrame .outside = t.peer
    rw [honly.params, hpeer, Peer.setCell_withFrame, Peer.setCell_again, Peer.withFrame_withFrame]

end Sys2Proof.Machine
end

section
/-! PROOF. The buffer memory of the reference peer: RBM (44 R189, R183), a packet that arrives (44 R195), the end of a
transmission (44 R196). -/

namespace Sys2Proof.Machine

/-! ### RBM (44 R189) -/

/-- What one byte streamed out does to the queue and the bytes eaten of its head (44 R183). -/
def eatByte : List Nat × Nat → List Nat × Nat
  | ([], eaten) => ([], eaten)
  | (n :: rest, eaten) => if n ≤ eaten + 1 then (rest, 0) else (n :: rest, eaten + 1)

theorem Peer.advanceRead_eq (p : Params) (c : Peer) : c.advanceRead p =
    { c with rdpt := (c.rdpt + 1) % p.bufSize, pend := (eatByte (c.pend, c.eaten)).1,
             eaten := (eatByte (c.pend, c.eaten)).2 } := by
  obtain ⟨cells, buf, rdpt, wrpt, rxw, pend, eaten, sent, polls, wasReset, readyDelay, linkUp, frame⟩ := c
  cases pend with
  | nil => rfl
  | cons n rest => by_cases h : n ≤ eaten + 1 <;> simp [Peer.advanceRead, Peer.release, eatByte, h]

/-- The peer after `k` bytes streamed out. -/
def Peer.streamed (p : Params) (k : Nat) (c : Peer) : Peer :=
  { c with rdpt := (c.rdpt + k) % p.bufSize, pend := (eatByte^[k] (c.pend, c.eaten)).1,
           eaten := (eatByte^[k] (c.pend, c.eaten)).2 }

theorem Peer.streamed_zero {p : Params} {c : Peer} (h : c.rdpt < p.bufSize) : c.streamed p 0 = c := by
  rw [Peer.streamed, Nat.add_zero, Nat.mod_eq_of_lt h]; rfl

theorem Peer.streamed_advanceRead (p : Params) (k : Nat) (c : Peer) :
    (c.advanceRead p).streamed p k = c.streamed p (k + 1) := by
  have hrdpt : ((c.rdpt + 1) % p.bufSize + k) % p.bufSize = (c.rdpt + (k + 1)) % p.bufSize := by
    rw [Nat.mod_add_mod, Nat.add_assoc, Nat.add_comm 1 k]
  simp only [Peer.advanceRead_eq, Peer.streamed, hrdpt, Function.iterate_succ_apply]

/-- The answers of RBM: the `k`-th is the byte at the read pointer after `k` bytes. -/
theorem rbmAnswers_eq {p : Params} (hp : p.Fits) (ds : List Byte) {c : Peer} (h : c.rdpt < p.bufSize) :
    rbmAnswers p ds c
      = ((List.range ds.length).map fun k => c.bufByte ((c.rdpt + k) % p.bufSize), c.streamed p ds.length) := by
  induction ds generalizing c with
  | nil => rw [rbmAnswers, List.length_nil, Peer.streamed_zero h]; rfl
  | cons d ds ih =>
    have hnext : (c.advanceRead p).rdpt < p.bufSize := by
      rw [Peer.advanceRead_eq]; exact Nat.mod_lt _ hp.bufSize_pos
    have hbyte : ∀ k, (c.advanceRead p).bufByte (((c.advanceRead p).rdpt + k) % p.bufSize)
        = c.bufByte ((c.rdpt + (k + 1)) % p.bufSize) := fun k => by
      rw [Peer.advanceRead_eq]
      show c.bufByte _ = _
      rw [Nat.mod_add_mod, Nat.add_assoc, Nat.add_comm 1 k]
    have hhead : c.bufHead = c.bufByte ((c.rdpt + 0) % p.bufSize) := by
      rw [Nat.add_zero, Nat.mod_eq_of_lt h]; rfl
    simp only [rbmAnswers, ih hnext, Peer.streamed_advanceRead, List.length_cons, List.range_succ_eq_map, List.map_cons,
      List.map_map, hbyte, hhead]
    rfl

/-- Bytes with nothing pending are nobody's. -/
theorem eatByte_iterate_nil (k eaten : Nat) : eatByte^[k] ([], eaten) = ([], eaten) :=
  Function.iterate_fixed rfl k

/-- Short of the end of the head packet the bytes are counted. -/
theorem eatByte_iterate_within {n eaten : Nat} (rest : List Nat) (k : Nat) (h : eaten + k < n) :
    eatByte^[k] (n :: rest, eaten) = (n :: rest, eaten + k) := by
  induction k generalizing eaten with
  | zero => rfl
  | succ k ih =>
    rw [Function.iterate_succ_apply, eatByte, if_neg (by omega), ih (by omega), Nat.add_assoc, Nat.add_comm 1 k]

/-- The byte that ends the head packet releases it. -/
theorem eatByte_iterate_release {n eaten k : Nat} (rest : List Nat) (hlt : eaten < n) (h : eaten + k = n) :
    eatByte^[k] (n :: rest, eaten) = (rest, 0) := by
  obtain ⟨j, rfl⟩ : ∃ j, k = j + 1 := ⟨k - 1, by omega⟩
  rw [Function.iterate_succ_apply', eatByte_iterate_within rest j (by omega), eatByte, if_pos (by omega)]

/-- A queue that a run reaches: no empty packet in it, and its head not yet eaten. -/
def QueueOk (q : List Nat × Nat) : Prop := (∀ n ∈ q.1, 0 < n) ∧ ∀ n, q.1.head? = some n → q.2 < n

theorem QueueOk.eatByte {q : List Nat × Nat} (h : QueueOk q) : QueueOk (eatByte q) := by
  obtain ⟨pend, eaten⟩ := q
  obtain ⟨hpos, hhead⟩ := h
  cases pend with
  | nil => exact ⟨hpos, hhead⟩
  | cons n rest =>
    by_cases hend : n ≤ eaten + 1
    · simp only [Machine.eatByte, if_pos hend]
      exact ⟨fun m hm => hpos m (List.mem_cons_of_mem _ hm),
        fun m hm => hpos m (List.mem_cons_of_mem _ (List.mem_of_mem_head? hm))⟩
    · simp only [Machine.eatByte, if_neg hend]
      refine ⟨hpos, fun m hm => ?_⟩
      cases hm
      exact Nat.lt_of_not_le hend

/-- One byte more in front of `packetsAfter`. -/
theorem packetsAfter_succ {q : List Nat × Nat} (h : QueueOk q) (k : Nat) :
    packetsAfter (k + 1) q.2 q.1 = packetsAfter k (eatByte q).2 (eatByte q).1 := by
  obtain ⟨pend, eaten⟩ := q
  cases pend with
  | nil => simp only [packetsAfter, eatByte]
  | cons n rest =>
    have hlt : eaten < n := h.2 n rfl
    by_cases hend : n ≤ eaten + 1
    · have hleft : eaten + (k + 1) - n = k := by omega
      simp only [eatByte, if_pos hend]
      rw [packetsAfter, if_neg (by omega), hleft]
    · simp only [eatByte, if_neg hend]
      rw [packetsAfter, packetsAfter]
      simp only [show eaten + (k + 1) = eaten + 1 + k by omega]

/-- A frame that reads on eats packet after packet (44 R183). -/
theorem eatByte_iterate_eq_packetsAfter (k : Nat) {q : List Nat × Nat} (h : QueueOk q) :
    eatByte^[k] q = packetsAfter k q.2 q.1 := by
  induction k generalizing q with
  | zero =>
    obtain ⟨pend, eaten⟩ := q
    cases pend with
    | nil => rw [packetsAfter]; rfl
    | cons n rest => rw [packetsAfter, if_pos (show eaten + 0 < n from h.2 n rfl)]; rfl
  | succ k ih => rw [Function.iterate_succ_apply, ih h.eatByte, packetsAfter_succ h]

/-- Settles O55: the answers and the peer after the frame are those of its bytes streamed out one by one; of the queue, what
the bytes eat. -/
theorem rbmStreamsFromTheReadPointer : Obligations.RbmStreamsFromTheReadPointer := by
  intro data s hok hinv
  have hanswers := rbmAnswers_eq (Params.fits hok) data hinv.rdpt
  have hexec : exec (.rbm data) s = peerFrame s.params.opcRbm data
      ((List.range data.length).map fun k => s.peer.bufByte ((s.peer.rdpt + k) % s.params.bufSize))
      (s.peer.streamed s.params data.length) s := by
    show execRbm data s = _
    rw [execRbm, hanswers]
  have hqueue : ∀ q, eatByte^[data.length] (s.peer.pend, s.peer.eaten) = q →
      (s.peer.streamed s.params data.length).pend = q.1 ∧ (s.peer.streamed s.params data.length).eaten = q.2 := by
    rintro q rfl; exact ⟨rfl, rfl⟩
  refine ⟨_, _, hexec, by simp, rfl,
    fun k b hb => eq_of_map_range (f := fun k => s.peer.bufByte ((s.peer.rdpt + k) % s.params.bufSize)) hb, rfl,
    peerFrame_onlyPeerAndWire rfl, ⟨rfl, rfl, rfl, rfl, rfl, rfl, rfl⟩, rfl, rfl, fun hnil => ?_, fun n rest hpend hlt => ?_,
    fun n rest hpend hlt hend => ?_, fun hpos hhead => ?_⟩
  · exact hqueue ([], s.peer.eaten) (by rw [hnil]; exact eatByte_iterate_nil _ _)
  · exact hqueue (n :: rest, s.peer.eaten + data.length) (by rw [hpend]; exact eatByte_iterate_within rest _ hlt)
  · exact hqueue (rest, 0) (by rw [hpend]; exact eatByte_iterate_release rest hlt hend)
  · exact eatByte_iterate_eq_packetsAfter data.length (q := (s.peer.pend, s.peer.eaten)) ⟨hpos, hhead⟩

/-! ### A packet that arrives (44 R195) -/

/-- A packet is stored as WBM stages on a peer whose write pointer is at `rxw`. -/
theorem Peer.storeReceived_eq (p : Params) (bs : List Byte) {c d : Peer} (hbuf : d.buf = c.buf) (hwrpt : d.wrpt = c.rxw) :
    Peer.storeReceived p bs c = { c with buf := (d.stageAll p bs).buf, rxw := (d.stageAll p bs).wrpt } := by
  induction bs generalizing c d with
  | nil => rw [Peer.storeReceived, Peer.stageAll_nil, hbuf, hwrpt]
  | cons b bs ih =>
    rw [Peer.storeReceived, ih (d := d.stage p b) (by rw [Peer.stage, hbuf, hwrpt]) (by rw [Peer.stage, hwrpt])]
    rfl

/-- The peer whose write pointer is where the next header goes: staging on it is what a packet that arrives does. -/
def Peer.receiving (c : Peer) : Peer := { c with wrpt := c.rxw }

theorem Peer.deliver_eq {p : Params} {c : Peer} {packet : List Byte} (hrx : c.stored (econ1Cell p) &&& p.mRxen ≠ 0#8)
    (hlen : packet.length ≤ 65535) : c.deliver p packet =
      { c with buf := (c.receiving.stageAll p (packetHeader p packet.length ++ packet)).buf,
               rxw := (c.receiving.stageAll p (packetHeader p packet.length ++ packet)).wrpt,
               pend := c.pend ++ [p.hdrBytes + packet.length] } := by
  have hon : (flagSet (c.stored (econ1Cell p)) p.mRxen && decide (packet.length ≤ 65535)) = true := by
    simp [flagSet, hrx, hlen]
  rw [Peer.deliver, if_pos hon, Peer.storeReceived_eq (c := c) (d := c.receiving) p _ rfl rfl]

theorem Peer.deliver_ignored {p : Params} {c : Peer} {packet : List Byte}
    (h : c.stored (econ1Cell p) &&& p.mRxen = 0#8 ∨ 65535 < packet.length) : c.deliver p packet = c := by
  have hoff : (flagSet (c.stored (econ1Cell p)) p.mRxen && decide (packet.length ≤ 65535)) = false := by
    obtain h | h := h
    · simp [flagSet, h]
    · simp [h]
  rw [Peer.deliver, hoff, if_neg Bool.false_ne_true]

/-- Header and packet as one sequence of bytes. -/
theorem stored_length (p : Params) (packet : List Byte) :
    (packetHeader p packet.length ++ packet).length = p.hdrBytes + packet.length := by
  rw [List.length_append, packetHeader_length]

/-- Where the bytes of a packet that has arrived are, if it fits the buffer memory (44 R195). -/
theorem Peer.receiving_bufByte {p : Params} {c : Peer} (hrxw : c.rxw < p.bufSize) {packet : List Byte}
    (hfit : p.hdrBytes + packet.length ≤ p.bufSize) {k : Nat} {b : Byte}
    (hb : (packetHeader p packet.length ++ packet)[k]? = some b) :
    (c.receiving.stageAll p (packetHeader p packet.length ++ packet)).bufByte ((c.rxw + k) % p.bufSize) = b :=
  Peer.stageAll_bufByte_staged (c := c.receiving) hrxw hb (by rw [stored_length]; omega)

theorem header_get {p : Params} {packet : List Byte} {j : Nat} (hj : j < p.hdrBytes) :
    (packetHeader p packet.length ++ packet)[j]?
      = some (if j = p.hdrLenOff then lo8 packet.length else if j = p.hdrLenOff + 1 then hi8 packet.length else 0#8) := by
  rw [List.getElem?_append_left (by rwa [packetHeader_length]), packetHeader_get p packet.length j hj]

theorem packet_get {p : Params} {packet : List Byte} (k : Nat) :
    (packetHeader p packet.length ++ packet)[p.hdrBytes + k]? = packet[k]? := by
  rw [List.getElem?_append_right (by rw [packetHeader_length]; omega), packetHeader_length, Nat.add_sub_cancel_left]

/-- Settles O59: what arrives is stored as WBM stages, header and packet in one, so the bytes are where staging puts them. -/
theorem peerDeliverStoresHeaderAndPacket : Obligations.PeerDeliverStoresHeaderAndPacket := by
  intro s packet rest hfg hagenda hok hinv
  have hp := Params.fits hok
  refine ⟨(s.setAgenda rest).setPeer (s.peer.deliver s.params packet), step_of_agenda hfg hagenda,
    by constructor <;> rfl, rfl, fun hoff => ?_, fun hrx hlen => ?_⟩
  · rw [Peer.deliver_ignored hoff]; rfl
  · rw [State.setPeer_peer, Peer.deliver_eq hrx hlen]
    have hbyte {k : Nat} {b : Byte} (hfit : s.params.hdrBytes + packet.length ≤ s.params.bufSize) :=
      Peer.receiving_bufByte (c := s.peer) (k := k) (b := b) hinv.rxw hfit
    have hheader := hp.header
    refine ⟨rfl, ?_, rfl, rfl, rfl, rfl, rfl, rfl, rfl, rfl, rfl, rfl, fun a ha => ?_,
      fun hfit => ⟨?_, fun j hj hj0 hj1 => ?_, fun k b hb => ?_⟩⟩
    · rw [← stored_length]
      exact Peer.stageAll_wrpt (c := s.peer.receiving) hinv.rxw _
    · rw [← stored_length] at ha
      exact Peer.stageAll_bufByte_outside (c := s.peer.receiving) hinv.rxw ha
    · have hlo := hbyte hfit (header_get (packet := packet) (show s.params.hdrLenOff < s.params.hdrBytes by omega))
      have hhi := hbyte hfit (header_get (packet := packet) (show s.params.hdrLenOff + 1 < s.params.hdrBytes by omega))
      rw [if_pos rfl] at hlo
      rw [if_neg (Nat.succ_ne_self _), if_pos rfl] at hhi
      refine Eq.trans ?_ (lo8_hi8 hlen)
      exact congrArg₂ (fun a b : Byte => a.toNat + 256 * b.toNat) hlo hhi
    · have hzero := hbyte hfit (header_get (packet := packet) hj)
      rw [if_neg hj0, if_neg hj1] at hzero
      exact hzero
    · exact hbyte hfit ((packet_get k).trans hb)

/-! ### The end of a transmission (44 R196) -/

/-- `txComplete()` returns in every state of the Supervisor, with the notifications as they are. -/
theorem exec_txComplete_returns (s : State) : ∃ t, exec .txComplete s = .next t
    ∧ (s.ctl.state = .txBusy → t.ctl.state = .ready) ∧ t.notices = s.notices := by
  by_cases hbusy : s.ctl.state = .txBusy
  · exact ⟨_, exec_txComplete_of_txBusy hbusy, fun _ => rfl, rfl⟩
  · exact ⟨_, exec_txComplete_ignored hbusy, fun h => absurd h hbusy, rfl⟩

/-- Settles O60: the event acts while the bit is 1, and the notification it raises is the next thing FG is handed. -/
theorem peerTxDoneEndsInTxComplete : Obligations.PeerTxDoneEndsInTxComplete := by
  intro s rest hfg hagenda hnotices
  have hstep : step s = .next (peerTxDone (s.setAgenda (.deliver :: rest))) := step_of_agenda hfg hagenda
  have hon : s.peer.transmitting s.params = true ↔ s.peer.stored (econ1Cell s.params) &&& s.params.mTxrts ≠ 0#8 :=
    flagSet_iff _ _
  rw [hstep]
  refine ⟨fun hoff => ?_, fun hset => ?_⟩
  · have hidle : ¬ s.peer.transmitting s.params = true := fun h => hon.1 h hoff
    exact congrArg _ (if_neg hidle)
  · have hdone : peerTxDone (s.setAgenda (.deliver :: rest)) = ((s.setAgenda (.deliver :: rest)).setPeer
        (s.peer.txDone s.params)).setNotices (s.notices ++ [.txComplete]) := if_pos (hon.2 hset)
    rw [hdone, hnotices]
    obtain ⟨u, hu, hready, hempty⟩ := exec_txComplete_returns (((((s.setAgenda (.deliver :: rest)).setPeer
      (s.peer.txDone s.params)).setNotices [.txComplete]).setAgenda rest).setNotices [])
    have hdeliver := (notificationsAreDeliveredInForeground (((s.setAgenda (.deliver :: rest)).setPeer
      (s.peer.txDone s.params)).setNotices [.txComplete]) .txComplete rest [] hfg).2 rfl rfl
    exact ⟨_, u, rfl, hdeliver.trans hu, Peer.stored_store_self s.peer _ _, rfl, rfl, rfl, hready, hempty⟩

end Sys2Proof.Machine
end

section
/-! PROOF. A frame sent byte by byte is the decoded wire command (44 R184 to R192). -/

namespace Sys2Proof.Machine

/-! ### The whole frame at once, as the peer sees it -/

/-- A command byte's offset field is an offset, under any parameters. -/
theorem Params.offsetOk_and_offMask (p : Params) (c : Byte) : p.offsetOk (c &&& p.offMask) = true := by
  have hmask : p.offMask.toNat ≤ 2 ^ p.addrBits - 1 := by
    rw [Params.offMask, BitVec.toNat_ofNat]
    exact Nat.mod_le _ _
  have hpos := Nat.two_pow_pos p.addrBits
  rw [Params.offsetOk, decide_eq_true_eq, BitVec.toNat_and]
  exact Nat.lt_of_le_of_lt Nat.and_le_right (by omega)

/-- A command byte is read as a command whose offset, if it has one, is the byte's offset field. -/
theorem decodeCommand_offset {p : Params} {c o : Byte} (h : decodeCommand p c = .rcr o ∨ decodeCommand p c = .wcr o
    ∨ decodeCommand p c = .bfs o ∨ decodeCommand p c = .bfc o) : o = c &&& p.offMask := by
  generalize hcmd : decodeCommand p c = cmd at h
  unfold decodeCommand at hcmd
  obtain rfl | rfl | rfl | rfl := h <;> grind

/-- What is decoded from a frame has operands in range and is the controller's to run. -/
theorem operandsOk_of_decodeCommand {p : Params} {c : Byte} {data : List Byte} {i : Instr}
    (h : (decodeCommand p c).withData data = .ok i) : i.operandsOk p = true ∧ i.agent = .peer := by
  have hoff {o : Byte} (ho : o = c &&& p.offMask) : p.offsetOk o = true := ho ▸ Params.offsetOk_and_offMask p c
  cases hcmd : decodeCommand p c with
  | rcr o => rw [hcmd] at h; cases h; exact ⟨hoff (decodeCommand_offset (.inl hcmd)), rfl⟩
  | wcr o => rw [hcmd] at h; cases h; exact ⟨hoff (decodeCommand_offset (.inr (.inl hcmd))), rfl⟩
  | bfs o => rw [hcmd] at h; cases h; exact ⟨hoff (decodeCommand_offset (.inr (.inr (.inl hcmd)))), rfl⟩
  | bfc o => rw [hcmd] at h; cases h; exact ⟨hoff (decodeCommand_offset (.inr (.inr (.inr hcmd)))), rfl⟩
  | rbm => rw [hcmd] at h; cases h; exact ⟨rfl, rfl⟩
  | wbm => rw [hcmd] at h; cases h; exact ⟨rfl, rfl⟩
  | src => rw [hcmd] at h; cases h; exact ⟨rfl, rfl⟩
  | unknown => rw [hcmd] at h; cases h

/-- The data bytes of a command that takes at most one: answered `0x00`, and only the first does anything. -/
theorem Peer.dataBytes_once (p : Params) (cmd : WireCmd) (h : ∀ o, cmd ≠ .rcr o) (h' : cmd ≠ .rbm) (h'' : cmd ≠ .wbm)
    (n : Nat) (c : Peer) (ds : List Byte) : c.dataBytes p cmd n true ds = (zeroAnswers ds,
      match ds with
      | [] => c
      | d :: _ => (c.dataByte p (Config.freeBytes n) cmd true d).2) := by
  cases ds with
  | nil => rfl
  | cons d ds =>
    have hzero : (c.dataByte p (Config.freeBytes n) cmd true d).1 = 0#8 := by
      cases cmd with
      | rcr o => exact absurd rfl (h o)
      | rbm => exact absurd rfl h'
      | wbm => exact absurd rfl h''
      | wcr o => rfl
      | bfs o => rfl
      | bfc o => rfl
      | src => rfl
      | unknown => rfl
    rw [Peer.dataBytes_first p cmd h h' h'', hzero]
    rfl

/-- A command with no effect of its own on a data byte leaves the peer to the end of the frame. -/
theorem Peer.dataBytes_none (p : Params) {cmd : WireCmd} (h : cmd = .src ∨ cmd = .unknown) (n : Nat) (c : Peer)
    (ds : List Byte) : c.dataBytes p cmd n true ds = (zeroAnswers ds, c) := by
  obtain rfl | rfl := h
  · rw [Peer.dataBytes_once p .src (by simp) (by simp) (by simp)]; cases ds <;> rfl
  · rw [Peer.dataBytes_once p .unknown (by simp) (by simp) (by simp)]; cases ds <;> rfl

/-- The frame of the command `c` is read as. -/
theorem Peer.frameOf_eq (p : Params) (n : Nat) (c : Peer) (b : Byte) (ds : List Byte) {cmd : WireCmd}
    (h : decodeCommand p b = cmd) : c.frameOf p n b ds = ((c.dataBytes p cmd (n + 1) true ds).1,
      (match cmd with
        | .src => (c.dataBytes p cmd (n + 1) true ds).2.softReset p
        | _ => (c.dataBytes p cmd (n + 1) true ds).2).withFrame .outside) := by
  subst h; rfl

/-- The command that a frame is decoded to does what the peer does of the frame. -/
theorem exec_of_decodeCommand {s : State} {c : Byte} {data : List Byte} {i : Instr}
    (h : (decodeCommand s.params c).withData data = .ok i) : exec i s
      = peerFrame c data (s.peer.frameOf s.params s.draws c data).1 (s.peer.frameOf s.params s.draws c data).2 s := by
  have hbyte := encode_of_decodeCommand h
  generalize hcmd : decodeCommand s.params c = cmd at h
  rw [Peer.frameOf_eq _ _ _ _ _ hcmd]
  cases cmd with
  | rcr o =>
    cases h; injection hbyte with hbyte; injection hbyte with hbyte
    rw [Peer.dataBytes_rcr, ← hbyte]; rfl
  | rbm =>
    cases h; injection hbyte with hbyte; injection hbyte with hbyte
    rw [Peer.dataBytes_rbm, ← hbyte]; rfl
  | wbm =>
    cases h; injection hbyte with hbyte; injection hbyte with hbyte
    rw [Peer.dataBytes_wbm, ← hbyte]; rfl
  | wcr o =>
    cases h; injection hbyte with hbyte; injection hbyte with hbyte
    rw [Peer.dataBytes_once _ (.wcr o) (by simp) (by simp) (by simp), ← hbyte]
    cases data <;> rfl
  | bfs o =>
    cases h; injection hbyte with hbyte; injection hbyte with hbyte
    rw [Peer.dataBytes_once _ (.bfs o) (by simp) (by simp) (by simp), ← hbyte]
    cases data <;> rfl
  | bfc o =>
    cases h; injection hbyte with hbyte; injection hbyte with hbyte
    rw [Peer.dataBytes_once _ (.bfc o) (by simp) (by simp) (by simp), ← hbyte]
    cases data <;> rfl
  | src =>
    cases h; injection hbyte with hbyte; injection hbyte with hbyte
    rw [Peer.dataBytes_none _ (.inl rfl), ← hbyte]; rfl
  | unknown => cases h

/-- A whole frame run by the controller, whether or not it knows the command (44 R184, R192). -/
theorem runEncoded_frame (s : State) (c : Byte) (data : List Byte) : runEncoded .peer (.frame (c :: data)) s
    = peerFrame c data (s.peer.frameOf s.params s.draws c data).1 (s.peer.frameOf s.params s.draws c data).2 s := by
  by_cases hcmd : decodeCommand s.params c = .unknown
  · have hdecode : decode s.params (.frame (c :: data)) = .error .unknownCommand := by
      show (decodeCommand s.params c).withData data = _
      rw [hcmd]; rfl
    have hlen : (c :: data).length = 1 + data.length := by rw [List.length_cons, Nat.add_comm]
    rw [Peer.frameOf_eq _ _ _ _ _ hcmd, Peer.dataBytes_none _ (.inr rfl)]
    simp only [runEncoded, hdecode, if_true, runUnknownFrame, hlen]
    rfl
  · obtain ⟨i, hi⟩ : ∃ i, (decodeCommand s.params c).withData data = .ok i := by
      cases hc : decodeCommand s.params c with
      | unknown => exact absurd hc hcmd
      | _ => exact ⟨_, rfl⟩
    obtain ⟨hok, hagent⟩ := operandsOk_of_decodeCommand hi
    rw [runEncoded_of_ok (show decode s.params (.frame (c :: data)) = .ok i from hi), ← hagent, runInstr_own hok,
      exec_of_decodeCommand hi]

/-! ### The frame byte by byte -/

/-- The state with another list of results: an operation called directly adds one, a part of a sequence does not. -/
def State.withReplies (s : State) (rs : List Reply) : State := { s with replies := rs }

theorem State.withReplies_wireEnd (s : State) (rs : List Reply) : (s.withReplies rs).wireEnd = s.wireEnd := rfl

theorem wireEndAfter_withReplies (d : Byte) (s : State) (rs : List Reply) :
    wireEndAfter d (s.withReplies rs) = (wireEndAfter d s).withReplies rs := by
  unfold wireEndAfter
  rw [State.withReplies_wireEnd]
  cases s.wireEnd <;> rfl

theorem clockByte_withReplies (d : Byte) (s : State) (rs : List Reply) :
    clockByte d (s.withReplies rs) = (clockByte d s).withReplies rs := by
  rw [clockByte, wireEndAfter_withReplies]; rfl

theorem emitEnd_withReplies (s : State) (rs : List Reply) :
    emitEnd (s.withReplies rs) = (emitEnd s).withReplies rs := by
  unfold emitEnd
  rw [State.withReplies_wireEnd]
  cases s.wireEnd <;> rfl

theorem exec_exchangeByte_reference (d : Byte) {s : State} (hq : Quiet s) (hb : s.bus ≠ .txBusy) (rs : List Reply) :
    exec (.exchangeByte d) (s.withReplies rs)
      = .next ((clockByte d s).withReplies (rs ++ [.byte (wireAnswer d (s.withReplies rs))])) := by
  show (exchangeByte d (s.withReplies rs)).finish .byte = _
  rw [exchangeByte_reference d (s := s.withReplies rs) hq hb, clockByte_withReplies]
  rfl

/-- Bytes exchanged by calls of their own leave what the exchange of them in a row leaves, but for the results. -/
theorem execAll_exchange (ds : List Byte) (is : List Instr) {s u : State} {as : List Byte} (hq : Quiet s)
    (hb : s.bus ≠ .txBusy) (h : exchangeAll ds s = .done as u) (rs : List Reply) :
    ∃ rs', execAll (ds.map .exchangeByte ++ is) (s.withReplies rs) = execAll is (u.withReplies rs') := by
  induction ds generalizing s as rs with
  | nil => cases h; exact ⟨rs, rfl⟩
  | cons d ds ih =>
    obtain ⟨a, t, hd, hrest⟩ := Flow.of_bind_done h
    obtain ⟨as', u', hds, hu⟩ := Flow.of_bind_done hrest
    cases hu
    cases (exchangeByte_reference d hq hb).symm.trans hd
    have hk := (clockByte_wireOnly d s).kept
    obtain ⟨rs', hrun⟩ := ih (hk.quiet hq) (by rw [hk.bus]; exact hb) hds
      (rs ++ [.byte (wireAnswer d (s.withReplies rs))])
    exact ⟨rs', (execAll_cons_of_next (exec_exchangeByte_reference d hq hb rs) _).trans hrun⟩

/-- A frame sent by calls of their own leaves what the frame of a sequence leaves, but for the results. -/
theorem execAll_frame {bytes as : List Byte} {s t : State} (hq : Quiet s) (hb : s.bus ≠ .txBusy)
    (h : framed bytes s = .done as t) :
    ∃ rs, execAll (.frameBegin :: bytes.map .exchangeByte ++ [.frameEnd]) s = .next (t.withReplies rs) := by
  obtain ⟨_, b, hbegin, hrest⟩ := Flow.of_bind_done h
  obtain ⟨as', u, hall, hrest⟩ := Flow.of_bind_done hrest
  obtain ⟨_, e, hend, he⟩ := Flow.of_bind_done hrest
  cases he
  rw [frameBegin, unlessTransmitting_free hb] at hbegin
  cases hbegin
  have hkb := (emitBegin_wireOnly s).kept
  have hqb : Quiet (emitBegin s) := hkb.quiet hq
  have hfree : (emitBegin s).bus ≠ .txBusy := by rw [hkb.bus]; exact hb
  obtain ⟨rs, hrun⟩ := execAll_exchange bytes [.frameEnd] hqb hfree hall ((emitBegin s).replies ++ [.returned])
  have hexec : exec .frameBegin s = .next ((emitBegin s).withReplies ((emitBegin s).replies ++ [.returned])) := by
    show (frameBegin s).finish _ = _
    rw [frameBegin, unlessTransmitting_free hb]; rfl
  have hku : WireOnly (emitBegin s) u := by
    have hw := exchangeAll_all bytes (emitBegin s)
    rw [hall] at hw
    exact hw
  have hufree : u.bus ≠ .txBusy := by rw [hku.kept.bus]; exact hfree
  rw [frameEnd, unlessTransmitting_free hufree] at hend
  cases hend
  have hlast : exec .frameEnd (u.withReplies rs) = .next ((emitEnd u).withReplies (rs ++ [.returned])) := by
    show (frameEnd (u.withReplies rs)).finish _ = _
    rw [frameEnd, unlessTransmitting_free (s := u.withReplies rs) hufree, emitEnd_withReplies]; rfl
  refine ⟨rs ++ [.returned], ?_⟩
  rw [List.cons_append, execAll_cons_of_next hexec, hrun, execAll_cons_of_next hlast, execAll]

/-- Settles O58: the calls leave what the frame of a sequence leaves, which the reference peer takes as the whole frame. -/
theorem frameByteByByteIsTheWireCommand : Obligations.FrameByteByByteIsTheWireCommand := by
  intro s c data hr hq hb
  obtain ⟨t, hframed, hpeer, hdraws, hwire, -⟩ := framed_reference c data s hq hb hr
  obtain ⟨rs, hrun⟩ := execAll_frame hq hb hframed
  exact ⟨_, _, hrun, runEncoded_frame s c data, hpeer, hwire, hdraws⟩

end Sys2Proof.Machine
end

section
/-! PROOF. Register commands of the block on the reference peer, nothing from ENV meanwhile: what each leaves in the cells,
and the value written that is read back (41 R138). -/

namespace Sys2Proof.Machine

/-! ### A register command that spares the bank -/

theorem Together.understood {s : State} (h : Together s) : Understood s.params := ⟨h.fits, h.noOverlap, h.map⟩

/-- A register command on the reference peer is the data byte of its wire command, with the bank of its address selected. -/
theorem registerCommand_reference {opc d : Byte} {a : RegisterAddress} {cmd : WireCmd} {s : State} (h : Together s)
    (hc : BankCoherent s) (hcmd : decodeCommand s.params (commandByte opc a.off) = cmd) (hsrc : cmd ≠ .src)
    (hspare : SparesBank s.params d cmd) :
    ∃ c free t, registerCommand opc a d s = .done (c.dataByte s.params free cmd true d).1 t ∧ BankOnly s t
      ∧ t.ctl.currentBank = bankAfter s.ctl.currentBank a ∧ BankCoherent t ∧ SameButEcon1 s.params s.peer c
      ∧ c.bank s.params = bankAfter s.ctl.currentBank a
      ∧ t.peer = (c.dataByte s.params free cmd true d).2.withFrame .outside := by
  obtain ⟨u, hselect, hbu, hbank, hcoh, hsame⟩ := selectBank_reference a s h hc
  have hu := h.kept hbu.kept
  have hparams := hbu.kept.params
  obtain ⟨t, hcmd2, hpeer, hbt⟩ := cmd2_reference (commandByte opc a.off) d u hu.quiet hu.free hu.reference
    (by rw [hparams, hcmd]; exact hsrc)
  rw [hparams, hcmd] at hcmd2 hpeer
  have hselected : u.peer.bank s.params = bankAfter s.ctl.currentBank a := by
    rw [← hbank, ← hparams]; exact hcoh.symm
  have hcached : t.ctl.currentBank = bankAfter s.ctl.currentBank a := by rw [hbt.ctl, hbank]
  have hkept : t.peer.bank s.params = bankAfter s.ctl.currentBank a := by
    rw [hpeer, Peer.bank_withFrame, Peer.dataByte_bank_kept h.map hspare, hselected]
  refine ⟨u.peer, _, t, ?_, hbu.trans hbt.bankOnly, hcached, ?_, hsame, hselected, hpeer⟩
  · rw [registerCommand, hselect]; exact hcmd2
  · rw [BankCoherent, hcached, hbt.kept.params, hparams, hkept]

/-- An offset whose cell the packet count and the peer's own bits miss is written whole. -/
theorem Peer.writeCell_stored_plain {p : Params} {c : Peer} {o : Byte} (hcount : reaches p (c.bank p) o p.aEpktcnt = false)
    (hestat : reaches p (c.bank p) o p.aEstat = false) (hphy : reaches p (c.bank p) o p.aPhystat = false) (v : Byte) :
    (c.writeCell p o v).stored (cellOf p (c.bank p) o) = v := by
  have hown : c.ownBits p o = 0#8 := by
    unfold Peer.ownBits
    simp only [hestat, hphy, Bool.false_eq_true, if_false]
    rfl
  rw [Peer.writeCell_stored_self, hcount, if_neg Bool.false_ne_true, hown]
  exact (congrArg₂ (· ||| ·) BitVec.and_zero BitVec.and_allOnes).trans BitVec.zero_or

/-- Such an offset is read as it is stored. -/
theorem Peer.readValue_plain {p : Params} {c : Peer} {o : Byte} (hcount : reaches p (c.bank p) o p.aEpktcnt = false)
    (hestat : reaches p (c.bank p) o p.aEstat = false) (hphy : reaches p (c.bank p) o p.aPhystat = false) :
    c.readValue p o = c.stored (cellOf p (c.bank p) o) := by
  unfold Peer.readValue
  simp only [hcount, hestat, hphy, Bool.false_eq_true, if_false]

/-- A bit-field set leaves the cells its offset does not reach. -/
theorem Peer.setCell_stored_ne (p : Params) (free : List Byte) (c : Peer) (o m : Byte) {i : CellId}
    (h : i ≠ cellOf p (c.bank p) o) : (c.setCell p free o m).stored i = c.stored i := by
  rw [Peer.setCell_eq]
  exact Peer.writeCell_stored_ne p c o _ h

/-- No bank-select sequence reaches a banked cell. -/
theorem SameButEcon1.banked {p : Params} {c d : Peer} (h : SameButEcon1 p c d) (b : BitVec 2) (o : Byte) :
    d.stored (.reg b o) = c.stored (.reg b o) := h.cells _ (by simp [econ1Cell])

/-- The cell of another register is another cell. -/
theorem OtherRegister.cell_ne {p : Params} {b cur : BitVec 2} {o : Byte} {a : RegisterAddress}
    (h : OtherRegister b o a) : CellId.reg b o ≠ cellOf p (bankAfter cur a) a.off := by
  unfold cellOf
  split
  · nofun
  · intro heq
    obtain ⟨hbank, hoff⟩ := CellId.reg.inj heq
    obtain hne | ⟨b', rfl, hne⟩ := h
    · exact hne hoff.symm
    · exact hne hbank.symm

/-! ### A value held while other registers are accessed (41 R138) -/

/-- The block and the reference peer work together under `p`, and the cell `i` holds `v`. -/
structure Holding (p : Params) (i : CellId) (v : Byte) (s : State) : Prop where
  together : Together s
  coherent : BankCoherent s
  params : s.params = p
  held : s.peer.stored i = v

section
variable {p : Params} {b : BitVec 2} {o v : Byte} {s : State}

/-- A result added to the list is none of the peer's. -/
theorem Holding.addReply {i : CellId} (h : Holding p i v s) (r : Reply) : Holding p i v (s.addReply r) :=
  ⟨h.together.kept (Kept.addReply s r), h.coherent, h.params, h.held⟩

/-- A register command that leaves the cell. -/
theorem Holding.registerCommand {opc d : Byte} {a : RegisterAddress} {cmd : WireCmd} (h : Holding p (.reg b o) v s)
    (hcmd : decodeCommand p (commandByte opc a.off) = cmd) (hsrc : cmd ≠ .src) (hspare : SparesBank p d cmd)
    (hkeep : ∀ free (c : Peer), c.bank p = bankAfter s.ctl.currentBank a →
      (c.dataByte p free cmd true d).2.stored (.reg b o) = c.stored (.reg b o)) :
    ∃ r t, registerCommand opc a d s = .done r t ∧ Holding p (.reg b o) v t ∧ t.replies = s.replies := by
  obtain ⟨hs, hc, rfl, hheld⟩ := h
  obtain ⟨c, free, t, hrun, hbt, -, hcoh, hsame, hbank, hpeer⟩ := registerCommand_reference hs hc hcmd hsrc hspare
  refine ⟨_, t, hrun, ⟨hs.kept hbt.kept, hcoh, hbt.kept.params, ?_⟩, hbt.replies⟩
  rw [hpeer, Peer.stored_withFrame, hkeep free c hbank, hsame.banked, hheld]

/-- The same as an operation called directly: its result is added, whatever it is. -/
theorem Holding.exec_command {opc d : Byte} {a : RegisterAddress} {cmd : WireCmd} {i : Instr} {reply : Byte → Reply}
    (h : Holding p (.reg b o) v s) (hcmd : decodeCommand p (commandByte opc a.off) = cmd) (hsrc : cmd ≠ .src)
    (hspare : SparesBank p d cmd)
    (hkeep : ∀ free (c : Peer), c.bank p = bankAfter s.ctl.currentBank a →
      (c.dataByte p free cmd true d).2.stored (.reg b o) = c.stored (.reg b o))
    (hexec : exec i s = (Machine.registerCommand opc a d s).finish reply) :
    ∃ r t, exec i s = .next t ∧ Holding p (.reg b o) v t ∧ t.replies = s.replies ++ [r] := by
  obtain ⟨r, t, hrun, ht, hreplies⟩ := h.registerCommand hcmd hsrc hspare hkeep
  rw [hexec, hrun, Flow.finish_done]
  exact ⟨reply r, _, rfl, ht.addReply _, by rw [← hreplies]; rfl⟩

/-- An unrelated access leaves the value held and adds one result. -/
theorem Holding.exec_unrelated {i : Instr} (h : Holding p (.reg b o) v s) (hi : UnrelatedAccess p b o i) :
    ∃ r t, exec i s = .next t ∧ Holding p (.reg b o) v t ∧ t.replies = s.replies ++ [r] := by
  obtain ⟨hs, hc, rfl, hheld⟩ := id h
  have hbase {a : RegisterAddress} (ha : a.ok s.params = true) := decodeCommand_base hs.fits hs.noOverlap ha
  have hnames (a : RegisterAddress) := hs.map.namesBankRegister a
  cases i with
  | selectBank a =>
    obtain ⟨t, hrun, hbt, -, hcoh, hsame⟩ := selectBank_reference a s hs hc
    have hexec : exec (.selectBank a) s = .next (t.addReply .returned) := by
      show (selectBank a s).finish _ = _
      rw [hrun]; rfl
    have ht : Holding s.params (.reg b o) v t :=
      ⟨hs.kept hbt.kept, hcoh, hbt.kept.params, by rw [hsame.banked, hheld]⟩
    exact ⟨.returned, _, hexec, ht.addReply _, hbt.replies_addReply _⟩
  | readRegister a =>
    exact h.exec_command (hbase hi).1 nofun trivial
      (fun free c _ => by rw [Peer.stored, Peer.stored, ← c.countPoll_cells s.params a.off]; rfl) rfl
  | writeRegister a w =>
    obtain ⟨ha, hother, hname⟩ := hi
    have hoff : a.off ≠ s.params.aEcon1.off := by simpa [hnames] using hname
    refine h.exec_command (d := w) (reply := fun _ => .returned) (hbase ha).2.1 nofun hoff (fun free c hbank => ?_) ?_
    · exact Peer.writeCell_stored_ne _ c _ w (by rw [hbank]; exact hother.cell_ne)
    · show (writeRegister a w s).finish _ = _
      rw [writeRegister_eq, hname, checkedCommand_finish]
  | setBits a m =>
    obtain ⟨ha, hother, hmask⟩ := hi
    have htouch := touchesBankBits_false hmask
    have hspare := hs.understood.spares_of_not_touches rfl (by rw [htouch]; exact Bool.false_ne_true)
    refine h.exec_command (reply := fun _ => .returned) (hbase ha).2.2.1 nofun hspare (fun free c hbank => ?_) ?_
    · exact Peer.setCell_stored_ne _ free c _ m (by rw [hbank]; exact hother.cell_ne)
    · show (setBits a m s).finish _ = _
      rw [setBits_eq, htouch, checkedCommand_finish]
  | clearBits a m =>
    obtain ⟨ha, hother, hmask⟩ := hi
    have htouch := touchesBankBits_false hmask
    have hspare := hs.understood.spares_of_not_touches rfl (by rw [htouch]; exact Bool.false_ne_true)
    refine h.exec_command (reply := fun _ => .returned) (hbase ha).2.2.2 nofun hspare (fun free c hbank => ?_) ?_
    · exact Peer.writeCell_stored_ne _ c _ _ (by rw [hbank]; exact hother.cell_ne)
    · show (clearBits a m s).finish _ = _
      rw [clearBits_eq, htouch, checkedCommand_finish]
  | _ => exact hi.elim

/-- Unrelated accesses in a row. -/
theorem Holding.execAll_unrelated {others : List Instr} (hothers : ∀ i ∈ others, UnrelatedAccess p b o i)
    (h : Holding p (.reg b o) v s) (is : List Instr) :
    ∃ replies t, execAll (others ++ is) s = execAll is t ∧ Holding p (.reg b o) v t
      ∧ t.replies = s.replies ++ replies := by
  induction others generalizing s with
  | nil => exact ⟨[], s, rfl, h, (List.append_nil _).symm⟩
  | cons i others ih =>
    obtain ⟨hi, hrest⟩ := List.forall_mem_cons.1 hothers
    obtain ⟨r, u, hexec, hu, hr⟩ := h.exec_unrelated hi
    obtain ⟨rs, t, hrun, ht, hrs⟩ := ih hrest hu
    exact ⟨r :: rs, t, (execAll_cons_of_next hexec _).trans hrun, ht, by rw [hrs, hr, List.append_assoc]; rfl⟩

end

/-- Settles O32: the write stores the value whole, an unrelated access reaches another cell, and the read, its bank selected
again, answers the cell. -/
theorem bankedWriteReadsBackAfterOtherAccesses : Obligations.BankedWriteReadsBackAfterOtherAccesses := by
  intro s b o v others hok hno hmap href hq hfree hcoh hplain ho hothers
  have hs : Together s := ⟨Params.fits hok, hno, hmap, href, hq, hfree⟩
  obtain ⟨hlow, hoff, hcount, hestat, hphy⟩ := hplain
  have hcell : cellOf s.params b o = .reg b o := if_neg hlow.not_ge
  have hbase := decodeCommand_base hs.fits hs.noOverlap ho
  have hname : namesBankRegister s.params (.banked b o) = false := by
    rw [hmap.namesBankRegister]; exact decide_eq_false hoff
  obtain ⟨c, free, t, hrun, hbt, -, hcoht, -, hbank, hpeer⟩ :=
    registerCommand_reference (a := .banked b o) (d := v) hs hcoh hbase.2.1 nofun hoff
  replace hbank : c.bank s.params = b := hbank
  have hwrite : exec (.writeRegister (.banked b o) v) s = .next (t.addReply .returned) := by
    show (writeRegister _ v s).finish _ = _
    rw [writeRegister_eq, hname, checkedCommand_finish, hrun]; rfl
  have hheld : t.peer.stored (.reg b o) = v := by
    have hplain := Peer.writeCell_stored_plain (c := c) (hbank ▸ hcount) (hbank ▸ hestat) (hbank ▸ hphy) v
    rw [hbank, hcell] at hplain
    rw [hpeer]; exact hplain
  have ht : Holding s.params (.reg b o) v (t.addReply .returned) :=
    Holding.addReply ⟨hs.kept hbt.kept, hcoht, hbt.kept.params, hheld⟩ _
  obtain ⟨replies, u, hothers', hu, hreplies⟩ := ht.execAll_unrelated hothers [.readRegister (.banked b o)]
  obtain ⟨x, w, hread, hbw, hcurrent, -, hsame, hselected, -⟩ := readRegister_reference (.banked b o) u hu.together
    hu.coherent (by rw [hu.params]; exact ho)
  replace hselected : x.peer.bank u.params = b := hselected
  have hvalue : x.peer.readValue u.params o = v := by
    rw [Peer.readValue_plain] <;> rw [hselected, hu.params]
    · rw [hcell, hsame.banked, hu.held]
    · exact hcount
    · exact hestat
    · exact hphy
  have hlast : exec (.readRegister (.banked b o)) u = .next (w.addReply (.byte v)) := by
    show (readRegister (.banked b o) u).finish _ = _
    rw [hread]
    exact congrArg (fun r => Host.Outcome.next (w.addReply (.byte r))) hvalue
  refine ⟨w.addReply (.byte v), .returned :: replies, ?_, ?_, hcurrent⟩
  · rw [List.cons_append, execAll_cons_of_next hwrite, hothers', execAll_cons_of_next hlast, execAll]
  · rw [hbw.replies_addReply, hreplies, hbt.replies_addReply]
    simp

end Sys2Proof.Machine
end

section
/-! PROOF. A packet delivered to the reference peer is what `receive` returns (44 R195, R183, 42 R153 to R155). -/

namespace Sys2Proof.Machine

/-! ### Frames that read the buffer memory -/

theorem Peer.streamed_streamed {p : Params} (k j : Nat) (c : Peer) :
    (c.streamed p k).streamed p j = c.streamed p (k + j) := by
  have hrdpt : ((c.rdpt + k) % p.bufSize + j) % p.bufSize = (c.rdpt + (k + j)) % p.bufSize := by
    rw [Nat.mod_add_mod, Nat.add_assoc]
  have heat : eatByte^[j] (eatByte^[k] (c.pend, c.eaten)) = eatByte^[k + j] (c.pend, c.eaten) := by
    rw [Nat.add_comm, Function.iterate_add_apply]
  simp only [Peer.streamed, hrdpt, heat]

/-- One RBM frame of the block on the reference peer: the bytes at the read pointer, streamed out (44 R189). -/
theorem framed_rbm_reference (ds : List Byte) {s : State} (h : Together s) (hrdpt : s.peer.rdpt < s.params.bufSize) :
    ∃ t, framed (s.params.opcRbm :: ds) s = .done (0#8 ::
        (List.range ds.length).map fun k => s.peer.bufByte ((s.peer.rdpt + k) % s.params.bufSize)) t
      ∧ t.peer = (s.peer.streamed s.params ds.length).withFrame .outside ∧ WireOnly s t := by
  obtain ⟨t, hrun, hpeer, -, -, hw⟩ := framed_reference s.params.opcRbm ds s h.quiet h.free h.reference
  rw [Peer.frameOf_eq _ _ _ _ _ (decodeCommand_full h.fits).2.1, Peer.dataBytes_rbm, rbmAnswers_eq h.fits ds hrdpt]
    at hrun hpeer
  exact ⟨t, hrun, hpeer, hw⟩

/-- The bytes of `l` one by one from its beginning. -/
theorem map_range_of_get {α : Type} {l : List α} {f : Nat → α} (h : ∀ k b, l[k]? = some b → f k = b) :
    (List.range l.length).map f = l := by
  apply List.ext_getElem (by simp)
  intro k hk hk'
  rw [List.getElem_map, List.getElem_range, h k _ (List.getElem?_eq_getElem hk')]

/-- The length in the header of a packet that was stored (44 R195) is read as the packet's (42 R154). -/
theorem headerLength_packetHeader {p : Params} (hp : p.Fits) {n : Nat} (hn : n ≤ 65535) :
    headerLength p (packetHeader p n) = n := by
  have hheader := hp.header
  have hlo := packetHeader_get p n p.hdrLenOff (by omega)
  have hhi := packetHeader_get p n (p.hdrLenOff + 1) (by omega)
  rw [if_pos rfl] at hlo
  rw [if_neg (Nat.succ_ne_self _), if_pos rfl] at hhi
  rw [headerLength, List.getD_eq_getElem?_getD, List.getD_eq_getElem?_getD, hlo, hhi, word16_eq]
  exact lo8_hi8 hn

/-! ### The packet count -/

/-- A register is reached by its own offset once its bank has been selected. -/
theorem reaches_bankAfter (p : Params) (cur : BitVec 2) (a : RegisterAddress) :
    reaches p (bankAfter cur a) a.off a = true := by
  cases a with
  | banked b o => simp [reaches, bankAfter, RegisterAddress.off]
  | common o => simp [reaches, RegisterAddress.off]

/-- The packet count of the reference peer as a read of `A_EPKTCNT` shows it (44 R183). -/
theorem Peer.readValue_count {p : Params} (hmap : PeerFits p) {c : Peer}
    (h : reaches p (c.bank p) p.aEpktcnt.off p.aEpktcnt = true) :
    c.readValue p p.aEpktcnt.off = BitVec.ofNat 8 (min c.pend.length 255) := by
  obtain ⟨hestat, hphy⟩ := hmap.countApart _ h
  unfold Peer.readValue
  simp only [h, hestat, hphy, if_true, Bool.false_eq_true, if_false]

theorem Peer.countPoll_sameBuffers (p : Params) (c : Peer) (o : Byte) (f : FramePos) :
    SameBuffers c ((c.countPoll p o).withFrame f) := by
  unfold Peer.countPoll
  split <;> constructor <;> rfl

/-- The packet count read on the reference peer, which keeps its buffer memory. -/
theorem readCount_reference {s : State} (h : Together s) (hc : BankCoherent s) :
    ∃ t, readRegister s.params.aEpktcnt s = .done (BitVec.ofNat 8 (min s.peer.pend.length 255)) t ∧ BankOnly s t
      ∧ SameBuffers s.peer t.peer := by
  obtain ⟨u, t, hrun, hbt, -, -, hsame, hbank, hpeer⟩ := readRegister_reference s.params.aEpktcnt s h hc
    (h.fits.offset (by simp [Params.addresses]))
  rw [Peer.readValue_count h.map (by rw [hbank]; exact reaches_bankAfter _ _ _), hsame.buffers.pend] at hrun
  exact ⟨t, hrun, hbt, by rw [hpeer]; exact hsame.buffers.trans (Peer.countPoll_sameBuffers _ _ _ _)⟩

/-! ### A pending packet -/

/-- The only pending packet, whole in the buffer memory at the read pointer. -/
structure Peer.HasPending (p : Params) (packet : List Byte) (c : Peer) : Prop where
  rdpt : c.rdpt < p.bufSize
  pend : c.pend = [p.hdrBytes + packet.length]
  eaten : c.eaten = 0
  rxw : c.rxw = (c.rdpt + (p.hdrBytes + packet.length)) % p.bufSize
  bytes : ∀ k b, (packetHeader p packet.length ++ packet)[k]? = some b → c.bufByte ((c.rdpt + k) % p.bufSize) = b

theorem Peer.HasPending.of_sameBuffers {p : Params} {packet : List Byte} {c d : Peer} (h : c.HasPending p packet)
    (hs : SameBuffers c d) : d.HasPending p packet := by
  have hbyte : ∀ a, d.bufByte a = c.bufByte a := fun a => by rw [Peer.bufByte, Peer.bufByte, hs.buf]
  exact ⟨by rw [hs.rdpt]; exact h.rdpt, hs.pend.trans h.pend, hs.eaten.trans h.eaten,
    by rw [hs.rxw, hs.rdpt]; exact h.rxw, fun k b hb => by rw [hbyte, hs.rdpt]; exact h.bytes k b hb⟩

/-- A packet that arrives at an empty queue is pending at the read pointer. -/
theorem Peer.HasPending.of_deliver {p : Params} {packet : List Byte} {c : Peer}
    (hrx : flagSet (c.stored (econ1Cell p)) p.mRxen = true) (hlen : packet.length ≤ 65535)
    (hfit : p.hdrBytes + packet.length ≤ p.bufSize) (hrxw : c.rxw < p.bufSize) (hpend : c.pend = [])
    (heaten : c.eaten = 0) (hrdpt : c.rdpt = c.rxw) : (c.deliver p packet).HasPending p packet := by
  rw [Peer.deliver_eq ((flagSet_iff _ _).1 hrx) hlen]
  refine ⟨by rw [← hrdpt] at hrxw; exact hrxw, by rw [hpend]; rfl, heaten, ?_, fun k b hb => ?_⟩
  · show (c.receiving.stageAll p _).wrpt = _
    rw [Peer.stageAll_wrpt (c := c.receiving) hrxw, stored_length, hrdpt]
    rfl
  · show (c.receiving.stageAll p _).bufByte _ = _
    rw [hrdpt]
    exact Peer.receiving_bufByte hrxw hfit hb

/-- The queue and the pointers after the whole pending packet has been streamed out. -/
theorem Peer.HasPending.streamed {p : Params} (hp : p.Fits) {packet : List Byte} {c : Peer} (h : c.HasPending p packet) :
    (c.streamed p (p.hdrBytes + packet.length)).pend = [] ∧ (c.streamed p (p.hdrBytes + packet.length)).eaten = 0 := by
  have hheader := hp.header
  have hq : eatByte^[p.hdrBytes + packet.length] (c.pend, c.eaten) = ([], 0) := by
    rw [h.pend, h.eaten]
    exact eatByte_iterate_release [] (by omega) (by omega)
  simp only [Peer.streamed, hq, and_self]

/-- The header of the pending packet, read on the reference peer. -/
theorem readHeader_reference {packet : List Byte} {s : State} (h : Together s) (hpend : s.peer.HasPending s.params packet) :
    ∃ t, readHeader s = .done (packetHeader s.params packet.length) t
      ∧ t.peer = (s.peer.streamed s.params s.params.hdrBytes).withFrame .outside ∧ WireOnly s t := by
  obtain ⟨t, hrun, hpeer, hw⟩ := framed_rbm_reference (List.replicate s.params.hdrBytes s.params.dummy) h hpend.rdpt
  have hbytes := map_range_of_get (l := packetHeader s.params packet.length)
    (f := fun k => s.peer.bufByte ((s.peer.rdpt + k) % s.params.bufSize)) fun k b hb =>
      hpend.bytes k b (by
        rw [List.getElem?_append_left (List.getElem?_eq_some_iff.1 hb).1, hb])
  rw [packetHeader_length] at hbytes
  rw [List.length_replicate, hbytes] at hrun
  rw [List.length_replicate] at hpeer
  exact ⟨t, by rw [readHeader, hrun]; rfl, hpeer, hw⟩

/-- The payload of the pending packet, read on the reference peer after its header. -/
theorem readPayload_reference {packet : List Byte} {c : Peer} {s : State} (h : Together s)
    (hpend : c.HasPending s.params packet)
    (hpeer : s.peer = (c.streamed s.params s.params.hdrBytes).withFrame .outside) (capacity : Nat) :
    ∃ t, readPayload packet.length (min packet.length capacity) s = .done (packet.take capacity) t
      ∧ t.peer = (c.streamed s.params (s.params.hdrBytes + packet.length)).withFrame .outside ∧ WireOnly s t := by
  by_cases hzero : packet.length = 0
  · refine ⟨s, ?_, by rw [hpeer, hzero, Nat.add_zero], WireOnly.refl s⟩
    rw [readPayload, if_pos hzero, List.length_eq_zero_iff.1 hzero, List.take_nil]
  · have hrdpt : s.peer.rdpt < s.params.bufSize := by rw [hpeer]; exact Nat.mod_lt _ h.fits.bufSize_pos
    obtain ⟨t, hrun, hpeer', hw⟩ := framed_rbm_reference (List.replicate packet.length s.params.dummy) h hrdpt
    have hbytes := map_range_of_get (l := packet)
      (f := fun k => s.peer.bufByte ((s.peer.rdpt + k) % s.params.bufSize)) fun k b hb => by
        have hat : s.peer.bufByte ((s.peer.rdpt + k) % s.params.bufSize)
            = c.bufByte ((c.rdpt + (s.params.hdrBytes + k)) % s.params.bufSize) := by
          rw [hpeer]
          show c.bufByte (((c.rdpt + _) % _ + k) % _) = _
          rw [Nat.mod_add_mod, Nat.add_assoc]
        exact hat.trans (hpend.bytes _ b ((packet_get k).trans hb))
    have htake : packet.take (min packet.length capacity) = packet.take capacity := by
      rw [Nat.min_comm, ← List.take_eq_take_min]
    rw [List.length_replicate, hbytes] at hrun
    rw [List.length_replicate, hpeer] at hpeer'
    refine ⟨t, ?_, ?_, hw⟩
    · rw [readPayload_of_pos hzero (Nat.min_le_left _ _), hrun, Flow.bind_done, List.tail_cons, htake]
    · rw [hpeer', ← Peer.streamed_streamed]; rfl

/-- The pending packet, read on the reference peer. -/
theorem readPending_reference {packet : List Byte} {s : State} (h : Together s) (hpend : s.peer.HasPending s.params packet)
    (hlen : packet.length ≤ 65535) (capacity : Nat) :
    ∃ t, readPending capacity s = .done (packet.take capacity, packetStatus packet.length capacity) t
      ∧ t.peer = (s.peer.streamed s.params (s.params.hdrBytes + packet.length)).withFrame .outside ∧ WireOnly s t := by
  obtain ⟨u, hheader, hpeer, hwu⟩ := readHeader_reference h hpend
  have hparams := hwu.kept.params
  rw [← hparams] at hpeer
  obtain ⟨t, hpayload, hpeer', hwt⟩ := readPayload_reference (h.kept hwu.kept) (by rw [hparams]; exact hpend) hpeer capacity
  have hlength (p : Params) (hp : p = s.params) : headerLength p (packetHeader s.params packet.length) = packet.length := by
    rw [hp]; exact headerLength_packetHeader h.fits hlen
  rw [hparams] at hpeer'
  refine ⟨t, ?_, hpeer', hwu.trans hwt⟩
  rw [readPending, hheader, Flow.bind_done, hlength _ hparams, hpayload, Flow.bind_done,
    hlength _ (hwt.kept.params.trans hparams)]

/-- `receive` of the pending packet on the reference peer. -/
theorem exec_receive_reference {packet : List Byte} {s : State} (h : Together s) (hc : BankCoherent s)
    (hpend : s.peer.HasPending s.params packet) (hlen : packet.length ≤ 65535)
    (haccept : acceptsReceive s.ctl.state = true) (capacity : Nat) :
    ∃ t, exec (.receive capacity) s = .next t
      ∧ t.replies = s.replies ++ [.packet (packet.take capacity) (packetStatus packet.length capacity)]
      ∧ t.peer.pend = [] ∧ t.peer.eaten = 0 ∧ t.peer.rdpt = t.peer.rxw
      ∧ t.peer.rdpt = (s.peer.rdpt + (s.params.hdrBytes + packet.length)) % s.params.bufSize := by
  obtain ⟨u, hcount, hbu, hsame⟩ := readCount_reference h hc
  have hu := h.kept hbu.kept
  have hpendu : u.peer.HasPending u.params packet := by rw [hbu.kept.params]; exact hpend.of_sameBuffers hsame
  obtain ⟨t, hrun, hpeer, hwt⟩ := readPending_reference hu hpendu hlen capacity
  obtain ⟨hempty, hzero⟩ := hpendu.streamed hu.fits
  have hone : BitVec.ofNat 8 (min s.peer.pend.length 255) ≠ 0#8 := by
    rw [hpend.pend, List.length_singleton]; decide
  have hexec : exec (.receive capacity) s
      = .next (t.addReply (.packet (packet.take capacity) (packetStatus packet.length capacity))) := by
    rw [exec_receive_of_accepts ((acceptsReceive_iff _).1 haccept)]
    show (readPacket capacity s).finish packetReply = _
    rw [readPacket_eq, hcount, Flow.bind_done, if_neg hone, hrun]
    rfl
  refine ⟨_, hexec, (hbu.trans hwt.bankOnly).replies_addReply _, ?_, ?_, ?_, ?_⟩
  · show t.peer.pend = []
    rw [hpeer]; exact hempty
  · show t.peer.eaten = 0
    rw [hpeer]; exact hzero
  · show t.peer.rdpt = t.peer.rxw
    rw [hpeer]; exact hpendu.rxw.symm
  · show t.peer.rdpt = _
    rw [hpeer, ← hsame.rdpt, ← hbu.kept.params]; rfl

/-- Settles O37: the packet that arrives is pending at the read pointer; its count is read, its header gives its length, and
the frames of header and payload stream out exactly its bytes. -/
theorem deliveredPacketIsReceived : Obligations.DeliveredPacketIsReceived := by
  intro s packet cap hok hno hmap href hq hfree hcoh hinv hrx hpend heaten hrdpt hlen hfit haccept
  have hp := Params.fits hok
  have hs : Together (s.setPeer (s.peer.deliver s.params packet)) := ⟨hp, hno, hmap, href, hq, hfree⟩
  have hcohd : BankCoherent (s.setPeer (s.peer.deliver s.params packet)) :=
    hcoh.trans (applyEvent_bank_frame hp (.peerDeliver packet)).1.symm
  have hread : (s.peer.deliver s.params packet).rdpt = s.peer.rdpt := by
    obtain ⟨m, w, q, h⟩ := s.peer.deliver_frame s.params packet
    rw [h]
  obtain ⟨t, hexec, hreplies, hempty, hzero, hrxw, hat⟩ := exec_receive_reference hs hcohd
    (Peer.HasPending.of_deliver hrx hlen hfit hinv.rxw hpend heaten hrdpt) hlen haccept cap
  exact ⟨t, hexec, hreplies, hempty, hzero, hrxw, hat.trans (by rw [← hread]; rfl)⟩

end Sys2Proof.Machine
end

section
/-! PROOF. Bring-up with the reference peer as the controller, ready within the bound (43 R162, 44 R194). -/

namespace Sys2Proof.Machine

/-! ### The soft reset (41 R136) -/

/-- SRC on the reference peer: the peer is reset, and bank 0 is cached and selected. -/
theorem resetCommand_reference {s : State} (h : Together s) :
    ∃ t, cmd1 s.params.opcSrc s = .done () t ∧ t.peer = (s.peer.softReset s.params).withFrame .outside
      ∧ BankOnly s (t.setBank 0#2) ∧ BankCoherent (t.setBank 0#2) := by
  obtain ⟨t, hrun, hpeer, -, -, hw⟩ := framed_reference s.params.opcSrc [] s h.quiet h.free h.reference
  rw [Peer.frameOf_eq _ _ _ _ _ (decodeCommand_full h.fits).1] at hpeer
  replace hpeer : t.peer = (s.peer.softReset s.params).withFrame .outside := hpeer
  have hbank : t.peer.bank t.params = 0#2 :=
    Peer.bank_of_stored_zero fun i => by rw [hpeer]; exact Peer.softReset_stored s.params s.peer i
  exact ⟨t, by rw [cmd1, hrun]; rfl, hpeer, hw.bankOnly.trans (BankOnly.setBank t 0#2), hbank.symm⟩

/-- The peer that has been soft-reset, with `k` reads of `A_ESTAT` made since, becomes ready at the read number `d`. -/
structure Peer.ReadyAt (d k : Nat) (c : Peer) : Prop where
  wasReset : c.wasReset = true
  readyDelay : c.readyDelay = some d
  polls : c.polls = k

/-- One poll on the reference peer: it shows the ready flag as of the reads before it, and is counted (44 R194). -/
theorem poll_reference {d k : Nat} {s : State} (h : Together s) (hc : BankCoherent s)
    (hlink : s.params.aPhystat.off ≠ s.params.aEstat.off) (hready : s.peer.ReadyAt d k) :
    ∃ v t, readRegister s.params.aEstat s = .done v t ∧ flagSet v s.params.mClkrdy = decide (d ≤ k) ∧ BankOnly s t
      ∧ BankCoherent t ∧ SameBuffers s.peer t.peer ∧ t.peer.ReadyAt d (k + 1) := by
  obtain ⟨u, t, hrun, hbt, -, hcoh, hsame, hbank, hpeer⟩ := readRegister_reference s.params.aEstat s h hc
    (h.fits.offset (by simp [Params.addresses]))
  have hreach : reaches s.params (u.peer.bank s.params) s.params.aEstat.off s.params.aEstat = true := by
    rw [hbank]; exact reaches_bankAfter _ _ _
  have hapart : reaches s.params (u.peer.bank s.params) s.params.aEstat.off s.params.aPhystat = false := by
    simp [reaches, Ne.symm hlink]
  have hflag : u.peer.ready = decide (d ≤ k) := by
    rw [Peer.ready, hsame.buffers.wasReset, hready.wasReset, hsame.buffers.readyDelay, hready.readyDelay, hsame.polls,
      hready.polls, Bool.true_and]
  have hkept : SameBuffers s.peer t.peer := by
    rw [hpeer]; exact hsame.buffers.trans (Peer.countPoll_sameBuffers _ _ _ _)
  have hpolls : t.peer.polls = k + 1 := by
    rw [hpeer, ← hready.polls, ← hsame.polls, Peer.countPoll, if_pos hreach]; rfl
  exact ⟨_, t, hrun, (Peer.readValue_ready h.fits hreach (.inl hapart)).trans hflag, hbt, hcoh, hkept,
    hkept.wasReset.trans hready.wasReset, hkept.readyDelay.trans hready.readyDelay, hpolls⟩

/-- The bounded poll ends with `Ok` if the controller becomes ready within the bound. -/
theorem pollReady_reference {d k n : Nat} {s : State} (h : Together s) (hc : BankCoherent s)
    (hlink : s.params.aPhystat.off ≠ s.params.aEstat.off) (hready : s.peer.ReadyAt d k) (hk : k ≤ d) (hd : d < k + n) :
    ∃ t, pollReady n s = .done .ok t ∧ BankOnly s t ∧ BankCoherent t ∧ SameBuffers s.peer t.peer := by
  induction n generalizing k s with
  | zero => omega
  | succ n ih =>
    obtain ⟨v, u, hread, hflag, hbu, hcu, hsame, hnext⟩ := poll_reference h hc hlink hready
    have hparams := hbu.kept.params
    rw [pollReady, hread, Flow.bind_done, hparams, hflag]
    by_cases hnow : d ≤ k
    · exact ⟨u, if_pos (decide_eq_true hnow), hbu, hcu, hsame⟩
    · obtain ⟨t, hrun, hbt, hct, hsame'⟩ := ih (h.kept hbu.kept) hcu (by rw [hparams]; exact hlink) hnext (by omega)
        (by omega)
      exact ⟨t, by rw [if_neg (by simpa using hnow), hrun], hbu.trans hbt, hct, hsame.trans hsame'⟩

/-- The soft reset succeeds on the reference peer if it becomes ready within the bound; nothing is pending then. -/
theorem softReset_reference {d : Nat} {s : State} (h : Together s) (hlink : s.params.aPhystat.off ≠ s.params.aEstat.off)
    (hdelay : s.peer.readyDelay = some d) (hd : d < s.params.resetPollMax) :
    ∃ t, softReset s = .done .ok t ∧ BankOnly s t ∧ BankCoherent t ∧ t.peer.pend = [] := by
  obtain ⟨u, hrun, hpeer, hbu, hcu⟩ := resetCommand_reference h
  have hparams : (u.setBank 0#2).params = s.params := hbu.kept.params
  have hready : (u.setBank 0#2).peer.ReadyAt d 0 := by
    show u.peer.ReadyAt d 0
    rw [hpeer]; exact ⟨rfl, hdelay, rfl⟩
  obtain ⟨t, hpoll, hbt, hct, hsame⟩ := pollReady_reference (n := s.params.resetPollMax) (h.kept hbu.kept) hcu
    (by rw [hparams]; exact hlink) hready (Nat.zero_le d) (by omega)
  have hempty : u.peer.pend = [] := by rw [hpeer]; rfl
  refine ⟨t, ?_, hbu.trans hbt, hct, hsame.pend.trans hempty⟩
  rw [softReset, hrun, Flow.bind_done, show u.params.resetPollMax = s.params.resetPollMax from congrArg _ hparams, hpoll]

/-! ### The configuration (43 R162, steps 3 to 5) -/

theorem Peer.writeCell_sameBuffers (p : Params) (c : Peer) (o v : Byte) : SameBuffers c (c.writeCell p o v) := by
  rw [Peer.writeCell_cells]; constructor <;> rfl

theorem SameBuffers.withFrame {c d : Peer} (h : SameBuffers c d) (f : FramePos) : SameBuffers c (d.withFrame f) :=
  ⟨h.buf, h.rdpt, h.wrpt, h.rxw, h.pend, h.eaten, h.wasReset, h.readyDelay, h.linkUp⟩

/-- A register written on the reference peer, which keeps its buffer memory. -/
theorem writeRegister_reference {a : RegisterAddress} {s : State} (h : Together s) (hc : BankCoherent s)
    (ha : a.ok s.params = true) (hname : namesBankRegister s.params a = false) (v : Byte) :
    ∃ t, writeRegister a v s = .done () t ∧ BankOnly s t ∧ BankCoherent t ∧ SameBuffers s.peer t.peer := by
  have hoff : a.off ≠ s.params.aEcon1.off := by
    rw [h.map.namesBankRegister, decide_eq_false_iff_not] at hname
    exact hname
  obtain ⟨c, free, t, hrun, hbt, -, hcoh, hsame, -, hpeer⟩ := registerCommand_reference (d := v) h hc
    (decodeCommand_base h.fits h.noOverlap ha).2.1 nofun hoff
  refine ⟨t, ?_, hbt, hcoh, ?_⟩
  · rw [writeRegister_eq, hname, checkedCommand, if_neg Bool.false_ne_true, hrun, Flow.bind_done]
  · rw [hpeer]
    exact hsame.buffers.trans ((Peer.writeCell_sameBuffers _ _ _ _).withFrame _)

theorem writeAll_reference {ws : List (RegisterAddress × Byte)} {s : State} (h : Together s) (hc : BankCoherent s)
    (hok : ∀ w ∈ ws, w.1.ok s.params = true) (hname : ∀ w ∈ ws, namesBankRegister s.params w.1 = false) :
    ∃ t, writeAll ws s = .done () t ∧ BankOnly s t ∧ BankCoherent t ∧ SameBuffers s.peer t.peer := by
  induction ws generalizing s with
  | nil => exact ⟨s, rfl, BankOnly.refl s, hc, by constructor <;> rfl⟩
  | cons w ws ih =>
    obtain ⟨hokw, hoks⟩ := List.forall_mem_cons.1 hok
    obtain ⟨hnamew, hnames⟩ := List.forall_mem_cons.1 hname
    obtain ⟨u, hwrite, hbu, hcu, hsame⟩ := writeRegister_reference h hc hokw hnamew w.2
    obtain ⟨t, hrun, hbt, hct, hsame'⟩ := ih (h.kept hbu.kept) hcu (by rw [hbu.kept.params]; exact hoks)
      (by rw [hbu.kept.params]; exact hnames)
    exact ⟨t, by rw [writeAll, hwrite, Flow.bind_done, hrun], hbu.trans hbt, hct, hsame.trans hsame'⟩

/-- Bits of `A_ECON1` set on the reference peer read as set. -/
theorem Peer.setCell_econ1_flag {p : Params} (hmap : PeerFits p) {m : Byte} (hm : m ≠ 0#8) (free : List Byte) (c : Peer) :
    flagSet ((c.setCell p free p.aEcon1.off m).stored (econ1Cell p)) m = true := by
  rw [Peer.setCell_eq]
  show flagSet ((c.writeCell p p.aEcon1.off _).stored (econ1Cell p)) m = true
  rw [Peer.writeCell_econ1 hmap, if_pos rfl]
  exact flagSet_putFlag _ m hm true

/-- Reception enabled on the reference peer (43 R162, step 5). -/
theorem enableRx_reference {s : State} (h : Together s) (hc : BankCoherent s) (hm : s.params.mRxen ≠ 0#8) :
    ∃ t, setBits s.params.aEcon1 s.params.mRxen s = .done () t ∧ BankOnly s t ∧ BankCoherent t
      ∧ t.peer.pend = s.peer.pend ∧ flagSet (t.peer.stored (econ1Cell s.params)) s.params.mRxen = true := by
  have hmask := h.fits.mRxen
  obtain ⟨c, free, t, hrun, hbt, -, hcoh, hsame, -, hpeer⟩ := registerCommand_reference (a := s.params.aEcon1)
    (d := s.params.mRxen) h hc (decodeCommand_base h.fits h.noOverlap h.understood.econ1_offset).2.2.1 nofun (.inr hmask)
  replace hpeer : t.peer = (c.setCell s.params free s.params.aEcon1.off s.params.mRxen).withFrame .outside := hpeer
  refine ⟨t, ?_, hbt, hcoh, ?_, ?_⟩
  · rw [setBits_eq, touchesBankBits_false (.inr hmask), checkedCommand, if_neg Bool.false_ne_true, hrun, Flow.bind_done]
  · rw [hpeer, Peer.setCell_eq]
    exact (Peer.writeCell_sameBuffers _ c _ _).pend.trans hsame.buffers.pend
  · rw [hpeer, Peer.stored_withFrame, Peer.setCell_econ1_flag h.map hm]

/-- The registers that `initialize` writes do not name the bank-select register of the reference peer. -/
theorem initWrites_avoid_bank_of_peerFits {p : Params} (hmap : PeerFits p) (m : Six Byte) :
    ∀ w ∈ initWrites p m, namesBankRegister p w.1 = false := by
  have hname {a : RegisterAddress} (ha : a ∈ [p.aEstat, p.aEpktcnt, p.aPhystat] ++ p.aMaadr.toList ++ p.rxcfg.map (·.1)) :
      namesBankRegister p a = false := by
    rw [hmap.namesBankRegister]; exact decide_eq_false (hmap.econ1Apart a ha)
  refine initWrites_avoid_bank m (fun w hw => hname ?_) fun a ha => hname ?_
  · exact List.mem_append_right _ (List.mem_map_of_mem hw)
  · exact List.mem_append_left _ (List.mem_append_right _ ha)

/-- The configuration of the reference peer ends in Ready with reception enabled. -/
theorem configure_reference (m : Six Byte) {s : State} (h : Together s) (hc : BankCoherent s)
    (hm : s.params.mRxen ≠ 0#8) :
    ∃ t, configure m s = .done (.ok, .enableRx) (t.setCtlState .ready) ∧ BankOnly s t ∧ BankCoherent t
      ∧ t.peer.pend = s.peer.pend ∧ flagSet (t.peer.stored (econ1Cell s.params)) s.params.mRxen = true := by
  obtain ⟨u, hwrites, hbu, hcu, hsame⟩ := writeAll_reference h hc (h.understood.initWrites_ok m)
    (initWrites_avoid_bank_of_peerFits h.map m)
  have hparams := hbu.kept.params
  obtain ⟨t, henable, hbt, hct, hpend, hflag⟩ := enableRx_reference (h.kept hbu.kept) hcu (by rw [hparams]; exact hm)
  rw [hparams] at hflag
  exact ⟨t, by rw [configure_of_writes hwrites, henable, Flow.bind_done], hbu.trans hbt, hct, hpend.trans hsame.pend,
    hflag⟩

/-- Settles O39: the soft reset selects bank 0 on both sides and its poll sees the flag within the bound; the writes and the
enabling of reception keep the queue empty and the banks equal. -/
theorem bringUpSucceedsWithAReadyController : Obligations.BringUpSucceedsWithAReadyController := by
  rintro m s hok hno hmap href hq hfree haccept ⟨d, hdelay, hd⟩ hm hapart
  have hs : Together (s.enterResetting m) := ⟨Params.fits hok, hno, hmap, href, hq, hfree⟩
  have hlink : s.params.aPhystat.off ≠ s.params.aEstat.off := hapart _ (by simp)
  obtain ⟨u, hreset, hbu, hcu, hempty⟩ := softReset_reference hs hlink hdelay hd
  have hparams : u.params = s.params := hbu.kept.params
  obtain ⟨t, hconf, hbt, hct, hpend, hflag⟩ := configure_reference m (hs.kept hbu.kept) hcu (by rw [hparams]; exact hm)
  have hb := hbu.trans hbt
  have hexec : exec (.initializeOp (some m)) s = .next ((t.setCtlState .ready).addReply .ok) := by
    show (bringUp (some m) s).finish bringUpReply = _
    rw [bringUp_some m haccept, hreset, Flow.bind_done, if_neg nofun, hconf]
    rfl
  rw [hparams] at hflag
  exact ⟨_, hexec, hb.replies_addReply .ok, rfl, hb.macAddress, hct, hflag, hpend.trans hempty⟩

end Sys2Proof.Machine
end
